-- ==== Sys2Proof/Word.lean ====
section
/-! DEFINITION. The words of the block and the plain-data shapes that its ROMs and its output port hold
(00_scope.md R5, R7; 30_encoding.md R60 to R69, R76; 41_register_translator.md R100, R118). -/

namespace Sys2Proof

/-- One byte of the input buffer (10_state.md R11). -/
abbrev Byte := BitVec 8

/-- A 32-bit word: the instruction word `WORD` (`WORD_W` = 32) and every packed `LEAF` or `FD` word of a table. -/
abbrev Word := BitVec 32

/-- A raw field, an extractor result, an immediate or an operand payload (`IMM_W` = 64, R7, R94). -/
abbrev U64 := BitVec 64

/-- A register identifier, an opaque number that the block only copies (R118).  Its width `REGID_W` is a parameter of the
build (R5): `Params.regIdW`, which the contract of the bank tables and the output port read. -/
abbrev RegId := Nat

/-- An opcode id, a "dense enumeration" (30_encoding.md R62).  Its width `OPC_W` is a parameter of the build (R5):
`Params.opcW`. -/
abbrev OpcId := Nat

/-- The reading `signed(v)` of a 64-bit pattern (R6 notation table): `v`, or `v - 2^64` when bit 63 is set. -/
def signed (v : U64) : Int := if v.getLsbD 63 then (v.toNat : Int) - 2 ^ 64 else v.toNat

/-- The thirteen register banks of the target instruction set (41_register_translator.md R100). -/
inductive Bank where
  | gpr | gprz | g64 | fps | fpd | vec | vsxl | vsxh | vsf | cr | crb | pf0 | pf1
  deriving DecidableEq, Repr

/-- The bank numbers 1 to 13 (30_encoding.md R76). -/
def Bank.number : Bank → Nat
  | .gpr => 1 | .gprz => 2 | .g64 => 3 | .fps => 4 | .fpd => 5 | .vec => 6 | .vsxl => 7
  | .vsxh => 8 | .vsf => 9 | .cr => 10 | .crb => 11 | .pf0 => 12 | .pf1 => 13

/-- One operand: a register identifier or a 64-bit immediate pattern with no mark of its sign
(30_encoding.md R66; 00_scope.md R7).  The tag `EMPTY` is a slot's, not an operand's: `Machine.Slot`. -/
inductive Operand where
  | reg (r : RegId)
  | imm (v : U64)
  deriving DecidableEq, Repr

/-- The feature set `FEATURES`, held as the rising list of the bits that are 0, so that its width `NFEAT`,
which the spec leaves OPEN, is nowhere fixed (10_state.md R12, D15). -/
structure FeatureSet where
  disabled : List Nat
  deriving DecidableEq, Repr

/-- All ones: no feature is disabled (R12, R162). -/
def FeatureSet.all : FeatureSet := ⟨[]⟩

/-- Bit `i` of the feature set. -/
def FeatureSet.enabled (f : FeatureSet) (i : Nat) : Bool := !f.disabled.contains i

/-- A leaf as a table stores it: the `LEAF` header and the `FD` descriptor words that follow it in table-declared order
(30_encoding.md R61, R62).  The header is `{opcode id, nfields[3:0], 0[11:0]}`, 32 bits where `OPC_W` is 16; it is held as a
number so that an opcode id of another width has room (log entry 19). -/
structure Leaf where
  header : Nat
  fds : List Word
  deriving DecidableEq, Repr

/-- One row of a decode table.  The row answers its leaf for a word with `word & mask = value`, when every listed
feature bit has the listed value.  The spec's table is an arbitrary function (R160); a list of such rows, of which
the first that applies answers, represents every function of a word and finitely many feature bits. -/
structure TableRow where
  mask : Word
  value : Word
  features : List (Nat × Bool)
  leaf : Leaf
  deriving DecidableEq, Repr

/-- The register bank tables `BANK_ROM[b][i]` (10_state.md R21): the table of bank number `b` is element `b - 1`, so that
`NBANK` is the number of tables (R5, D6) and `SIZE[b]` the length of table `b`. -/
abbrev BankRom := List (List RegId)

end Sys2Proof
end

