-- ==== Sys2Proof/Config.lean ====
section
/-! DEFINITION. What an implementation fixes (00_scope.md R5): the sizes that the source fixes, as plain numbers, the defaults
of the parameters that a build chooses, and the contents that the spec leaves to an external supplier, as constants with
no body. -/

namespace Sys2Proof

/-- `ILEN`: bytes of one instruction and the only non-zero consumed length (R5, R18). -/
def Config.ilen : Nat := 4

/-- `TIED_LOAD_POS`: where the tied operand of an update-form load is inserted, "at the *start*" (R5, R145). -/
def Config.tiedLoadPos : Nat := 0

/-- The parameters of a build whose values the spec decides (R5): "the default of a parameter the model takes as an
argument".  A state holds them, so every statement quantifies over them.  `NEXT`, `NBANK` and `SIZE[b]` are
parameters too, held as the lengths of lists (log entry 19). -/
structure Params where
  /-- `REGID_W`: the width of a register identifier (D5). -/
  regIdW : Nat
  /-- `OPC_W`: the width of an opcode id (D5). -/
  opcW : Nat
  /-- `MAXOPS`: the capacity of the operand list (D5, D29). -/
  maxOps : Nat
  /-- `MAXFIELDS`: the largest number of field descriptors of a leaf (D4). -/
  maxFields : Nat
  /-- `N_BASE`: the bits of the base index in a memory operand's raw field (D8).  It fixes the widths of the formats `MRI` and
  `MRIX`; a field of another width has every bit above its displacement as its base (30_encoding.md R64, R65). -/
  nBase : Nat
  /-- `TIED_STORE_POS`: where the tied operand of an update-form store is inserted (R145, D9). -/
  tiedStorePos : Nat
  deriving DecidableEq, Repr

/-- The defaults of R5. -/
def Config.params : Params where
  regIdW := 16
  opcW := 16
  maxOps := 8
  maxFields := 8
  nBase := 5
  tiedStorePos := 1

/-- `NEXT`: the number of extension tables after reset (R5, D14). -/
def Config.next : Nat := 1

/-- `SIZE[b]` after reset, for the banks 1 to `NBANK` = 13 in the order of their numbers: 32, but 64 for `VSF` (9) and 8
for `CR` (10) (R100, D6). -/
def Config.sizes : List Nat := [32, 32, 32, 32, 32, 32, 32, 32, 64, 8, 32, 32, 32]

/-- `NFEAT`: the number of feature flags, OPEN (R5, D15; log entry 7).  Free: no body. -/
opaque Config.nfeat : Nat

/-- The content of `TABLE[t]`, not in the source (R4, R20; log entry 5).  Free: no body. -/
opaque Config.table : Nat → List TableRow

/-- The content of `BANK_ROM`, not in the source (R4, R21; log entry 5).  Free: no body. -/
opaque Config.bankRom : BankRom

/-- The content of `POLICY_ROM`, not in the source (R4, R22; log entry 5): opcode id and 2-bit policy code, every
id that is not listed having `NONE` (20_memory.md R49).  Free: no body. -/
opaque Config.policyRom : List (OpcId × BitVec 2)

end Sys2Proof
end

