-- ==== Sys2Proof/Machine/Fixtures.lean ====
section
/-! DEFINITION. The spec's reference fixtures: the leaves and tables `T_REF0` and `T_REF1` and the policies
`POLICY_ROM_REF` (44_matcher_dispatch.md R169; the leaf words of 95_test_vectors.md section 3) and the bank contents
`BANK_ROM_REF` (41_register_translator.md R116).  They name the fixture rows of the opcode table and serve the tests;
no meaning of an operand class rests on them (D28). -/

namespace Sys2Proof.Fixtures

def leafAddi : Leaf := ⟨0x00013000, [0x0E6A0000#32, 0x15200200#32, 0x8BC00400#32]⟩
def leafLwz : Leaf := ⟨0x00022000, [0x0E6A0000#32, 0xC5000200#32]⟩
def leafLwzu : Leaf := ⟨0x00032000, [0x0E6A0000#32, 0xC5000200#32]⟩
def leafStwu : Leaf := ⟨0x00042000, [0x0E6A0000#32, 0xC5000200#32]⟩
def leafLdu : Leaf := ⟨0x00052000, [0x1E6A0000#32, 0xCD040200#32]⟩
def leafStdu : Leaf := ⟨0x00062000, [0x1E6A0000#32, 0xCD040200#32]⟩
def leafMfocrf : Leaf := ⟨0x00072000, [0x0E6A0000#32, 0xD4D80200#32]⟩
def leafFadd : Leaf := ⟨0x00083000, [0x2E6A0000#32, 0x2D200200#32, 0x2BD60400#32]⟩
def leafVadd : Leaf := ⟨0x00093000, [0x366A0000#32, 0x35200200#32, 0x33D60400#32]⟩
def leafOri : Leaf := ⟨0x000A3000, [0x0D200000#32, 0x0E6A0200#32, 0x83C00400#32]⟩
def leafPfadd : Leaf := ⟨0x01013000, [0x666A0000#32, 0x65200200#32, 0x63D60400#32]⟩

/-- `T_REF0`, the primary table of the fixtures. -/
def tRef0 : List TableRow :=
  [⟨0xFC000000#32, 0x38000000#32, [], leafAddi⟩,
   ⟨0xFC000000#32, 0x80000000#32, [], leafLwz⟩,
   ⟨0xFC000000#32, 0x84000000#32, [], leafLwzu⟩,
   ⟨0xFC000000#32, 0x94000000#32, [], leafStwu⟩,
   ⟨0xFC000003#32, 0xE8000001#32, [], leafLdu⟩,
   ⟨0xFC000003#32, 0xF8000001#32, [], leafStdu⟩,
   ⟨0xFC1007FE#32, 0x7C100026#32, [], leafMfocrf⟩,
   ⟨0xFC0007FE#32, 0xFC00002A#32, [], leafFadd⟩,
   ⟨0xFC0007FF#32, 0x10000000#32, [], leafVadd⟩,
   ⟨0xFC000000#32, 0x60000000#32, [], leafOri⟩]

/-- `T_REF1`, the extension table of the fixtures. -/
def tRef1 : List TableRow := [⟨0xFC0007FF#32, 0x10000000#32, [], leafPfadd⟩]

/-- `POLICY_ROM_REF`: 1 is `TIED_OUT`, 2 is `TIED_STORE`, every other id has `NONE`. -/
def policyRef : List (OpcId × BitVec 2) :=
  [(0x0003, 1#2), (0x0004, 2#2), (0x0005, 1#2), (0x0006, 2#2)]

/-- The identifiers `tag * 256 + i` of one bank of the fixture. -/
def bankRow (tag size : Nat) : List RegId := (List.range size).map fun i => tag * 256 + i

/-- `BANK_ROM_REF` (R116), the banks in the order of their numbers. -/
def bankRef : BankRom :=
  [bankRow 0x01 32, 0x0F00 :: (bankRow 0x01 32).tail, bankRow 0x02 32, bankRow 0x03 32, bankRow 0x04 32, bankRow 0x05 32,
   bankRow 0x06 32, bankRow 0x07 32, bankRow 0x08 64, bankRow 0x09 8, bankRow 0x0A 32, bankRow 0x0B 32, bankRow 0x0C 32]

end Sys2Proof.Fixtures
end

