-- ==== Sys2Proof/Syntax.lean ====
section
/-! DEFINITION. The operations of the block: one constructor for each row of spec/opcode_table.json.  The operand
classes (format `FD`), the internal operations (no encoding of their own), the leaf header (format `LEAF`) and the
fixture leaves (format `W`). -/

namespace Sys2Proof

/-- The operand classes of 30_encoding.md R63: the thirteen register classes, one a bank, and five others. -/
inductive OperandClass where
  | reg (b : Bank)
  | uimm | simm | memri | memrix | crbitm
  deriving DecidableEq, Repr

/-- An operation of the block.  A field descriptor carries its bit range `hi:lo` and its field id `fid`, which no
resolver reads (30_encoding.md R61).  A fixture leaf carries the fields of the instruction word it matches, in the
word's order, the bits that its mask and its descriptors leave out included (44_matcher_dispatch.md R169). -/
inductive Instr where
  -- 42_simple_resolvers.md: one resolver per register bank
  | gpr (hi lo : BitVec 5) (fid : BitVec 8)
  | gprz (hi lo : BitVec 5) (fid : BitVec 8)
  | g64 (hi lo : BitVec 5) (fid : BitVec 8)
  | fps (hi lo : BitVec 5) (fid : BitVec 8)
  | fpd (hi lo : BitVec 5) (fid : BitVec 8)
  | vec (hi lo : BitVec 5) (fid : BitVec 8)
  | vsxl (hi lo : BitVec 5) (fid : BitVec 8)
  | vsxh (hi lo : BitVec 5) (fid : BitVec 8)
  | vsf (hi lo : BitVec 5) (fid : BitVec 8)
  | cr (hi lo : BitVec 5) (fid : BitVec 8)
  | crb (hi lo : BitVec 5) (fid : BitVec 8)
  | pf0 (hi lo : BitVec 5) (fid : BitVec 8)
  | pf1 (hi lo : BitVec 5) (fid : BitVec 8)
  -- 42_simple_resolvers.md: the immediates
  | uimm (hi lo : BitVec 5) (fid : BitVec 8)
  | simm (hi lo : BitVec 5) (fid : BitVec 8)
  -- 43_composite_resolvers.md
  | memri (hi lo : BitVec 5) (fid : BitVec 8)
  | memrix (hi lo : BitVec 5) (fid : BitVec 8)
  | crbitm (hi lo : BitVec 5) (fid : BitVec 8)
  -- 40_bitfield_extractor.md: the primitives
  | extract (word : Word) (hi lo : Nat)
  | sext (value : U64) (w : Nat)
  | shl (value : U64) (n : Nat)
  | ctz (value : U64)
  -- 41_register_translator.md, 43_composite_resolvers.md: the ROM lookups
  | resolve (b i : Nat)
  | policy (opc : OpcId)
  -- 20_memory.md: the operand list
  | opsAppend (o : Operand)
  | opsInsert (p : Nat) (o : Operand)
  -- 44_matcher_dispatch.md
  | matchLeaf (t : Nat) (word : Word) (features : FeatureSet)
  | dispatch (fd : Word)
  | attempt (t : Nat)
  -- 45_decode_entry.md
  | assemble
  | decode
  -- 30_encoding.md R62: the leaf header
  | leaf (opcode : OpcId) (nfields : BitVec 4)
  -- 44_matcher_dispatch.md R169: the fixture leaves
  | fxAddi (rt ra : BitVec 5) (si : BitVec 16)
  | fxLwz (rt ra : BitVec 5) (d : BitVec 16)
  | fxLwzu (rt ra : BitVec 5) (d : BitVec 16)
  | fxStwu (rs ra : BitVec 5) (d : BitVec 16)
  | fxLdu (rt ra : BitVec 5) (ds : BitVec 14)
  | fxStdu (rs ra : BitVec 5) (ds : BitVec 14)
  | fxMfocrf (rt : BitVec 5) (fxm : BitVec 8) (bit11 bit0 : BitVec 1)
  | fxFadd (frt fra frb : BitVec 5) (bit0 : BitVec 1)
  | fxVadd (vrt vra vrb : BitVec 5)
  | fxOri (rs ra : BitVec 5) (ui : BitVec 16)
  | fxPfadd (frt fra frb : BitVec 5)
  deriving DecidableEq, Repr

/-- The descriptor of a class with its bit range and field id, as an operation. -/
def Instr.ofField : OperandClass → BitVec 5 → BitVec 5 → BitVec 8 → Instr
  | .reg .gpr => .gpr
  | .reg .gprz => .gprz
  | .reg .g64 => .g64
  | .reg .fps => .fps
  | .reg .fpd => .fpd
  | .reg .vec => .vec
  | .reg .vsxl => .vsxl
  | .reg .vsxh => .vsxh
  | .reg .vsf => .vsf
  | .reg .cr => .cr
  | .reg .crb => .crb
  | .reg .pf0 => .pf0
  | .reg .pf1 => .pf1
  | .uimm => .uimm
  | .simm => .simm
  | .memri => .memri
  | .memrix => .memrix
  | .crbitm => .crbitm

end Sys2Proof
end

