-- ==== Sys2Proof/WellFormed.lean ====
section
/-! DEFINITION. When an operation is well formed: the part of each operation's domain that its operands alone decide
(30_encoding.md R61, R62, R64, R65, R68, R72; 40_bitfield_extractor.md R90 to R95; 41_register_translator.md R102, R118; 20_memory.md R48). -/

namespace Sys2Proof

/-- A strictly rising list, the canonical form of a set of numbers. -/
def risingNat : List Nat → Bool
  | a :: b :: rest => decide (a < b) && risingNat (b :: rest)
  | _ => true

/-- A field descriptor's bit range is a range: `lo ≤ hi` (R61; `hi ≤ 31` is its width's). -/
def rangeWellFormed (hi lo : BitVec 5) : Bool := decide (lo ≤ hi)

/-- The width of a class's raw field by the contract of the tables, where its format has one: `N_BASE` bits of base index above
the displacement for the memory classes (R64, R65; D8), 8 bits for the mask (R68).  Only what counts as well formed reads it: the
resolvers give a field of any other width the effect that its rule says. -/
def contractWidth (p : Params) : OperandClass → Option Nat
  | .reg _ => none
  | .uimm => none
  | .simm => none
  | .memri => some (p.nBase + 16)
  | .memrix => some (p.nBase + 14)
  | .crbitm => some 8

/-- A bit range of a class: a range, of the contract's width where there is one, at the defaults of the parameters. -/
def fieldWellFormed (c : OperandClass) (hi lo : BitVec 5) : Bool :=
  rangeWellFormed hi lo && (contractWidth Config.params c).all fun w => hi.toNat - lo.toNat + 1 == w

/-- A register operand's identifier has `REGID_W` bits and is not 0 (41_register_translator.md R118). -/
def operandWellFormed : Operand → Bool
  | .reg r => decide (r ≠ 0) && decide (r < 2 ^ Config.params.regIdW)
  | .imm _ => true

/-- The operands lie in the operation's domain, at the defaults of the parameters (00_scope.md R5). -/
def Instr.wellFormed : Instr → Bool
  | .gpr hi lo _ => rangeWellFormed hi lo
  | .gprz hi lo _ => rangeWellFormed hi lo
  | .g64 hi lo _ => rangeWellFormed hi lo
  | .fps hi lo _ => rangeWellFormed hi lo
  | .fpd hi lo _ => rangeWellFormed hi lo
  | .vec hi lo _ => rangeWellFormed hi lo
  | .vsxl hi lo _ => rangeWellFormed hi lo
  | .vsxh hi lo _ => rangeWellFormed hi lo
  | .vsf hi lo _ => rangeWellFormed hi lo
  | .cr hi lo _ => rangeWellFormed hi lo
  | .crb hi lo _ => rangeWellFormed hi lo
  | .pf0 hi lo _ => rangeWellFormed hi lo
  | .pf1 hi lo _ => rangeWellFormed hi lo
  | .uimm hi lo _ => rangeWellFormed hi lo
  | .simm hi lo _ => rangeWellFormed hi lo
  | .memri hi lo _ => fieldWellFormed .memri hi lo
  | .memrix hi lo _ => fieldWellFormed .memrix hi lo
  | .crbitm hi lo _ => fieldWellFormed .crbitm hi lo
  | .extract _ hi lo => decide (lo ≤ hi) && decide (hi ≤ 31)
  | .sext _ w => decide (1 ≤ w) && decide (w ≤ 64)
  | .shl _ n => decide (n ≤ 63)
  | .ctz value => value != 0
  | .resolve b _ => decide (1 ≤ b) && decide (b ≤ Config.sizes.length)
  | .policy opc => decide (opc < 2 ^ Config.params.opcW)
  | .opsAppend o => operandWellFormed o
  | .opsInsert p o => operandWellFormed o && decide (p < Config.params.maxOps)
  | .matchLeaf _ _ features => risingNat features.disabled
  | .dispatch _ => true
  | .attempt _ => true
  | .assemble => true
  | .decode => true
  | .leaf opcode nfields => decide (opcode < 2 ^ Config.params.opcW) && decide (nfields.toNat ≤ Config.params.maxFields)
  | .fxAddi _ _ _ => true
  | .fxLwz _ _ _ => true
  | .fxLwzu _ _ _ => true
  | .fxStwu _ _ _ => true
  | .fxLdu _ _ _ => true
  | .fxStdu _ _ _ => true
  | .fxMfocrf _ _ _ _ => true
  | .fxFadd _ _ _ _ => true
  | .fxVadd _ _ _ => true
  | .fxOri _ _ _ => true
  | .fxPfadd _ _ _ => true

end Sys2Proof
end

