-- ==== Sys2Proof/Decode.lean ====
section
/-! DEFINITION. The block's three kinds of words and what each stands for: descriptor words (format `FD`), leaf headers
(format `LEAF`) and instruction words (format `W`), with the decoder and, after it, the encoder
(30_encoding.md R60 to R63, R72, R73; 44_matcher_dispatch.md R169; 45_decode_entry.md R181). -/

namespace Sys2Proof

/-- Where a word is read from.  The formats of the three kinds overlap, so a word has a meaning only with its place
(log entry 10): a descriptor or a header of a table's leaf, or the instruction word tried against a fixture table. -/
inductive Space where
  | descriptor
  | header
  | primary
  | extension
  deriving DecidableEq, Repr

/-- Why a word or a byte sequence stands for no operation. -/
inductive DecodeError where
  /-- The descriptor's class code is reserved (30_encoding.md R72). -/
  | reservedClass (code : Nat)
  /-- No leaf of the fixture table matches the word (44_matcher_dispatch.md R160). -/
  | noLeaf
  /-- Fewer than four bytes (45_decode_entry.md R185). -/
  | short
  deriving DecidableEq, Repr

/-! ### Bytes and words -/

/-- `ASSEMBLE` on four bytes (R181): `b0` is the most significant byte in big-endian order, `b3` in little-endian. -/
def assembleWord (bigEndian : Bool) (b0 b1 b2 b3 : Byte) : Word :=
  if bigEndian then BitVec.ofNat 32 (b0.toNat * 2 ^ 24 + b1.toNat * 2 ^ 16 + b2.toNat * 2 ^ 8 + b3.toNat)
  else BitVec.ofNat 32 (b3.toNat * 2 ^ 24 + b2.toNat * 2 ^ 16 + b1.toNat * 2 ^ 8 + b0.toNat)

/-- The four bytes that `assembleWord` makes a word of, the lowest buffer position first. -/
def wordBytes (bigEndian : Bool) (w : Word) : List Byte :=
  let big := [w.extractLsb' 24 8, w.extractLsb' 16 8, w.extractLsb' 8 8, w.extractLsb' 0 8]
  if bigEndian then big else big.reverse

/-! ### The fields of the packed formats -/

/-- `FD[31:27]`, the class code (R61). -/
def fdClass (fd : Word) : BitVec 5 := fd.extractLsb' 27 5
/-- `FD[26:22]`, the field's most significant bit. -/
def fdHi (fd : Word) : BitVec 5 := fd.extractLsb' 22 5
/-- `FD[21:17]`, the field's least significant bit. -/
def fdLo (fd : Word) : BitVec 5 := fd.extractLsb' 17 5
/-- `FD[16:9]`, the field id. -/
def fdId (fd : Word) : BitVec 8 := fd.extractLsb' 9 8

/-- The opcode id of a header: the bits from bit 16 on, `LEAF[31:16]` of a header of 32 bits (R62). -/
def headerOpcode (h : Nat) : OpcId := h / 2 ^ 16
/-- `LEAF[15:12]`, the number of descriptors. -/
def headerNfields (h : Nat) : BitVec 4 := BitVec.ofNat 4 (h / 2 ^ 12)

/-- The opcode id of a leaf. -/
def Leaf.opcode (l : Leaf) : OpcId := headerOpcode l.header
/-- `LEAF.nfields`. -/
def Leaf.nfields (l : Leaf) : Nat := (headerNfields l.header).toNat

/-- The class of a class code; `none` for the reserved codes 0, 14, 15, 18 to 23 and 27 to 31 (R63, R72). -/
def OperandClass.ofCode (code : BitVec 5) : Option OperandClass :=
  match code.toNat with
  | 1 => some (.reg .gpr)
  | 2 => some (.reg .gprz)
  | 3 => some (.reg .g64)
  | 4 => some (.reg .fps)
  | 5 => some (.reg .fpd)
  | 6 => some (.reg .vec)
  | 7 => some (.reg .vsxl)
  | 8 => some (.reg .vsxh)
  | 9 => some (.reg .vsf)
  | 10 => some (.reg .cr)
  | 11 => some (.reg .crb)
  | 12 => some (.reg .pf0)
  | 13 => some (.reg .pf1)
  | 16 => some .uimm
  | 17 => some .simm
  | 24 => some .memri
  | 25 => some .memrix
  | 26 => some .crbitm
  | _ => none

/-- The class code of a class (R63): a register class has its bank's number (R76). -/
def OperandClass.code : OperandClass → BitVec 5
  | .reg b => BitVec.ofNat 5 b.number
  | .uimm => 16
  | .simm => 17
  | .memri => 24
  | .memrix => 25
  | .crbitm => 26

/-! ### The decoder -/

/-- A descriptor word; its bits 8:0 are ignored (R73). -/
def decodeDescriptor (fd : Word) : Option Instr :=
  (OperandClass.ofCode (fdClass fd)).map fun c => Instr.ofField c (fdHi fd) (fdLo fd) (fdId fd)

/-- A leaf header; its bits 11:0 are ignored (R73). -/
def decodeHeader (h : Nat) : Instr := .leaf (headerOpcode h) (headerNfields h)

/-- An instruction word tried against the leaves of `T_REF0` (R169). -/
def decodePrimary (w : Word) : Option Instr :=
  if w &&& 0xFC000000#32 = 0x38000000#32 then
    some (.fxAddi (w.extractLsb' 21 5) (w.extractLsb' 16 5) (w.extractLsb' 0 16))
  else if w &&& 0xFC000000#32 = 0x80000000#32 then
    some (.fxLwz (w.extractLsb' 21 5) (w.extractLsb' 16 5) (w.extractLsb' 0 16))
  else if w &&& 0xFC000000#32 = 0x84000000#32 then
    some (.fxLwzu (w.extractLsb' 21 5) (w.extractLsb' 16 5) (w.extractLsb' 0 16))
  else if w &&& 0xFC000000#32 = 0x94000000#32 then
    some (.fxStwu (w.extractLsb' 21 5) (w.extractLsb' 16 5) (w.extractLsb' 0 16))
  else if w &&& 0xFC000003#32 = 0xE8000001#32 then
    some (.fxLdu (w.extractLsb' 21 5) (w.extractLsb' 16 5) (w.extractLsb' 2 14))
  else if w &&& 0xFC000003#32 = 0xF8000001#32 then
    some (.fxStdu (w.extractLsb' 21 5) (w.extractLsb' 16 5) (w.extractLsb' 2 14))
  else if w &&& 0xFC1007FE#32 = 0x7C100026#32 then
    some (.fxMfocrf (w.extractLsb' 21 5) (w.extractLsb' 12 8) (w.extractLsb' 11 1) (w.extractLsb' 0 1))
  else if w &&& 0xFC0007FE#32 = 0xFC00002A#32 then
    some (.fxFadd (w.extractLsb' 21 5) (w.extractLsb' 16 5) (w.extractLsb' 11 5) (w.extractLsb' 0 1))
  else if w &&& 0xFC0007FF#32 = 0x10000000#32 then
    some (.fxVadd (w.extractLsb' 21 5) (w.extractLsb' 16 5) (w.extractLsb' 11 5))
  else if w &&& 0xFC000000#32 = 0x60000000#32 then
    some (.fxOri (w.extractLsb' 21 5) (w.extractLsb' 16 5) (w.extractLsb' 0 16))
  else none

/-- An instruction word tried against the leaf of `T_REF1` (R169). -/
def decodeExtension (w : Word) : Option Instr :=
  if w &&& 0xFC0007FF#32 = 0x10000000#32 then
    some (.fxPfadd (w.extractLsb' 21 5) (w.extractLsb' 16 5) (w.extractLsb' 11 5))
  else none

/-- The operation a word of a given place stands for, or the reason why it stands for none. -/
def decodeWord (sp : Space) (w : Word) : Except DecodeError Instr :=
  match sp with
  | .descriptor =>
    match decodeDescriptor w with
    | some i => .ok i
    | none => .error (.reservedClass (fdClass w).toNat)
  | .header => .ok (decodeHeader w.toNat)
  | .primary =>
    match decodePrimary w with
    | some i => .ok i
    | none => .error .noLeaf
  | .extension =>
    match decodeExtension w with
    | some i => .ok i
    | none => .error .noLeaf

/-- The same from bytes: total on any list of bytes.  Four bytes are read and the rest is given back (R43, R60). -/
def decodeBytes (bigEndian : Bool) (sp : Space) (bytes : List Byte) : Except DecodeError (Instr × List Byte) :=
  match bytes with
  | b0 :: b1 :: b2 :: b3 :: rest =>
    match decodeWord sp (assembleWord bigEndian b0 b1 b2 b3) with
    | .ok i => .ok (i, rest)
    | .error e => .error e
  | _ => .error .short

/-- The place a bare word is read in where nothing says which (log entry 10): a descriptor when its class code is
assigned, else an instruction word of `T_REF0`, else a leaf header when its reserved bits are 0. -/
def spaceOfBareWord (w : Word) : Option Space :=
  if (decodeDescriptor w).isSome then some .descriptor
  else if (decodePrimary w).isSome then some .primary
  else if w &&& 0x00000FFF#32 = 0#32 then some .header
  else none

/-- The word of a row of the opcode table, its bits above `nbits` 0; every row of the table has 32 bits. -/
def tableWord (nbits w : Nat) : Word := BitVec.ofNat 32 (w % 2 ^ nbits)

/-- The operation the decoder reads from the bits of one row of spec/opcode_table.json. -/
def decodeTableWord (nbits w : Nat) : Option Instr :=
  if nbits = 0 ∨ 32 < nbits then none
  else
    match spaceOfBareWord (tableWord nbits w) with
    | none => none
    | some sp =>
      match decodeWord sp (tableWord nbits w) with
      | .ok i => some i
      | .error _ => none

/-! ### The encoder -/

/-- Format `FD` (R61), the reserved bits 0. -/
def fdWord (c : OperandClass) (hi lo : BitVec 5) (fid : BitVec 8) : Word := c.code ++ hi ++ lo ++ fid ++ 0#9

/-- Format `LEAF` (R62), the reserved bits 0. -/
def headerOf (opcode : OpcId) (nfields : BitVec 4) : Nat := opcode * 2 ^ 16 + nfields.toNat * 2 ^ 12

/-- The header as a word of 32 bits, which has room for an opcode id of 16 bits. -/
def headerWord (opcode : OpcId) (nfields : BitVec 4) : Word := BitVec.ofNat 16 opcode ++ nfields ++ 0#12

def wordAddi (rt ra : BitVec 5) (si : BitVec 16) : Word := 14#6 ++ rt ++ ra ++ si
def wordLwz (rt ra : BitVec 5) (d : BitVec 16) : Word := 32#6 ++ rt ++ ra ++ d
def wordLwzu (rt ra : BitVec 5) (d : BitVec 16) : Word := 33#6 ++ rt ++ ra ++ d
def wordStwu (rs ra : BitVec 5) (d : BitVec 16) : Word := 37#6 ++ rs ++ ra ++ d
def wordLdu (rt ra : BitVec 5) (ds : BitVec 14) : Word := 58#6 ++ rt ++ ra ++ ds ++ 1#2
def wordStdu (rs ra : BitVec 5) (ds : BitVec 14) : Word := 62#6 ++ rs ++ ra ++ ds ++ 1#2
def wordMfocrf (rt : BitVec 5) (fxm : BitVec 8) (bit11 bit0 : BitVec 1) : Word :=
  31#6 ++ rt ++ 1#1 ++ fxm ++ bit11 ++ 19#10 ++ bit0
def wordFadd (frt fra frb : BitVec 5) (bit0 : BitVec 1) : Word := 63#6 ++ frt ++ fra ++ frb ++ 21#10 ++ bit0
def wordVadd (vrt vra vrb : BitVec 5) : Word := 4#6 ++ vrt ++ vra ++ vrb ++ 0#11
def wordOri (rs ra : BitVec 5) (ui : BitVec 16) : Word := 24#6 ++ rs ++ ra ++ ui
def wordPfadd (frt fra frb : BitVec 5) : Word := 4#6 ++ frt ++ fra ++ frb ++ 0#11

/-- The place and the word of an operation; `none` for an internal operation, which has no encoding of its own and is
"invoked by the sequencing rules, not selected by bits" (opcode_table.json), and for a header whose opcode id does not
fit in the 16 bits of format `LEAF`. -/
def encode : Instr → Option (Space × Word)
  | .gpr hi lo fid => some (.descriptor, fdWord (.reg .gpr) hi lo fid)
  | .gprz hi lo fid => some (.descriptor, fdWord (.reg .gprz) hi lo fid)
  | .g64 hi lo fid => some (.descriptor, fdWord (.reg .g64) hi lo fid)
  | .fps hi lo fid => some (.descriptor, fdWord (.reg .fps) hi lo fid)
  | .fpd hi lo fid => some (.descriptor, fdWord (.reg .fpd) hi lo fid)
  | .vec hi lo fid => some (.descriptor, fdWord (.reg .vec) hi lo fid)
  | .vsxl hi lo fid => some (.descriptor, fdWord (.reg .vsxl) hi lo fid)
  | .vsxh hi lo fid => some (.descriptor, fdWord (.reg .vsxh) hi lo fid)
  | .vsf hi lo fid => some (.descriptor, fdWord (.reg .vsf) hi lo fid)
  | .cr hi lo fid => some (.descriptor, fdWord (.reg .cr) hi lo fid)
  | .crb hi lo fid => some (.descriptor, fdWord (.reg .crb) hi lo fid)
  | .pf0 hi lo fid => some (.descriptor, fdWord (.reg .pf0) hi lo fid)
  | .pf1 hi lo fid => some (.descriptor, fdWord (.reg .pf1) hi lo fid)
  | .uimm hi lo fid => some (.descriptor, fdWord .uimm hi lo fid)
  | .simm hi lo fid => some (.descriptor, fdWord .simm hi lo fid)
  | .memri hi lo fid => some (.descriptor, fdWord .memri hi lo fid)
  | .memrix hi lo fid => some (.descriptor, fdWord .memrix hi lo fid)
  | .crbitm hi lo fid => some (.descriptor, fdWord .crbitm hi lo fid)
  | .extract _ _ _ => none
  | .sext _ _ => none
  | .shl _ _ => none
  | .ctz _ => none
  | .resolve _ _ => none
  | .policy _ => none
  | .opsAppend _ => none
  | .opsInsert _ _ => none
  | .matchLeaf _ _ _ => none
  | .dispatch _ => none
  | .attempt _ => none
  | .assemble => none
  | .decode => none
  | .leaf opcode nfields => if opcode < 2 ^ 16 then some (.header, headerWord opcode nfields) else none
  | .fxAddi rt ra si => some (.primary, wordAddi rt ra si)
  | .fxLwz rt ra d => some (.primary, wordLwz rt ra d)
  | .fxLwzu rt ra d => some (.primary, wordLwzu rt ra d)
  | .fxStwu rs ra d => some (.primary, wordStwu rs ra d)
  | .fxLdu rt ra ds => some (.primary, wordLdu rt ra ds)
  | .fxStdu rs ra ds => some (.primary, wordStdu rs ra ds)
  | .fxMfocrf rt fxm bit11 bit0 => some (.primary, wordMfocrf rt fxm bit11 bit0)
  | .fxFadd frt fra frb bit0 => some (.primary, wordFadd frt fra frb bit0)
  | .fxVadd vrt vra vrb => some (.primary, wordVadd vrt vra vrb)
  | .fxOri rs ra ui => some (.primary, wordOri rs ra ui)
  | .fxPfadd frt fra frb => some (.extension, wordPfadd frt fra frb)

end Sys2Proof
end

