-- ==== Sys2Proof/Machine/Memory.lean ====
section
/-! DEFINITION. The input byte buffer `BUF` as memory: a list of (position, byte) pairs in one canonical form
(10_state.md R11; 20_memory.md R40, R41).  It is the block's only byte-addressed space; the block never writes it, the
host does between calls. -/

namespace Sys2Proof.Machine

/-- The bytes of `BUF`, positions strictly rising, no listed byte equal to the unlisted one. -/
abbrev Memory := List Host.Cell

/-- What an unlisted position reads as (log entry 16). -/
def Memory.unlisted : Byte := 0#8

/-- Every listed position is above `low`, and the positions rise. -/
def Memory.risingFrom : Nat → Memory → Bool
  | _, [] => true
  | low, (a, _) :: rest => decide (low ≤ a) && Memory.risingFrom (a + 1) rest

/-- The canonical form. -/
def Memory.wf (m : Memory) : Bool := Memory.risingFrom 0 m && m.all fun c => c.2 != Memory.unlisted

/-- The byte at a position. -/
def Memory.read (m : Memory) (a : Nat) : Byte :=
  match m with
  | [] => Memory.unlisted
  | (k, v) :: rest => if k = a then v else Memory.read rest a

/-- The byte at a position taken out of the list. -/
def Memory.erase (m : Memory) (a : Nat) : Memory :=
  match m with
  | [] => []
  | (k, v) :: rest => if k = a then rest else (k, v) :: Memory.erase rest a

/-- A byte put at its place in the list. -/
def Memory.insert (m : Memory) (a : Nat) (v : Byte) : Memory :=
  match m with
  | [] => [(a, v)]
  | (k, u) :: rest =>
    if a < k then (a, v) :: (k, u) :: rest
    else if a = k then (a, v) :: rest
    else (k, u) :: Memory.insert rest a v

/-- The host writes one byte; the unlisted value takes the entry out, so that equal buffers are equal lists. -/
def Memory.write (m : Memory) (a : Nat) (v : Byte) : Memory :=
  if v = Memory.unlisted then Memory.erase m a else Memory.insert m a v

/-- Consecutive bytes from a position on. -/
def Memory.writeBytes (m : Memory) (a : Nat) : List Byte → Memory
  | [] => m
  | v :: rest => Memory.writeBytes (Memory.write m a v) (a + 1) rest

end Sys2Proof.Machine
end

