-- ==== Sys2Proof/Machine/Roms.lean ====
section
/-! DEFINITION. The read-only memories of a build: the bank tables by number, what their contents are held to
(41_register_translator.md R101, R118), and the contents after reset (10_state.md R26). -/

namespace Sys2Proof.Machine

/-- The table of a bank number (30_encoding.md R76); a number that names no bank has no entries. -/
def numberedTable (rom : BankRom) : Nat → List RegId
  | 0 => []
  | k + 1 => rom.getD k []

/-- The table of one of the thirteen banks that an operand class names. -/
def bankTable (rom : BankRom) (b : Bank) : List RegId := numberedTable rom b.number

/-- What the contents of the bank tables are held to.  R101 c: the registers that a bank's indices name are different
registers, so no identifier stands in a bank twice; whether two banks share identifiers is left open.  R101 d: `GPRZ` and
`GPR` name the same registers but at index 0, where `GPRZ` has the literal zero constant, which is no register of `GPR`.
R118: an identifier has `REGID_W` bits and is not 0, "no register". -/
abbrev BankContract (p : Params) (rom : BankRom) : Prop :=
  (bankTable rom .gprz).length = (bankTable rom .gpr).length ∧ (bankTable rom .gprz).tail = (bankTable rom .gpr).tail ∧
    (∀ z ∈ (bankTable rom .gprz).take 1, z ∉ bankTable rom .gpr) ∧
    ∀ bank ∈ rom, bank.Nodup ∧ ∀ r ∈ bank, r ≠ 0 ∧ r < 2 ^ p.regIdW

/-- The contents of the bank tables: the free constant's wherever that meets the contract with the sizes of R100, so they
may be any that do, and no other (log entry 5). -/
def bankSource : BankRom :=
  if BankContract Config.params Config.bankRom ∧ Config.bankRom.map List.length = Config.sizes then Config.bankRom
  else Fixtures.bankRef

/-- The bank tables after reset, written out so that their number and sizes are seen whatever the contents are. -/
def resetBankRom : BankRom :=
  (List.range Config.sizes.length).map fun k =>
    (List.range (Config.sizes.getD k 0)).map fun i => (bankSource.getD k []).getD i 0

/-- A decode table after reset: the rows of the free constant whose opcode id has `OPC_W` bits (R62). -/
def resetTable (t : Nat) : List TableRow :=
  (Config.table t).filter fun row => row.leaf.opcode < 2 ^ Config.params.opcW

/-- `POLICY_ROM` after reset: the entries of the free constant whose opcode id has `OPC_W` bits (20_memory.md R40). -/
def resetPolicyRom : List (OpcId × BitVec 2) := Config.policyRom.filter fun e => e.1 < 2 ^ Config.params.opcW

end Sys2Proof.Machine
end

