-- ==== Sys2Proof/Machine/State.lean ====
section
/-! DEFINITION. The state of one decode unit as plain data (10_state.md R10 to R27): the inputs as the host drives them,
what the build fixes, the inputs as a call has sampled them, working state, response outputs, and the model's own
bookkeeping, which is no state of the block. -/

namespace Sys2Proof.Machine

/-- The `CHECK` switch (R12, 60_exceptions.md R205). -/
inductive CheckMode where
  /-- Code 0: table-supplied invariants are trusted. -/
  | trust
  /-- Code 1: they are checked and fail closed. -/
  | failClosed
  deriving DecidableEq, Repr

/-- The status of a call (30_encoding.md R70): code 0 is `Fail`, code 1 is `Success`. -/
inductive Status where
  | fail
  | success
  deriving DecidableEq, Repr

/-- The update policy of an opcode id (43_composite_resolvers.md R140). -/
inductive Policy where
  | none
  | tiedOut
  | tiedStore
  deriving DecidableEq, Repr

/-- The internal failure causes, never an output (60_exceptions.md R201 to R203). -/
inductive Cause where
  | short
  | noMatch
  | field
  | index
  | onehot
  | base0
  | position
  | capacity
  deriving DecidableEq, Repr

/-- The instruction record (10_state.md R15): `REC.n` is the length of `ops`; slots from there on are empty. -/
structure Record where
  opcode : OpcId
  ops : List Operand
  len : BitVec 3
  deriving DecidableEq, Repr

/-- `REC.n`. -/
def Record.n (r : Record) : Nat := r.ops.length

/-- The empty record: `n = 0`, `len = 0`, `opcode = 0` (R19).  It is also the fresh record of an attempt
(44_matcher_dispatch.md R163), whose opcode is not yet valid and is written before it is read (log entry 17). -/
def Record.empty : Record := ⟨0, [], 0#3⟩

/-- The configuration inputs (R12). -/
structure Configuration where
  /-- `MODE.ENDIAN`: true is 1, big-endian. -/
  bigEndian : Bool
  /-- `MODE.EXT[k]` for `k` = 1 to `NEXT`, the first element being `k` = 1. -/
  ext : List Bool
  features : FeatureSet
  check : CheckMode
  chkBase0 : Bool
  deriving DecidableEq, Repr

/-- What the build fixes and nothing writes: its parameters (00_scope.md R5) and the read-only memories (R20 to R22). -/
structure Roms where
  params : Params
  /-- `TABLE[0]`, the primary table, then `TABLE[1]` to `TABLE[NEXT]`. -/
  tables : List (List TableRow)
  bank : BankRom
  /-- `POLICY_ROM`: opcode id and policy code; an id that is not listed has code 0, `NONE` (20_memory.md R49). -/
  policy : List (OpcId × BitVec 2)
  deriving DecidableEq, Repr

/-- The input ports as the host drives them: the configuration (R12) and the bytes, their number and the address (R11). -/
structure Inputs where
  cfg : Configuration
  buf : Memory
  avail : Nat
  addr : U64
  deriving DecidableEq, Repr

/-- A request: `REQ` asserted and not yet taken, and the bytes, their number and the address that were sampled when it was
asserted (45_decode_entry.md R187). -/
structure Request where
  req : Bool
  buf : Memory
  avail : Nat
  addr : U64
  deriving DecidableEq, Repr

/-- Where the sequencing of a call stands (R17): between calls, before the match of table `TIDX`, or at the field
`FIDX` of the matched leaf. -/
inductive Phase where
  | idle
  | matching
  | resolving
  deriving DecidableEq, Repr

/-- The working state of a call (R13 to R17). -/
structure Work where
  word : Word
  raw : U64
  leaf : Leaf
  record : Record
  tidx : Nat
  fidx : Nat
  /-- The tables of `ORDER` still to be tried after `TIDX` (45_decode_entry.md R182). -/
  order : List Nat
  phase : Phase
  deriving DecidableEq, Repr

/-- The response outputs (R19) and the port `RSP` (R187). -/
structure Response where
  rsp : Bool
  status : Status
  outRec : Record
  consumed : BitVec 3
  deriving DecidableEq, Repr

/-- How much of a call one step of the machine runs (log entry 1): the whole call, which is one indivisible step to
every observer (R8, R25), or one move of the cursors `(TIDX, FIDX)` (R17). -/
inductive Grain where
  | call
  | cursor
  deriving DecidableEq, Repr

/-- What the last internal operation returned (log entry 8): a value of a primitive, a register identifier, a policy,
a matcher's answer, an attempt's outcome. -/
inductive OpResult where
  | nothing
  | bits (v : U64)
  | register (r : RegId)
  | policy (p : Policy)
  | leaf (m : Option Leaf)
  | attempt (r : Option Record)
  deriving DecidableEq, Repr

/-- The model's own fields: no rule of the block reads them and none is an output. -/
structure Aux where
  grain : Grain
  result : OpResult
  /-- The cause of the last `AttemptFail` (60_exceptions.md R201, R203; log entry 9). -/
  attemptCause : Option Cause
  /-- The cause of the last `CallFail` (R202, R203; log entry 9). -/
  callCause : Option Cause
  deriving DecidableEq, Repr

structure State where
  /-- The input ports, which the host drives (R11, R12). -/
  inputs : Inputs
  /-- The configuration as sampled when `REQ` was asserted, "constant for the whole call" (R12, R187). -/
  cfg : Configuration
  roms : Roms
  request : Request
  work : Work
  response : Response
  aux : Aux
  deriving DecidableEq, Repr

/-- No fault exists: "No error is ever fatal to the process; malformed input simply yields Fail" (60_exceptions.md R209;
log entry 24).  Every failure of an attempt or of a call is a next state.  Safe: nothing stops the machine here. -/
inductive Fault
  deriving DecidableEq, Repr

/-- The outcome `Refused` (00_scope.md R9): the request violates a contract that the source does not give a meaning and
`CHECK = TRUST` is selected.  Each is safe: the model makes no claim where the source makes none. -/
inductive Refusal where
  /-- Raised by exec's arm of an operation that has no meaning yet.  Safe: the machine stops. -/
  | notModelled (mnemonic : String)
  /-- Raised by `RESOLVE`, and by a match in a table that does not exist: a read outside a ROM's range under `TRUST`
  (93_implementation_defined.md U1).  Safe. -/
  | indexRange
  /-- Raised by a primitive or a descriptor outside its domain under `TRUST` (U2).  Safe. -/
  | fieldRange
  /-- Raised by a reserved class code, policy code or field count under `TRUST` (U3).  Safe. -/
  | reservedCode
  /-- Raised by `CRBITM` and `CTZ` for a mask with no position in 0 to 7 under `TRUST` (U4).  Safe. -/
  | maskPosition
  /-- Raised by a `TIED_STORE` opcode whose memory field is not reached with exactly one operand, and by an insertion
  beyond the end of the list, under `TRUST` (U8).  Safe. -/
  | tiedPosition
  /-- Raised by the operand list when it is full under `TRUST` (U9).  Safe. -/
  | listFull
  /-- Raised by a step that finds `REQ` asserted during a call, and by the host's request while a call is asked for or
  runs, whatever `CHECK` is (U7).  Safe. -/
  | requestDuringCall
  /-- Raised by the host's writing of the configuration while a call is asked for or runs (70_reset_and_hazards.md R240).
  Safe. -/
  | inputDuringCall
  deriving DecidableEq, Repr

/-- The three ends of an operation inside an attempt: a value, `AttemptFail(cause)` (60_exceptions.md R201), or no
meaning (00_scope.md R9). -/
inductive Res (α : Type) where
  | ok (a : α)
  | fail (c : Cause)
  | refuse (r : Refusal)
  deriving DecidableEq, Repr

/-- What an attempt leaves when it succeeds: the leaf, the last raw field and the record (R163). -/
structure AttemptEnd where
  leaf : Leaf
  raw : U64
  record : Record
  deriving DecidableEq, Repr

/-- The ends of the run over `ORDER` (45_decode_entry.md R180): table `t` succeeded, all failed (the last table and its
cause), or no meaning. -/
inductive CallEnd where
  | done (t : Nat) (e : AttemptEnd)
  | failed (t : Nat) (c : Cause)
  | refused (r : Refusal)
  deriving DecidableEq, Repr

/-- The configuration after power-on (R26): `FEATURES` all ones, `CHECK` = `FAIL_CLOSED`, `CHK_BASE0` = 0; `MODE` is
unspecified (log entry 2). -/
def Configuration.reset : Configuration where
  bigEndian := false
  ext := List.replicate Config.next false
  features := FeatureSet.all
  check := .failClosed
  chkBase0 := false

/-- The state after power-on (10_state.md R26; 70_reset_and_hazards.md R230).  The spec's values: the response of a failed
call, `FEATURES`, `CHECK` and `CHK_BASE0`, the ROMs at their fixed contents.  The model's values, where the spec gives none:
`MODE` (log entry 2), the working state (log entry 3), the other inputs, what is sampled of them, and the ports (log
entry 4), the ROM contents (log entry 5), the model's own fields (log entries 1, 8, 9). -/
def State.reset : State where
  inputs := { cfg := Configuration.reset, buf := [], avail := 0, addr := 0#64 }
  cfg := Configuration.reset
  roms := {
    params := Config.params
    tables := (List.range (Config.next + 1)).map resetTable
    bank := resetBankRom
    policy := resetPolicyRom }
  request := { req := false, buf := [], avail := 0, addr := 0#64 }
  work := {
    word := 0#32
    raw := 0#64
    leaf := ⟨0, []⟩
    record := Record.empty
    tidx := 0
    fidx := 0
    order := []
    phase := .idle }
  response := { rsp := false, status := .fail, outRec := Record.empty, consumed := 0#3 }
  aux := { grain := .call, result := .nothing, attemptCause := none, callCause := none }

end Sys2Proof.Machine
end

