-- ==== Sys2Proof/Machine/Ops.lean ====
section
/-! DEFINITION. The shared operations: the bitfield extractor primitives, the reads of the ROMs, the operand list, the
failure of an attempt and of a call, and the publication of a success. -/

namespace Sys2Proof.Machine

/-! ### Outcomes inside an attempt -/

/-- A contract violation (60_exceptions.md R205): under `FAIL_CLOSED` it fails the attempt, under `TRUST` the source
gives it no meaning. -/
def violation {α : Type} (check : CheckMode) (c : Cause) (r : Refusal) : Res α :=
  match check with
  | .failClosed => .fail c
  | .trust => .refuse r

def Res.bind {α β : Type} (x : Res α) (f : α → Res β) : Res β :=
  match x with
  | .ok a => f a
  | .fail c => .fail c
  | .refuse r => .refuse r

def Res.map {α β : Type} (f : α → β) (x : Res α) : Res β :=
  match x with
  | .ok a => .ok (f a)
  | .fail c => .fail c
  | .refuse r => .refuse r

/-! ### 40_bitfield_extractor.md -/

/-- `EXTRACT(word, hi, lo)` (R90) on its domain `lo ≤ hi ≤ 31`. -/
def extract (word : Word) (hi lo : Nat) : U64 := BitVec.ofNat 64 ((word.toNat >>> lo) % 2 ^ (hi - lo + 1))

/-- `SEXT(value, w)` (R91) on its domain `1 ≤ w ≤ 64`. -/
def sext (value : U64) (w : Nat) : U64 :=
  let low := value.toNat % 2 ^ w
  if value.getLsbD (w - 1) then BitVec.ofNat 64 (low + (2 ^ 64 - 2 ^ w)) else BitVec.ofNat 64 low

/-- `SHL(value, n)` (R92) on its domain `n ≤ 63`. -/
def shl (value : U64) (n : Nat) : U64 := BitVec.ofNat 64 (value.toNat * 2 ^ n)

/-- `CTZ(value)` (R93): the least position with a 1 bit; none for 0, which has no count. -/
def ctz (value : U64) : Option Nat := (List.range 64).find? fun i => value.getLsbD i

/-! ### The ROMs -/

/-- `RESOLVE(b, i)` for the bank number `b` (41_register_translator.md R102, R103).  DESIGN CHOICE (log entry 14): a number that
names no bank of the build, for which R102 has no read, is an index violation as well. -/
def resolve (check : CheckMode) (rom : BankRom) (b i : Nat) : Res RegId :=
  match (numberedTable rom b)[i]? with
  | some r => .ok r
  | none => violation check .index .indexRange

/-- The entry of `POLICY_ROM`: total over opcode ids, `NONE` for an id that is not listed (20_memory.md R49).  DESIGN CHOICE (log
entry 14): a number of more than `OPC_W` bits is no opcode id and the spec has no read for it (R41); it is answered in the same
way, by its entry if one is listed and else `NONE`. -/
def policyCode (rom : List (OpcId × BitVec 2)) (opc : OpcId) : BitVec 2 :=
  match rom with
  | [] => 0#2
  | (k, code) :: rest => if k = opc then code else policyCode rest opc

/-- `POLICY(opc)` (43_composite_resolvers.md R140); code 3 is a contract violation (30_encoding.md R69, R72). -/
def policyOf (check : CheckMode) (rom : List (OpcId × BitVec 2)) (opc : OpcId) : Res Policy :=
  match (policyCode rom opc).toNat with
  | 0 => .ok .none
  | 1 => .ok .tiedOut
  | 2 => .ok .tiedStore
  | _ => violation check .field .reservedCode

/-- Whether a row of a table answers for a word under a feature set. -/
def rowApplies (word : Word) (features : FeatureSet) (row : TableRow) : Bool :=
  word &&& row.mask == row.value && row.features.all fun p => features.enabled p.1 == p.2

/-- `TABLE[t](word, features)` (44_matcher_dispatch.md R160): the leaf of the first row that applies. -/
def matchRows (rows : List TableRow) (word : Word) (features : FeatureSet) : Option Leaf :=
  (rows.find? (rowApplies word features)).map (·.leaf)

/-! ### 20_memory.md: the operand list -/

/-- `OPS_APPEND(o)` (R47, R56). -/
def opsAppend (p : Params) (check : CheckMode) (o : Operand) (rec : Record) : Res Record :=
  if p.maxOps ≤ rec.n then violation check .capacity .listFull
  else .ok { rec with ops := rec.ops ++ [o] }

/-- `OPS_INSERT(k, o)` (R48, R56; 43_composite_resolvers.md R146). -/
def opsInsert (p : Params) (check : CheckMode) (k : Nat) (o : Operand) (rec : Record) : Res Record :=
  if p.maxOps ≤ rec.n then violation check .capacity .listFull
  else if rec.n < k then violation check .position .tiedPosition
  else .ok { rec with ops := rec.ops.take k ++ o :: rec.ops.drop k }

/-! ### The input buffer -/

/-- The byte `BUF[i]`, defined for `i < AVAIL` (20_memory.md R41). -/
def Request.byte (q : Request) (i : Nat) : Option Byte := if i < q.avail then some (q.buf.read i) else none

/-- `ASSEMBLE(BUF, MODE.ENDIAN)` (45_decode_entry.md R181), which is called with `AVAIL ≥ 4` only. -/
def assembled (cfg : Configuration) (q : Request) : Word :=
  assembleWord cfg.bigEndian (q.buf.read 0) (q.buf.read 1) (q.buf.read 2) (q.buf.read 3)

/-! ### Failing and ending (60_exceptions.md R201, R202, R207; 45_decode_entry.md R183, R184) -/

/-- The response of a failed call (R184): no detail of the cause. -/
def failResponse : Response := { rsp := true, status := .fail, outRec := Record.empty, consumed := 0#3 }

/-- The response of a successful call (R183): the record with its length written, and the length consumed. -/
def successResponse (rec : Record) : Response :=
  { rsp := true, status := .success, outRec := { rec with len := 4#3 }, consumed := 4#3 }

/-- `raise CallFail(cause)` (R202): the call ends with the failure response and the record is discarded. -/
def callFail (c : Cause) (s : State) : State :=
  { s with
    work := { s.work with record := Record.empty, fidx := 0, order := [], phase := .idle }
    response := failResponse
    aux := { s.aux with callCause := some c } }

/-- `raise AttemptFail(cause)` (R201, R207): the record is discarded in full and the next table of `ORDER` is tried; with
none left the call fails.  This is the block's whole taking of an exception: no pc, status or mode is saved and there is no
handler; and there is no return from one, "nothing to restore" (R208). -/
def attemptFail (c : Cause) (s : State) : State :=
  match s.work.order with
  | [] => callFail .noMatch { s with aux := { s.aux with attemptCause := some c } }
  | t :: rest =>
    { s with
      work := { s.work with record := Record.empty, fidx := 0, tidx := t, order := rest, phase := .matching }
      aux := { s.aux with attemptCause := some c } }

/-- The end of a call with success (R183): the record's length is written and everything is published at once. -/
def callSuccess (s : State) : State :=
  { s with
    work := { s.work with record := { s.work.record with len := 4#3 }, order := [], phase := .idle }
    response := successResponse s.work.record
    aux := { s.aux with attemptCause := none, callCause := none } }

/-- The first step of a call takes the request.  45_decode_entry.md R187 says that the host asserts `REQ` and that `RSP` is
asserted when the response is valid; who lowers `REQ` and when, and when `RSP` falls, it does not say.  DESIGN CHOICE (log
entry 25): the block clears `REQ` here, so that one assertion gives exactly one call, and `RSP` is low from the request on. -/
def accept (s : State) : State :=
  { s with
    request := { s.request with req := false }
    response := { s.response with rsp := false }
    aux := { s.aux with attemptCause := none, callCause := none } }

/-- The end of one operation run by itself: it completes, it fails the current attempt, or it has no meaning. -/
def finish {α : Type} (x : Res α) (s : State) (k : α → State) : Host.Outcome State Fault Refusal :=
  match x with
  | .ok a => .next (k a)
  | .fail c => .next (attemptFail c s)
  | .refuse r => .refused r

/-- The state with the value an internal operation returned. -/
def State.withResult (s : State) (v : OpResult) : State := { s with aux := { s.aux with result := v } }

/-- The state with a new record under construction. -/
def State.withRecord (s : State) (rec : Record) : State := { s with work := { s.work with record := rec } }

/-- `ORDER` (45_decode_entry.md R182): the active extension tables in ascending number, then the primary table. -/
def tableOrder (ext : List Bool) : List Nat :=
  ((List.range ext.length).filter fun k => ext.getD k false).map (· + 1) ++ [0]

end Sys2Proof.Machine
end

