-- ==== Sys2Proof/Machine/Flags.lean ====
section
/-! DEFINITION. The block has no flags, condition codes or predicates of its own (10_state.md R23); its only status is
`STATUS`.  This file holds the codes of the outputs and causes (30_encoding.md R66, R67, R70; 60_exceptions.md R201, R202),
the output port (45_decode_entry.md R187), and the one test on a mask that a resolver makes (43_composite_resolvers.md R150). -/

namespace Sys2Proof.Machine

/-- `onehot8(v)` (R150): `v < 256` and `v` is a power of two. -/
def onehot8 (v : U64) : Bool := (List.range 8).any fun i => v.toNat == 2 ^ i

/-- `STATUS` (R70). -/
def Status.code : Status → BitVec 1
  | .fail => 0
  | .success => 1

/-- `CHECK` (10_state.md R12). -/
def CheckMode.code : CheckMode → BitVec 1
  | .trust => 0
  | .failClosed => 1

/-- The policy codes (30_encoding.md R69). -/
def Policy.code : Policy → BitVec 2
  | .none => 0
  | .tiedOut => 1
  | .tiedStore => 2

/-- The internal cause codes (R201, R202). -/
def Cause.code : Cause → Nat
  | .short => 1
  | .noMatch => 2
  | .field => 3
  | .index => 4
  | .onehot => 5
  | .base0 => 6
  | .position => 7
  | .capacity => 8

/-- A slot of the output port in format `OP` (R66): tag and payload. -/
abbrev Slot := BitVec 2 × U64

/-- The slot that is not filled: tag `EMPTY`, payload 0. -/
def Slot.empty : Slot := (0#2, 0#64)

/-- A filled slot: a register's payload is its identifier, zero-extended, an immediate's is its pattern. -/
def Operand.slot : Operand → Slot
  | .reg r => (1#2, BitVec.ofNat 64 r)
  | .imm v => (2#2, v)

/-- The width of the port's operand count, which runs from 0 to `MAXOPS`: 4 bits where that is 8 (R67). -/
def countWidth (p : Params) : Nat := Nat.log2 p.maxOps + 1

/-- The response as the output ports carry it (R67, R187). -/
structure OutPort (p : Params) where
  rsp : BitVec 1
  status : BitVec 1
  consumed : BitVec 3
  opcode : BitVec p.opcW
  n : BitVec (countWidth p)
  len : BitVec 3
  slots : List Slot
  deriving DecidableEq, Repr

/-- The operand slots of a record: the filled ones, then `EMPTY` up to `MAXOPS`. -/
def Record.slots (p : Params) (r : Record) : List Slot :=
  (List.range p.maxOps).map fun i =>
    match r.ops[i]? with
    | some o => Operand.slot o
    | none => Slot.empty

/-- The output ports of a response. -/
def Response.port (p : Params) (r : Response) : OutPort p where
  rsp := if r.rsp then 1 else 0
  status := r.status.code
  consumed := r.consumed
  opcode := BitVec.ofNat p.opcW r.outRec.opcode
  n := BitVec.ofNat (countWidth p) r.outRec.n
  len := r.outRec.len
  slots := r.outRec.slots p

/-- The width of the port `OUT_REC`: 551 bits at the defaults (R67, R187). -/
def recordWidth (p : Params) : Nat := p.opcW + countWidth p + 3 + p.maxOps * 66

end Sys2Proof.Machine
end

