-- ==== Sys2Proof/Machine/Operands.lean ====
section
/-! DEFINITION. The operand resolvers, each from (record, raw field, opcode, address) to a new record
(42_simple_resolvers.md R120 to R136; 43_composite_resolvers.md R140 to R152), and their choice by operand class
(44_matcher_dispatch.md R164). -/

namespace Sys2Proof.Machine

/-- What the operations of an attempt read: the sampled configuration, the parameters and ROMs, and the address, which no
resolver uses (R135). -/
structure Env where
  cfg : Configuration
  roms : Roms
  addr : U64
  deriving DecidableEq, Repr

/-- The configuration, ROMs and address of a state. -/
def State.env (s : State) : Env := ⟨s.cfg, s.roms, s.request.addr⟩

/-- `RES_REG(b)`: the identifier of the bank's register is appended (42_simple_resolvers.md section 2). -/
def resReg (e : Env) (b : Bank) (raw : U64) (rec : Record) : Res Record :=
  (resolve e.cfg.check e.roms.bank b.number raw.toNat).bind fun r => opsAppend e.roms.params e.cfg.check (.reg r) rec

/-- `RES_UIMM` (R133): the raw field, already zero-extended. -/
def resUimm (e : Env) (raw : U64) (rec : Record) : Res Record := opsAppend e.roms.params e.cfg.check (.imm raw) rec

/-- `RES_SIMM` (R134): the raw field sign-extended from the field's declared width; a range that is none gives `SEXT` no
width (40_bitfield_extractor.md R95). -/
def resSimm (e : Env) (hi lo : BitVec 5) (raw : U64) (rec : Record) : Res Record :=
  if hi < lo then violation e.cfg.check .field .fieldRange
  else opsAppend e.roms.params e.cfg.check (.imm (sext raw (hi.toNat - lo.toNat + 1))) rec

/-- The conditional tied operand, step (1) of `RES_MEM` (R145, R146). -/
def insertTied (e : Env) (pol : Policy) (r : RegId) (rec : Record) : Res Record :=
  match pol with
  | .none => .ok rec
  | .tiedOut => opsInsert e.roms.params e.cfg.check Config.tiedLoadPos (.reg r) rec
  | .tiedStore =>
    if rec.n ≠ e.roms.params.tiedStorePos then violation e.cfg.check .position .tiedPosition
    else opsInsert e.roms.params e.cfg.check e.roms.params.tiedStorePos (.reg r) rec

/-- The base index of a packed memory field: every bit above the displacement (30_encoding.md R64, R65). -/
def memBase (dw : Nat) (raw : U64) : Nat := raw.toNat >>> dw

/-- The displacement operand of a packed memory field: scaled, then extended from bit 15 (30_encoding.md R71). -/
def memDisp (dw sc : Nat) (raw : U64) : U64 := sext (shl (BitVec.ofNat 64 (raw.toNat % 2 ^ dw)) sc) 16

/-- `RES_MEM(dw, sc)` (43_composite_resolvers.md section 2): the causes in the order of 60_exceptions.md R206, then the
tied operand, the displacement and the plain base, in this order. -/
def resMem (dw sc : Nat) (e : Env) (raw : U64) (rec : Record) : Res Record :=
  (resolve e.cfg.check e.roms.bank Bank.gprz.number (memBase dw raw)).bind fun r =>
  (policyOf e.cfg.check e.roms.policy rec.opcode).bind fun pol =>
  if pol ≠ .none ∧ e.cfg.chkBase0 = true ∧ memBase dw raw = 0 then .fail .base0
  else
    (insertTied e pol r rec).bind fun rec1 =>
    (opsAppend e.roms.params e.cfg.check (.imm (memDisp dw sc raw)) rec1).bind fun rec2 =>
    opsAppend e.roms.params e.cfg.check (.reg r) rec2

/-- The condition group that a mask selects (R150, R151): under `FAIL_CLOSED` a one-hot mask of 8 bits only, under
`TRUST` the lowest set bit decides; a mask with no position in 0 to 7 selects none. -/
def crGroup (check : CheckMode) (mask : U64) : Res Nat :=
  if mask = 0#64 then violation check .onehot .maskPosition
  else if check = .failClosed ∧ onehot8 mask = false then .fail .onehot
  else
    match ctz mask with
    | some p => if p ≤ 7 then .ok (7 - p) else violation check .onehot .maskPosition
    | none => violation check .onehot .maskPosition

/-- `RES_CRBITM` (R150, R152): the register of bank `CR` for the mask's group. -/
def resCrbitm (e : Env) (raw : U64) (rec : Record) : Res Record :=
  (crGroup e.cfg.check raw).bind fun g =>
  (resolve e.cfg.check e.roms.bank Bank.cr.number g).bind fun r => opsAppend e.roms.params e.cfg.check (.reg r) rec

/-- The resolver of an operand class (R164), with the signature of R135: the record, the raw field, the opcode
(`rec.opcode`) and the address (`e.addr`), and the bit range for the width of `SIMM` (D21). -/
def resolveClass (e : Env) (c : OperandClass) (hi lo : BitVec 5) (raw : U64) (rec : Record) : Res Record :=
  match c with
  | .reg b => resReg e b raw rec
  | .uimm => resUimm e raw rec
  | .simm => resSimm e hi lo raw rec
  | .memri => resMem 16 0 e raw rec
  | .memrix => resMem 14 2 e raw rec
  | .crbitm => resCrbitm e raw rec

/-- The raw field and the record after it (44_matcher_dispatch.md R163, the body of the loop): the range check of R165,
the extraction, the resolver. -/
def fieldStep (e : Env) (word : Word) (c : OperandClass) (hi lo : BitVec 5) (rec : Record) : Res (U64 × Record) :=
  if hi < lo then violation e.cfg.check .field .fieldRange
  else
    (resolveClass e c hi lo (extract word hi.toNat lo.toNat) rec).map fun rec' =>
      (extract word hi.toNat lo.toNat, rec')

/-- The same from the descriptor word: a reserved class code is a violation (R72, R165). -/
def descriptorStep (e : Env) (word fd : Word) (rec : Record) : Res (U64 × Record) :=
  match OperandClass.ofCode (fdClass fd) with
  | some c => fieldStep e word c (fdHi fd) (fdLo fd) rec
  | none => violation e.cfg.check .field .reservedCode

end Sys2Proof.Machine
end

