-- ==== Sys2Proof/Machine/Attempt.lean ====
section
/-! DEFINITION. The attempt against one table and the run over the tables of a call, as functions of the environment
(44_matcher_dispatch.md R160 to R168; 45_decode_entry.md R180 to R184; 10_state.md R24). -/

namespace Sys2Proof.Machine

/-- `LEAF.fd[k]`.  A leaf that stores fewer words than its header counts yields the zero word, which is no valid
descriptor (D3; log entry 18). -/
def descriptorAt (l : Leaf) (k : Nat) : Word := l.fds.getD k 0#32

/-- The descriptor words of a leaf in table-declared order. -/
def leafFields (l : Leaf) : List Word := (List.range l.nfields).map (descriptorAt l)

/-- The record an attempt starts its fields with: fresh, the opcode written (R163, R167). -/
def freshRecord (opcode : OpcId) : Record := ⟨opcode, [], 0#3⟩

/-- `MATCH` as `ATTEMPT` uses it: no leaf is the cause `F_NOMATCH`; a table number above `NEXT` names no table
(log entry 14). -/
def lookupLeaf (e : Env) (word : Word) (t : Nat) : Res Leaf :=
  match e.roms.tables[t]? with
  | none => violation e.cfg.check .index .indexRange
  | some rows =>
    match matchRows rows word e.cfg.features with
    | some l => .ok l
    | none => .fail .noMatch

/-- The fields of a leaf, one after the other (R163, R166, R242). -/
def runFields (e : Env) (word : Word) : List Word → U64 → Record → Res (U64 × Record)
  | [], raw, rec => .ok (raw, rec)
  | fd :: rest, _, rec => (descriptorStep e word fd rec).bind fun p => runFields e word rest p.1 p.2

/-- A leaf run over a word, from a fresh record. -/
def attemptLeaf (e : Env) (word : Word) (raw : U64) (l : Leaf) : Res AttemptEnd :=
  if e.roms.params.maxFields < l.nfields then violation e.cfg.check .field .reservedCode
  else (runFields e word (leafFields l) raw (freshRecord l.opcode)).map fun p => ⟨l, p.1, p.2⟩

/-- `ATTEMPT(t, WORD, ADDR)` (R163).  `raw` is what `RAW` holds before, and after a leaf with no fields. -/
def attemptTable (e : Env) (word : Word) (raw : U64) (t : Nat) : Res AttemptEnd :=
  (lookupLeaf e word t).bind (attemptLeaf e word raw)

/-- The loop of `DECODE` over the tables of `ORDER` (R180); `last` is the last table tried and its cause. -/
def callTables (e : Env) (word : Word) (raw : U64) : List Nat → Nat × Cause → CallEnd
  | [], last => .failed last.1 last.2
  | t :: rest, _ =>
    match attemptTable e word raw t with
    | .ok a => .done t a
    | .fail c => callTables e word raw rest (t, c)
    | .refuse r => .refused r

/-- The tables of `ORDER` after table `t`.  DESIGN CHOICE (log entry 12): there are none, not even the primary table, where `t`
itself is not in `ORDER`. -/
def tablesAfter (t : Nat) (order : List Nat) : List Nat := (order.dropWhile fun k => k != t).tail

/-- The end of a call in the state: publication (R183), the failure response (R184), or no meaning (R9). -/
def endCall (s : State) : CallEnd → Host.Outcome State Fault Refusal
  | .done t a =>
    .next (callSuccess { s with
      work := { s.work with leaf := a.leaf, raw := a.raw, record := a.record, tidx := t, fidx := a.leaf.nfields } })
  | .failed t c =>
    .next (callFail .noMatch { s with
      work := { s.work with tidx := t }
      aux := { s.aux with attemptCause := some c } })
  | .refused r => .refused r

/-- The state with the assembled word in `WORD` (10_state.md R13). -/
def State.withWord (s : State) (w : Word) : State := { s with work := { s.work with word := w } }

end Sys2Proof.Machine
end

