-- ==== Sys2Proof/Machine/Entry.lean ====
section
/-! DEFINITION. The meanings of the decode entry point (45_decode_entry.md R180 to R185). -/

namespace Sys2Proof.Machine

/-- `ASSEMBLE` (R181) into `WORD` (10_state.md R13); it is only called when `AVAIL ≥ 4`, and a short buffer fails the call
at once (R185; log entry 14). -/
def execAssemble (s : State) : Host.Outcome State Fault Refusal :=
  if s.request.avail < Config.ilen then .next (callFail .short s)
  else .next (s.withWord (assembled s.cfg s.request))

/-- `DECODE` (R180): the whole call as one step. -/
def execDecode (s : State) : Host.Outcome State Fault Refusal :=
  if s.request.avail < Config.ilen then .next (callFail .short (accept s))
  else
    endCall ((accept s).withWord (assembled s.cfg s.request))
      (callTables s.env (assembled s.cfg s.request) s.work.raw (tableOrder s.cfg.ext) (0, .noMatch))

end Sys2Proof.Machine
end

