-- ==== Sys2Proof/Machine/FixtureLeaves.lean ====
section
/-! DEFINITION. The meanings of the fixture leaves (44_matcher_dispatch.md R169): the call on an instruction word which the
leaf of a fixture table matches, from that table on (45_decode_entry.md R180; log entry 12).  The policy of the leaf's
opcode id is `POLICY_ROM`'s (30_encoding.md R75). -/

namespace Sys2Proof.Machine

/-- The call on the word `w` from the moment table `t` has answered the leaf `l`: its attempt, and the tables of `ORDER`
after it when the attempt fails.  DESIGN CHOICE (log entry 12): where table `t` is not in `ORDER`, which is `FX_PFADD` run by
itself with the extension mode off, the leaf is run all the same, and when its attempt fails the call fails. -/
def execLeafWord (t : Nat) (l : Leaf) (w : Word) (s : State) : Host.Outcome State Fault Refusal :=
  endCall ((accept s).withWord w)
    (match attemptLeaf s.env w s.work.raw l with
      | .ok a => .done t a
      | .fail c => callTables s.env w s.work.raw (tablesAfter t (tableOrder s.cfg.ext)) (t, c)
      | .refuse r => .refused r)

def execFxAddi (rt ra : BitVec 5) (si : BitVec 16) (s : State) : Host.Outcome State Fault Refusal :=
  execLeafWord 0 Fixtures.leafAddi (wordAddi rt ra si) s
def execFxLwz (rt ra : BitVec 5) (d : BitVec 16) (s : State) : Host.Outcome State Fault Refusal :=
  execLeafWord 0 Fixtures.leafLwz (wordLwz rt ra d) s
def execFxLwzu (rt ra : BitVec 5) (d : BitVec 16) (s : State) : Host.Outcome State Fault Refusal :=
  execLeafWord 0 Fixtures.leafLwzu (wordLwzu rt ra d) s
def execFxStwu (rs ra : BitVec 5) (d : BitVec 16) (s : State) : Host.Outcome State Fault Refusal :=
  execLeafWord 0 Fixtures.leafStwu (wordStwu rs ra d) s
def execFxLdu (rt ra : BitVec 5) (ds : BitVec 14) (s : State) : Host.Outcome State Fault Refusal :=
  execLeafWord 0 Fixtures.leafLdu (wordLdu rt ra ds) s
def execFxStdu (rs ra : BitVec 5) (ds : BitVec 14) (s : State) : Host.Outcome State Fault Refusal :=
  execLeafWord 0 Fixtures.leafStdu (wordStdu rs ra ds) s
def execFxMfocrf (rt : BitVec 5) (fxm : BitVec 8) (bit11 bit0 : BitVec 1) (s : State) :
    Host.Outcome State Fault Refusal :=
  execLeafWord 0 Fixtures.leafMfocrf (wordMfocrf rt fxm bit11 bit0) s
def execFxFadd (frt fra frb : BitVec 5) (bit0 : BitVec 1) (s : State) : Host.Outcome State Fault Refusal :=
  execLeafWord 0 Fixtures.leafFadd (wordFadd frt fra frb bit0) s
def execFxVadd (vrt vra vrb : BitVec 5) (s : State) : Host.Outcome State Fault Refusal :=
  execLeafWord 0 Fixtures.leafVadd (wordVadd vrt vra vrb) s
def execFxOri (rs ra : BitVec 5) (ui : BitVec 16) (s : State) : Host.Outcome State Fault Refusal :=
  execLeafWord 0 Fixtures.leafOri (wordOri rs ra ui) s
def execFxPfadd (frt fra frb : BitVec 5) (s : State) : Host.Outcome State Fault Refusal :=
  execLeafWord 1 Fixtures.leafPfadd (wordPfadd frt fra frb) s

end Sys2Proof.Machine
end

