-- ==== Sys2Proof/Machine/Matcher.lean ====
section
/-! DEFINITION. The meanings of the matcher, the dispatch engine, the attempt and the leaf header
(44_matcher_dispatch.md R160 to R168; 30_encoding.md R62). -/

namespace Sys2Proof.Machine

/-- `MATCH(t, word, features)` (R160): the answer, a leaf or none; it writes nothing of the block. -/
def execMatch (t : Nat) (word : Word) (features : FeatureSet) (s : State) : Host.Outcome State Fault Refusal :=
  finish
    (match s.roms.tables[t]? with
      | some rows => .ok (matchRows rows word features)
      | none => violation s.cfg.check .index .indexRange) s
    fun m => s.withResult (.leaf m)

/-- `DISPATCH(fd, REC, RAW, ADDR)` (R164): the resolver of the descriptor's class, run on `RAW` and `REC`. -/
def execDispatch (fd : Word) (s : State) : Host.Outcome State Fault Refusal :=
  finish
    (match OperandClass.ofCode (fdClass fd) with
      | some c => resolveClass s.env c (fdHi fd) (fdLo fd) s.work.raw s.work.record
      | none => violation s.cfg.check .field .reservedCode) s
    s.withRecord

/-- `ATTEMPT(t, WORD, ADDR)` (R163), by itself: on success the record stands in `REC` with its length still 0, on failure
it is discarded in full; moving on to the next table is `DECODE`'s. -/
def execAttempt (t : Nat) (s : State) : Host.Outcome State Fault Refusal :=
  match attemptTable s.env s.work.word s.work.raw t with
  | .ok a =>
    .next { s with
      work := { s.work with leaf := a.leaf, raw := a.raw, record := a.record, tidx := t, fidx := a.leaf.nfields }
      aux := { s.aux with result := .attempt (some a.record), attemptCause := none } }
  | .fail c =>
    .next { s with
      work := { s.work with record := Record.empty, tidx := t, fidx := 0 }
      aux := { s.aux with result := .attempt none, attemptCause := some c } }
  | .refuse r => .refused r

/-- The leaf header (R62, R163): the attempt reset of the record, the opcode written before any resolver runs, the cursor
at the first field; a field count above `MAXFIELDS` is a violation (R165). -/
def execLeaf (opcode : OpcId) (nfields : BitVec 4) (s : State) : Host.Outcome State Fault Refusal :=
  finish
    (if s.roms.params.maxFields < nfields.toNat then violation s.cfg.check .field .reservedCode
      else .ok (freshRecord opcode)) s
    fun rec => { s with
      work := { s.work with
        leaf := { s.work.leaf with header := headerOf opcode nfields }
        record := rec
        fidx := 0
        phase := .resolving } }

end Sys2Proof.Machine
end

