-- ==== Sys2Proof/Machine/Primitives.lean ====
section
/-! DEFINITION. The meanings of the primitives, the ROM lookups and the operand-list operations run by themselves
(40_bitfield_extractor.md; 41_register_translator.md R102; 43_composite_resolvers.md R140; 20_memory.md R47, R48).  A value
that an operation returns is put in the model's own field `aux.result` (log entry 8); outside its domain an operation
fails the attempt or is refused (R95, D32; log entry 14). -/

namespace Sys2Proof.Machine

/-- `EXTRACT` (R90). -/
def execExtract (word : Word) (hi lo : Nat) (s : State) : Host.Outcome State Fault Refusal :=
  finish (if lo ≤ hi ∧ hi ≤ 31 then .ok (extract word hi lo) else violation s.cfg.check .field .fieldRange) s
    fun v => s.withResult (.bits v)

/-- `SEXT` (R91). -/
def execSext (value : U64) (w : Nat) (s : State) : Host.Outcome State Fault Refusal :=
  finish (if 1 ≤ w ∧ w ≤ 64 then .ok (sext value w) else violation s.cfg.check .field .fieldRange) s
    fun v => s.withResult (.bits v)

/-- `SHL` (R92). -/
def execShl (value : U64) (n : Nat) (s : State) : Host.Outcome State Fault Refusal :=
  finish (if n ≤ 63 then .ok (shl value n) else violation s.cfg.check .field .fieldRange) s
    fun v => s.withResult (.bits v)

/-- `CTZ` (R93): 0 has no count. -/
def execCtz (value : U64) (s : State) : Host.Outcome State Fault Refusal :=
  finish (match ctz value with | some i => .ok i | none => violation s.cfg.check .onehot .maskPosition) s
    fun i => s.withResult (.bits (BitVec.ofNat 64 i))

/-- `RESOLVE` (R102, R103). -/
def execResolve (b i : Nat) (s : State) : Host.Outcome State Fault Refusal :=
  finish (resolve s.cfg.check s.roms.bank b i) s fun r => s.withResult (.register r)

/-- `POLICY` (R140). -/
def execPolicy (opc : OpcId) (s : State) : Host.Outcome State Fault Refusal :=
  finish (policyOf s.cfg.check s.roms.policy opc) s fun p => s.withResult (.policy p)

/-- `OPS_APPEND` (R47). -/
def execOpsAppend (o : Operand) (s : State) : Host.Outcome State Fault Refusal :=
  finish (opsAppend s.roms.params s.cfg.check o s.work.record) s s.withRecord

/-- `OPS_INSERT` (R48). -/
def execOpsInsert (k : Nat) (o : Operand) (s : State) : Host.Outcome State Fault Refusal :=
  finish (opsInsert s.roms.params s.cfg.check k o s.work.record) s s.withRecord

end Sys2Proof.Machine
end

