-- ==== Sys2Proof/Machine/Resolvers.lean ====
section
/-! DEFINITION. The meanings of the operand classes: one field descriptor resolved at the cursor `(TIDX, FIDX)`
(42_simple_resolvers.md, 43_composite_resolvers.md; the body of the loop of 44_matcher_dispatch.md R163). -/

namespace Sys2Proof.Machine

/-- The state when a field's resolver has returned normally: `RAW`, `REC` and the cursor moved by exactly 1 (R17). -/
def State.afterField (s : State) (p : U64 × Record) : State :=
  { s with work := { s.work with raw := p.1, record := p.2, fidx := s.work.fidx + 1 } }

/-- The state when a field's resolver raises: `RAW` has been written if the range check passed. -/
def State.afterExtract (s : State) (hi lo : BitVec 5) : State :=
  if hi < lo then s
  else { s with work := { s.work with raw := extract s.work.word hi.toNat lo.toNat } }

/-- One field descriptor of class `c` with the range `hi:lo`. -/
def execField (c : OperandClass) (hi lo : BitVec 5) (s : State) : Host.Outcome State Fault Refusal :=
  finish (fieldStep s.env s.work.word c hi lo s.work.record) (s.afterExtract hi lo) s.afterField

/-- R120. -/
def execGpr (hi lo : BitVec 5) (s : State) : Host.Outcome State Fault Refusal := execField (.reg .gpr) hi lo s
/-- R121. -/
def execGprz (hi lo : BitVec 5) (s : State) : Host.Outcome State Fault Refusal := execField (.reg .gprz) hi lo s
/-- R122. -/
def execG64 (hi lo : BitVec 5) (s : State) : Host.Outcome State Fault Refusal := execField (.reg .g64) hi lo s
/-- R123. -/
def execFps (hi lo : BitVec 5) (s : State) : Host.Outcome State Fault Refusal := execField (.reg .fps) hi lo s
/-- R124. -/
def execFpd (hi lo : BitVec 5) (s : State) : Host.Outcome State Fault Refusal := execField (.reg .fpd) hi lo s
/-- R125. -/
def execVec (hi lo : BitVec 5) (s : State) : Host.Outcome State Fault Refusal := execField (.reg .vec) hi lo s
/-- R126. -/
def execVsxl (hi lo : BitVec 5) (s : State) : Host.Outcome State Fault Refusal := execField (.reg .vsxl) hi lo s
/-- R127. -/
def execVsxh (hi lo : BitVec 5) (s : State) : Host.Outcome State Fault Refusal := execField (.reg .vsxh) hi lo s
/-- R128. -/
def execVsf (hi lo : BitVec 5) (s : State) : Host.Outcome State Fault Refusal := execField (.reg .vsf) hi lo s
/-- R129. -/
def execCr (hi lo : BitVec 5) (s : State) : Host.Outcome State Fault Refusal := execField (.reg .cr) hi lo s
/-- R130. -/
def execCrb (hi lo : BitVec 5) (s : State) : Host.Outcome State Fault Refusal := execField (.reg .crb) hi lo s
/-- R131. -/
def execPf0 (hi lo : BitVec 5) (s : State) : Host.Outcome State Fault Refusal := execField (.reg .pf0) hi lo s
/-- R132. -/
def execPf1 (hi lo : BitVec 5) (s : State) : Host.Outcome State Fault Refusal := execField (.reg .pf1) hi lo s
/-- R133. -/
def execUimm (hi lo : BitVec 5) (s : State) : Host.Outcome State Fault Refusal := execField .uimm hi lo s
/-- R134. -/
def execSimm (hi lo : BitVec 5) (s : State) : Host.Outcome State Fault Refusal := execField .simm hi lo s
/-- R141. -/
def execMemri (hi lo : BitVec 5) (s : State) : Host.Outcome State Fault Refusal := execField .memri hi lo s
/-- R142. -/
def execMemrix (hi lo : BitVec 5) (s : State) : Host.Outcome State Fault Refusal := execField .memrix hi lo s
/-- R150. -/
def execCrbitm (hi lo : BitVec 5) (s : State) : Host.Outcome State Fault Refusal := execField .crbitm hi lo s

end Sys2Proof.Machine
end

