-- ==== Sys2Proof/Machine/Dispatch.lean ====
section
/-! DEFINITION. The meaning of every operation, one arm per constructor of Instr. -/

namespace Sys2Proof.Machine

def exec (i : Instr) (s : State) : Host.Outcome State Fault Refusal :=
  match i with
  -- operand classes
  | .gpr hi lo _ => Sys2Proof.Machine.execGpr hi lo s
  | .gprz hi lo _ => Sys2Proof.Machine.execGprz hi lo s
  | .g64 hi lo _ => Sys2Proof.Machine.execG64 hi lo s
  | .fps hi lo _ => Sys2Proof.Machine.execFps hi lo s
  | .fpd hi lo _ => Sys2Proof.Machine.execFpd hi lo s
  | .vec hi lo _ => Sys2Proof.Machine.execVec hi lo s
  | .vsxl hi lo _ => Sys2Proof.Machine.execVsxl hi lo s
  | .vsxh hi lo _ => Sys2Proof.Machine.execVsxh hi lo s
  | .vsf hi lo _ => Sys2Proof.Machine.execVsf hi lo s
  | .cr hi lo _ => Sys2Proof.Machine.execCr hi lo s
  | .crb hi lo _ => Sys2Proof.Machine.execCrb hi lo s
  | .pf0 hi lo _ => Sys2Proof.Machine.execPf0 hi lo s
  | .pf1 hi lo _ => Sys2Proof.Machine.execPf1 hi lo s
  | .uimm hi lo _ => Sys2Proof.Machine.execUimm hi lo s
  | .simm hi lo _ => Sys2Proof.Machine.execSimm hi lo s
  | .memri hi lo _ => Sys2Proof.Machine.execMemri hi lo s
  | .memrix hi lo _ => Sys2Proof.Machine.execMemrix hi lo s
  | .crbitm hi lo _ => Sys2Proof.Machine.execCrbitm hi lo s
  -- internal operations
  | .extract word hi lo => Sys2Proof.Machine.execExtract word hi lo s
  | .sext value w => Sys2Proof.Machine.execSext value w s
  | .shl value n => Sys2Proof.Machine.execShl value n s
  | .ctz value => Sys2Proof.Machine.execCtz value s
  | .resolve b index => Sys2Proof.Machine.execResolve b index s
  | .policy opc => Sys2Proof.Machine.execPolicy opc s
  | .opsAppend o => Sys2Proof.Machine.execOpsAppend o s
  | .opsInsert p o => Sys2Proof.Machine.execOpsInsert p o s
  | .matchLeaf t word features => Sys2Proof.Machine.execMatch t word features s
  | .dispatch fd => Sys2Proof.Machine.execDispatch fd s
  | .attempt t => Sys2Proof.Machine.execAttempt t s
  | .assemble => Sys2Proof.Machine.execAssemble s
  | .decode => Sys2Proof.Machine.execDecode s
  -- the leaf header
  | .leaf opcode nfields => Sys2Proof.Machine.execLeaf opcode nfields s
  -- fixture leaves
  | .fxAddi rt ra si => Sys2Proof.Machine.execFxAddi rt ra si s
  | .fxLwz rt ra d => Sys2Proof.Machine.execFxLwz rt ra d s
  | .fxLwzu rt ra d => Sys2Proof.Machine.execFxLwzu rt ra d s
  | .fxStwu rs ra d => Sys2Proof.Machine.execFxStwu rs ra d s
  | .fxLdu rt ra ds => Sys2Proof.Machine.execFxLdu rt ra ds s
  | .fxStdu rs ra ds => Sys2Proof.Machine.execFxStdu rs ra ds s
  | .fxMfocrf rt fxm bit11 bit0 => Sys2Proof.Machine.execFxMfocrf rt fxm bit11 bit0 s
  | .fxFadd frt fra frb bit0 => Sys2Proof.Machine.execFxFadd frt fra frb bit0 s
  | .fxVadd vrt vra vrb => Sys2Proof.Machine.execFxVadd vrt vra vrb s
  | .fxOri rs ra ui => Sys2Proof.Machine.execFxOri rs ra ui s
  | .fxPfadd frt fra frb => Sys2Proof.Machine.execFxPfadd frt fra frb s

end Sys2Proof.Machine
end

