-- ==== Sys2Proof/Machine/Sequencer.lean ====
section
/-! DEFINITION. What one step of the machine runs (10_state.md R17, R25; 44_matcher_dispatch.md R163; 45_decode_entry.md
R180, R187).  Between calls nothing happens until the host asserts `REQ`; then the grain decides (log entry 1) whether the
step is the whole call, or the call's first move, each later step being one move of the cursors. -/

namespace Sys2Proof.Machine

/-- What a step finds to do: an operation to run in a state, or a sequencing move that ends the step. -/
inductive Fetched where
  | run (i : Instr) (s : State)
  | move (o : Host.Outcome State Fault Refusal)

/-- The first move of a call: the short-buffer test, `ASSEMBLE`, `ORDER`, and the cursor at the first table (R180). -/
def startCall (s : State) : State :=
  if s.request.avail < Config.ilen then callFail .short (accept s)
  else
    match tableOrder s.cfg.ext with
    | [] => callFail .noMatch (accept s)
    | t :: rest =>
      let a := (accept s).withWord (assembled s.cfg s.request)
      { a with work := { a.work with record := Record.empty, tidx := t, fidx := 0, order := rest, phase := .matching } }

/-- The state with the leaf that `MATCH` has answered latched (10_state.md R16). -/
def State.withLeaf (s : State) (l : Leaf) : State := { s with work := { s.work with leaf := l } }

/-- The descriptor word at `FIDX`. -/
def fetchDescriptor (s : State) : Word := descriptorAt s.work.leaf s.work.fidx

/-- Before the match of table `TIDX`: the answered leaf is latched and its header run, or the attempt fails. -/
def fetchMatch (s : State) : Fetched :=
  match lookupLeaf s.env s.work.word s.work.tidx with
  | .ok l => .run (decodeHeader l.header) (s.withLeaf l)
  | .fail c => .move (.next (attemptFail c s))
  | .refuse r => .move (.refused r)

/-- At the field `FIDX`: its descriptor is run; a reserved class code is a violation (R165); past the last field the
attempt has succeeded and the call ends. -/
def fetchField (s : State) : Fetched :=
  if s.work.fidx < s.work.leaf.nfields then
    match decodeDescriptor (fetchDescriptor s) with
    | some i => .run i s
    | none => .move (finish (violation s.cfg.check .field .reservedCode) s fun (_ : Unit) => s)
  else .move (.next (callSuccess s))

/-- What the next step runs.  A request asserted during a call is a host error (93_implementation_defined.md U7). -/
def fetch (s : State) : Fetched :=
  match s.work.phase with
  | .idle =>
    if s.request.req = false then .move (.next s)
    else
      match s.aux.grain with
      | .call => .run .decode s
      | .cursor => .move (.next (startCall s))
  | .matching => if s.request.req then .move (.refused .requestDuringCall) else fetchMatch s
  | .resolving => if s.request.req then .move (.refused .requestDuringCall) else fetchField s

end Sys2Proof.Machine
end

