-- ==== Sys2Proof/Machine/HostPort.lean ====
section
/-! DEFINITION. What the host does to the block outside a call (45_decode_entry.md R186, R187; 10_state.md R12;
70_reset_and_hazards.md R230, R232), and how one word is placed so that the next step runs it (log entry 11).  None of
these is a step. -/

namespace Sys2Proof.Machine

/-- Power-on reset of a unit (R230 a): the response outputs and the configuration defaults are written to the values of
10_state.md R26 and nothing else is touched; `MODE` has no reset value and keeps its own.  DESIGN CHOICE (log entry 26): what a
power-on reset inside a call does, or between a request and its first step, the spec does not say, since its call is
indivisible (R25), and only the grain `cursor` can express it.  Taken at its word, "touches nothing else" leaves the call
as it is: it goes on under the configuration sampled for it, and at its end it overwrites the reset response. -/
def powerOn (s : State) : State :=
  { s with
    inputs := { s.inputs with
      cfg := { s.inputs.cfg with features := FeatureSet.all, check := .failClosed, chkBase0 := false } }
    response := { rsp := false, status := .fail, outRec := Record.empty, consumed := 0#3 } }

/-- No call has been asked for and none runs.  A call starts when `REQ` is asserted (R187), so the time until a step takes the
request belongs to it. -/
abbrev State.betweenCalls (s : State) : Prop := s.work.phase = .idle ∧ s.request.req = false

/-- The host drives the bytes, which are `AVAIL` many, and the address.  It may do so at any time: a call reads what was
sampled ("between `REQ` and `RSP` the host must hold nothing", R187; R240). -/
def hostPresent (bytes : List Byte) (addr : U64) (s : State) : State :=
  { s with inputs := { s.inputs with
      buf := Memory.writeBytes [] 0 bytes
      avail := bytes.length
      addr := addr } }

/-- The host writes the configuration, "between calls" only (R12, R240). -/
def hostConfigure (cfg : Configuration) (s : State) : Host.Outcome State Fault Refusal :=
  if s.betweenCalls then .next { s with inputs := { s.inputs with cfg := cfg } } else .refused .inputDuringCall

/-- The host asserts `REQ`: "every other input is sampled at that moment" (R187), and `RSP` falls (log entry 25).  A new
request before the response is a host error without a meaning (93_implementation_defined.md U7). -/
def hostRequest (s : State) : Host.Outcome State Fault Refusal :=
  if s.betweenCalls then
    .next { s with
      cfg := s.inputs.cfg
      request := { req := true, buf := s.inputs.buf, avail := s.inputs.avail, addr := s.inputs.addr }
      response := { s.response with rsp := false } }
  else .refused .requestDuringCall

/-- A request for the word `w`, sampled, under fixture ROMs, with the extension mode on or off. -/
def placeInstructionWord (ext : Bool) (w : Word) (s : State) : State :=
  { s with
    cfg := { s.cfg with ext := [ext] }
    roms := { s.roms with tables := [Fixtures.tRef0, Fixtures.tRef1], policy := Fixtures.policyRef }
    request := { s.request with
      req := true
      buf := Memory.writeBytes [] 0 (wordBytes s.cfg.bigEndian w)
      avail := 4 }
    work := { s.work with order := [], phase := .idle }
    aux := { s.aux with grain := .call } }

/-- The leaf of opcode id 0 and policy `NONE` whose one descriptor is `w`, latched, the cursor at that descriptor. -/
def placeDescriptor (w : Word) (s : State) : State :=
  { s with
    roms := { s.roms with policy := (0, 0#2) :: s.roms.policy }
    request := { s.request with req := false }
    work := { s.work with
      leaf := ⟨headerOf 0 1#4, [w]⟩
      record := freshRecord 0
      tidx := 0
      fidx := 0
      order := []
      phase := .resolving }
    response := { s.response with rsp := false } }

/-- The leaf with header `w` and zero descriptor words in the primary table, matching every word, the cursor before the
match of that table. -/
def placeHeader (w : Word) (s : State) : State :=
  let l : Leaf := ⟨w.toNat, List.replicate (headerNfields w.toNat).toNat 0#32⟩
  { s with
    roms := { s.roms with tables := [⟨0#32, 0#32, [], l⟩] :: s.roms.tables.tail }
    request := { s.request with req := false }
    work := { s.work with
      leaf := l
      record := Record.empty
      tidx := 0
      fidx := 0
      order := []
      phase := .matching }
    response := { s.response with rsp := false } }

/-- The state whose next step fetches and runs the word `w`, in the place that the decoder reads it in. -/
def placeWord (w : Word) (s : State) : State :=
  match spaceOfBareWord w with
  | some .descriptor => placeDescriptor w s
  | some .header => placeHeader w s
  | some .primary => placeInstructionWord false w s
  | some .extension => placeInstructionWord true w s
  | none => s

end Sys2Proof.Machine
end

