-- ==== Sys2Proof/Safety.lean ====
section
/-! DEFINITION. What claims about the block are stated in: the well-formed states, what no operation may
touch, and the shapes of statements about one operation. -/

namespace Sys2Proof.Machine

/-- A configuration has its form: the feature set is a rising list of existing flags (10_state.md R12). -/
abbrev Configuration.wf (cfg : Configuration) : Prop :=
  risingNat cfg.features.disabled = true ∧ ∀ i ∈ cfg.features.disabled, i < Config.nfeat

/-- A buffer is canonical and holds positions below `AVAIL` only (R11). -/
abbrev BufferWf (buf : Memory) (avail : Nat) : Prop := buf.wf = true ∧ ∀ c ∈ buf, c.1 < avail

/-- The ROMs hold numbers of their widths, and the bank tables meet their contract (10_state.md R20 to R22;
41_register_translator.md R101, R118). -/
abbrev Roms.wf (m : Roms) : Prop :=
  BankContract m.params m.bank ∧ (∀ rows ∈ m.tables, ∀ row ∈ rows, row.leaf.opcode < 2 ^ m.params.opcW) ∧
    ∀ e ∈ m.policy, e.1 < 2 ^ m.params.opcW

/-- The inputs, driven and sampled, and the ROMs have their form, and there is one table more than there are extension
modes (R20). -/
abbrev State.inputsWf (s : State) : Prop :=
  BufferWf s.inputs.buf s.inputs.avail ∧ BufferWf s.request.buf s.request.avail ∧ s.inputs.cfg.wf ∧ s.cfg.wf ∧
    s.roms.wf ∧ s.roms.tables.length = s.inputs.cfg.ext.length + 1 ∧ s.roms.tables.length = s.cfg.ext.length + 1

/-- An operand is an immediate or an identifier that stands in a bank table (30_encoding.md R66; R118). -/
def NamedIn (rom : BankRom) : Operand → Prop
  | .reg r => ∃ bank ∈ rom, r ∈ bank
  | .imm _ => True

/-- A record holds at most `MAXOPS` operands, each named, and an opcode id of `OPC_W` bits (10_state.md R15). -/
abbrev Record.wf (m : Roms) (rec : Record) : Prop :=
  rec.n ≤ m.params.maxOps ∧ rec.opcode < 2 ^ m.params.opcW ∧ ∀ o ∈ rec.ops, NamedIn m.bank o

/-- The response is that of a success, whose record says the length that is consumed, or of a failure, which has no
instruction (10_state.md R19). -/
abbrev Response.wf (m : Roms) (r : Response) : Prop :=
  (r.status = .success ∧ r.consumed = 4#3 ∧ r.outRec.len = 4#3 ∧ r.outRec.wf m) ∨
    (r.status = .fail ∧ r.consumed = 0#3 ∧ r.outRec = Record.empty)

/-- The cursors stand in `ORDER` and in the leaf, the record belongs to the attempt (10_state.md R15 to R17), and `RSP` is low
from the request to the end of the call (log entry 25). -/
abbrev State.cursorWf (s : State) : Prop :=
  (s.work.phase = .idle → s.work.order = []) ∧ (s.request.req = true → s.response.rsp = false) ∧
    (s.work.phase ≠ .idle → (s.work.tidx :: s.work.order) <:+ tableOrder s.cfg.ext ∧ s.response.rsp = false) ∧
    (s.work.phase = .matching → s.work.record = Record.empty ∧ s.work.fidx = 0) ∧
    (s.work.phase = .resolving →
      s.work.leaf.nfields ≤ s.roms.params.maxFields ∧ s.work.fidx ≤ s.work.leaf.nfields ∧
        s.work.record.opcode = s.work.leaf.opcode ∧ s.work.record.len = 0#3)

/-- A well-formed state. -/
abbrev State.wf (s : State) : Prop :=
  s.inputsWf ∧ s.work.record.wf s.roms ∧ s.response.wf s.roms ∧ s.cursorWf

/-- `t` has the inputs that the host drives, the sampled configuration, bytes, length and address, and the ROMs of `s` (R12,
R20 to R22, R27). -/
abbrev SameInputs (s t : State) : Prop :=
  t.inputs = s.inputs ∧ t.cfg = s.cfg ∧ t.roms = s.roms ∧ t.request.buf = s.request.buf ∧
    t.request.avail = s.request.avail ∧ t.request.addr = s.request.addr

/-! ### The shapes that statements about one operation are written in -/

/-- The state after one field whose raw value is `raw` and after which the operand list is `ops`: the cursor has moved by
exactly 1 and nothing else has changed (10_state.md R14, R15, R17). -/
def State.fieldDone (s : State) (raw : U64) (ops : List Operand) : State :=
  { s with work := { s.work with
      raw := raw
      record := { s.work.record with ops := ops }
      fidx := s.work.fidx + 1 } }

/-- The state with the field's raw value written and nothing else. -/
def State.withRaw (s : State) (raw : U64) : State := { s with work := { s.work with raw := raw } }

/-- The operand list has room for `k` more operands (20_memory.md R56). -/
abbrev State.hasRoom (s : State) (k : Nat) : Prop := s.work.record.n + k ≤ s.roms.params.maxOps

/-- A contract violation met by the operation `i` in `s` (60_exceptions.md R205): under `FAIL_CLOSED` the attempt fails with
the cause `c` from the state `s'`; under `TRUST` the operation is refused with the reason `r`. -/
abbrev Violates (i : Instr) (s s' : State) (c : Cause) (r : Refusal) : Prop :=
  (s.cfg.check = .failClosed → exec i s = .next (attemptFail c s')) ∧
    (s.cfg.check = .trust → exec i s = .refused r)

/-- The attempt against table `t` from `s` ends with the record `rec` (44_matcher_dispatch.md R163). -/
abbrev AttemptSucceeds (t : Nat) (s : State) (rec : Record) : Prop :=
  ∃ u, exec (.attempt t) s = .next u ∧ u.aux.result = .attempt (some rec)

/-- The attempt against table `t` from `s` ends in a failure (44_matcher_dispatch.md R163). -/
abbrev AttemptFails (t : Nat) (s : State) : Prop :=
  ∃ u, exec (.attempt t) s = .next u ∧ u.aux.result = .attempt none

/-- The response that a call from `s` ends with; none where the call is refused (00_scope.md R9). -/
def decodeResponse (s : State) : Option Response :=
  match exec .decode s with
  | .next t => some t.response
  | .fault _ => none
  | .refused _ => none

/-- The state in which the attempts of a call from `s` run: the word is assembled (45_decode_entry.md R180). -/
def State.assembledCall (s : State) : State := s.withWord (assembled s.cfg s.request)

/-- `n` steps of the machine behind the host's interface, stopping at the first refusal. -/
def runSteps (n : Nat) (s : State) : Host.Outcome State Fault Refusal := Host.Core.run Sys2Proof.core n s

end Sys2Proof.Machine
end

