-- ==== Sys2Proof/Certificates/Slice0/Obligations.lean ====
section
/-! DEFINITION. The statements about the block, for the provers.  Each docstring says which rule of the spec a statement
formalises; what rests on a choice of the model names its log entry. -/

open Sys2Proof Sys2Proof.Machine

/-! ### 40_bitfield_extractor.md -/

/-- R90: `EXTRACT` returns bits `hi` down to `lo`, zero-extended; nothing but the returned value changes. -/
def Obligations.ExtractYieldsFieldBits : Prop :=
  ∀ (word : Word) (hi lo : Nat) (s : State), lo ≤ hi → hi ≤ 31 →
    ∃ v : U64, exec (.extract word hi lo) s = .next { s with aux := { s.aux with result := .bits v } } ∧
      v.toNat = (word.toNat >>> lo) % 2 ^ (hi - lo + 1) ∧
      (∀ k, v.getLsbD k = (decide (k ≤ hi - lo) && word.getLsbD (lo + k))) ∧
      (hi = 31 → lo = 0 → v.toNat = word.toNat)

/-- R91: `SEXT` replicates bit `w - 1` upward to bit 63 and ignores the bits of the value from `w` on. -/
def Obligations.SextReplicatesSignBit : Prop :=
  ∀ (value : U64) (w : Nat) (s : State), 1 ≤ w → w ≤ 64 →
    ∃ v : U64, exec (.sext value w) s = .next { s with aux := { s.aux with result := .bits v } } ∧
      v.toNat = (if value.getLsbD (w - 1) then value.toNat % 2 ^ w + (2 ^ 64 - 2 ^ w) else value.toNat % 2 ^ w) ∧
      (∀ k < 64, v.getLsbD k = value.getLsbD (min k (w - 1))) ∧
      signed v = (if value.getLsbD (w - 1) then ((value.toNat % 2 ^ w : Nat) : Int) - 2 ^ w
        else ((value.toNat % 2 ^ w : Nat) : Int)) ∧
      (w = 64 → v = value)

/-- R92: `SHL` shifts zeros in at bit 0 and loses the bits past bit 63. -/
def Obligations.ShlDropsHighBits : Prop :=
  ∀ (value : U64) (n : Nat) (s : State), n ≤ 63 →
    ∃ v : U64, exec (.shl value n) s = .next { s with aux := { s.aux with result := .bits v } } ∧
      v.toNat = value.toNat * 2 ^ n % 2 ^ 64 ∧
      (∀ k < 64, v.getLsbD k = (decide (n ≤ k) && value.getLsbD (k - n))) ∧ (n = 0 → v = value)

/-- R93: `CTZ` returns the least position that holds a 1; for 0 it never returns a number. -/
def Obligations.CtzCountsTrailingZeros : Prop :=
  (∀ (value : U64) (s : State), value ≠ 0#64 →
    ∃ i < 64, exec (.ctz value) s = .next { s with aux := { s.aux with result := .bits (BitVec.ofNat 64 i) } } ∧
      value.getLsbD i = true ∧ ∀ j < i, value.getLsbD j = false) ∧
    ∀ s t : State, exec (.ctz 0#64) s = .next t → t.aux.result = s.aux.result

/-- R95, D32, U1, U2, U4 and log entry 14: a primitive outside its domain and a match in a table that does not exist fail
the attempt or are refused; assembling fewer than four bytes fails the call. -/
def Obligations.OperationsOutsideDomain : Prop :=
  ∀ (word : Word) (value : U64) (hi lo w n t : Nat) (features : FeatureSet) (s : State),
    (hi < lo ∨ 31 < hi → Violates (.extract word hi lo) s s .field .fieldRange) ∧
      (w = 0 ∨ 64 < w → Violates (.sext value w) s s .field .fieldRange) ∧
      (64 ≤ n → Violates (.shl value n) s s .field .fieldRange) ∧
      Violates (.ctz 0#64) s s .onehot .maskPosition ∧
      (s.roms.tables.length ≤ t →
        Violates (.matchLeaf t word features) s s .index .indexRange ∧
        (s.cfg.check = .failClosed → AttemptFails t s) ∧
        (s.cfg.check = .trust → exec (.attempt t) s = .refused .indexRange)) ∧
      (s.request.avail < 4 → exec .assemble s = .next (callFail .short s))

/-- R96: scaling before extending and extending before scaling agree on a 14-bit displacement. -/
def Obligations.ScalingAndExtendingCommute : Prop :=
  ∀ d : Nat, d < 2 ^ 14 →
    sext (shl (BitVec.ofNat 64 d) 2) 16 = shl (sext (BitVec.ofNat 64 d) 14) 2 ∧
      signed (sext (shl (BitVec.ofNat 64 d) 2) 16) = 4 * signed (sext (BitVec.ofNat 64 d) 14) ∧
      -32768 ≤ signed (sext (shl (BitVec.ofNat 64 d) 2) 16) ∧ signed (sext (shl (BitVec.ofNat 64 d) 2) 16) ≤ 32764

/-! ### 41_register_translator.md, 43_composite_resolvers.md: the ROM lookups -/

/-- R102, R103: `RESOLVE` returns the entry of the table of the bank number, and there is no register for an index beyond
it.  That a number which names no bank is an index violation too is the model's choice (log entry 14; U1). -/
def Obligations.ResolveReadsBankRom : Prop :=
  ∀ (b i : Nat) (s : State),
    (∀ r bank, 1 ≤ b → s.roms.bank[b - 1]? = some bank → bank[i]? = some r →
      exec (.resolve b i) s = .next { s with aux := { s.aux with result := .register r } }) ∧
    (∀ bank, 1 ≤ b → s.roms.bank[b - 1]? = some bank → bank.length ≤ i →
      Violates (.resolve b i) s s .index .indexRange) ∧
    (b = 0 ∨ s.roms.bank.length < b → Violates (.resolve b i) s s .index .indexRange)

/-- R140: `POLICY` returns the policy of the entry that `POLICY_ROM` has for the opcode id, `NONE` where it
has none; the stored code 3 is a contract violation.  That a number of more than `OPC_W` bits, which is no opcode id, is answered
in the same way is the model's choice (log entry 14). -/
def Obligations.PolicyReadsPolicyRom : Prop :=
  ∀ (opc : OpcId) (s : State),
    ((∀ e ∈ s.roms.policy, e.1 ≠ opc) →
      exec (.policy opc) s = .next { s with aux := { s.aux with result := .policy .none } }) ∧
    ∀ (before after : List (OpcId × BitVec 2)) (code : BitVec 2),
      s.roms.policy = before ++ (opc, code) :: after → (∀ e ∈ before, e.1 ≠ opc) →
      (code = 0#2 → exec (.policy opc) s = .next { s with aux := { s.aux with result := .policy .none } }) ∧
        (code = 1#2 → exec (.policy opc) s = .next { s with aux := { s.aux with result := .policy .tiedOut } }) ∧
        (code = 2#2 → exec (.policy opc) s = .next { s with aux := { s.aux with result := .policy .tiedStore } }) ∧
        (code = 3#2 → Violates (.policy opc) s s .field .reservedCode)

/-- R101 d, R121: under the contract of the bank tables class `GPRZ` is class `GPR` on every raw field but 0.  On the raw field
0 the two name different registers, `GPRZ` the literal zero constant, which no index of `GPR` (bank number 1) names. -/
def Obligations.GprzAliasesGprExceptZero : Prop :=
  ∀ (hi lo : BitVec 5) (fid : BitVec 8) (s : State), BankContract s.roms.params s.roms.bank → lo ≤ hi →
    (extract s.work.word hi.toNat lo.toNat ≠ 0#64 → exec (.gprz hi lo fid) s = exec (.gpr hi lo fid) s) ∧
    (extract s.work.word hi.toNat lo.toNat = 0#64 → s.hasRoom 1 →
      ∀ z g, (bankTable s.roms.bank .gprz)[0]? = some z → (bankTable s.roms.bank .gpr)[0]? = some g →
        exec (.gprz hi lo fid) s = .next (s.fieldDone 0#64 (s.work.record.ops ++ [.reg z])) ∧
        exec (.gpr hi lo fid) s = .next (s.fieldDone 0#64 (s.work.record.ops ++ [.reg g])) ∧ z ≠ g ∧
        ∀ i < (bankTable s.roms.bank .gpr).length,
          exec (.resolve 1 i) s ≠ .next { s with aux := { s.aux with result := .register z } })

/-! ### 20_memory.md: the operand list -/

/-- R47, R56: `OPS_APPEND` adds at the end and moves nothing; a full list is a capacity violation. -/
def Obligations.OpsAppendAddsAtEnd : Prop :=
  ∀ (o : Operand) (s : State),
    (s.hasRoom 1 → exec (.opsAppend o) s = .next { s with work := { s.work with
      record := { s.work.record with ops := s.work.record.ops ++ [o] } } }) ∧
    (¬s.hasRoom 1 → Violates (.opsAppend o) s s .capacity .listFull)

/-- R48: `OPS_INSERT` puts the operand at index `p` and moves every operand from there on up by one. -/
def Obligations.OpsInsertShiftsUp : Prop :=
  ∀ (p : Nat) (o : Operand) (s : State),
    (s.hasRoom 1 → p ≤ s.work.record.n →
      ∃ ops : List Operand, exec (.opsInsert p o) s = .next { s with work := { s.work with
          record := { s.work.record with ops := ops } } } ∧
        ops.length = s.work.record.n + 1 ∧
        ∀ j, ops[j]? = if j < p then s.work.record.ops[j]? else if j = p then some o else s.work.record.ops[j - 1]?) ∧
    (¬s.hasRoom 1 → Violates (.opsInsert p o) s s .capacity .listFull) ∧
    (s.hasRoom 1 → s.work.record.n < p → Violates (.opsInsert p o) s s .position .tiedPosition) ∧
    exec (.opsInsert s.work.record.n o) s = exec (.opsAppend o) s

/-! ### 42_simple_resolvers.md -/

/-- Section 2 of 42_simple_resolvers.md, `RES_REG` for `GPR`, `GPRZ`, `G64`, `FPS`, `FPD`, `VEC`: the entry of the class's
bank is appended, `F_INDEX` comes before `F_CAPACITY`, and nothing else of the state changes. -/
def Obligations.ScalarAndFloatRegisterResolvers : Prop :=
  ∀ (hi lo : BitVec 5) (fid : BitVec 8) (s : State), lo ≤ hi →
    ∀ p ∈ [(Instr.gpr hi lo fid, Bank.gpr), (Instr.gprz hi lo fid, Bank.gprz), (Instr.g64 hi lo fid, Bank.g64),
        (Instr.fps hi lo fid, Bank.fps), (Instr.fpd hi lo fid, Bank.fpd), (Instr.vec hi lo fid, Bank.vec)],
      ∀ raw, raw = extract s.work.word hi.toNat lo.toNat →
        (∀ r, (bankTable s.roms.bank p.2)[raw.toNat]? = some r → s.hasRoom 1 →
          exec p.1 s = .next (s.fieldDone raw (s.work.record.ops ++ [.reg r]))) ∧
        ((bankTable s.roms.bank p.2).length ≤ raw.toNat → Violates p.1 s (s.withRaw raw) .index .indexRange) ∧
        (raw.toNat < (bankTable s.roms.bank p.2).length → ¬s.hasRoom 1 →
          Violates p.1 s (s.withRaw raw) .capacity .listFull)

/-- The same for `VSXL`, `VSXH`, `VSF`, `CR`, `CRB`, `PF0`, `PF1`. -/
def Obligations.VectorScalarConditionPairedResolvers : Prop :=
  ∀ (hi lo : BitVec 5) (fid : BitVec 8) (s : State), lo ≤ hi →
    ∀ p ∈ [(Instr.vsxl hi lo fid, Bank.vsxl), (Instr.vsxh hi lo fid, Bank.vsxh), (Instr.vsf hi lo fid, Bank.vsf),
        (Instr.cr hi lo fid, Bank.cr), (Instr.crb hi lo fid, Bank.crb), (Instr.pf0 hi lo fid, Bank.pf0),
        (Instr.pf1 hi lo fid, Bank.pf1)],
      ∀ raw, raw = extract s.work.word hi.toNat lo.toNat →
        (∀ r, (bankTable s.roms.bank p.2)[raw.toNat]? = some r → s.hasRoom 1 →
          exec p.1 s = .next (s.fieldDone raw (s.work.record.ops ++ [.reg r]))) ∧
        ((bankTable s.roms.bank p.2).length ≤ raw.toNat → Violates p.1 s (s.withRaw raw) .index .indexRange) ∧
        (raw.toNat < (bankTable s.roms.bank p.2).length → ¬s.hasRoom 1 →
          Violates p.1 s (s.withRaw raw) .capacity .listFull)

/-- R133: `UIMM` appends the raw field, `0` to `2^w - 1`; its only failure is the full list. -/
def Obligations.UimmAppendsRawField : Prop :=
  ∀ (hi lo : BitVec 5) (fid : BitVec 8) (s : State), lo ≤ hi →
    ∀ raw, raw = extract s.work.word hi.toNat lo.toNat →
      raw.toNat < 2 ^ (hi.toNat - lo.toNat + 1) ∧
      (s.hasRoom 1 → exec (.uimm hi lo fid) s = .next (s.fieldDone raw (s.work.record.ops ++ [.imm raw]))) ∧
      (¬s.hasRoom 1 → Violates (.uimm hi lo fid) s (s.withRaw raw) .capacity .listFull)

/-- R134: `SIMM` appends the raw field read as a signed number of the field's declared width; its only failure is the full
list. -/
def Obligations.SimmSignExtendsField : Prop :=
  ∀ (hi lo : BitVec 5) (fid : BitVec 8) (s : State), lo ≤ hi →
    ∀ (raw : U64) (w : Nat), raw = extract s.work.word hi.toNat lo.toNat → w = hi.toNat - lo.toNat + 1 →
      (s.hasRoom 1 → ∃ v : U64,
        exec (.simm hi lo fid) s = .next (s.fieldDone raw (s.work.record.ops ++ [.imm v])) ∧
        signed v = (if raw.toNat < 2 ^ (w - 1) then (raw.toNat : Int) else raw.toNat - 2 ^ w) ∧
        -(2 ^ (w - 1) : Int) ≤ signed v ∧ signed v ≤ 2 ^ (w - 1) - 1) ∧
      (¬s.hasRoom 1 → Violates (.simm hi lo fid) s (s.withRaw raw) .capacity .listFull)

/-! ### 43_composite_resolvers.md -/

/-- R145: the lists that `MEMRI` (displacement of 16 bits, not scaled) and `MEMRIX` (14 bits, scaled by 4) leave for each
policy, `TIED_STORE` after a prefix of `TIED_STORE_POS` operands (one, at the default: `[S, t, d, b]`); the base and the
tied operand are the same register of bank `GPRZ` and nothing else of the state changes. -/
def Obligations.MemoryOperandShapes : Prop :=
  ∀ (hi lo : BitVec 5) (fid : BitVec 8) (s : State), lo ≤ hi →
    ∀ m ∈ [(Instr.memri hi lo fid, 16, 0), (Instr.memrix hi lo fid, 14, 2)],
      ∀ (raw : U64) (r : RegId) (d : U64), raw = extract s.work.word hi.toNat lo.toNat →
        (bankTable s.roms.bank .gprz)[raw.toNat / 2 ^ m.2.1]? = some r →
        signed d = 2 ^ m.2.2 * (if raw.toNat % 2 ^ m.2.1 < 2 ^ (m.2.1 - 1) then ((raw.toNat % 2 ^ m.2.1 : Nat) : Int)
          else ((raw.toNat % 2 ^ m.2.1 : Nat) : Int) - 2 ^ m.2.1) →
        (policyCode s.roms.policy s.work.record.opcode = 0#2 → s.hasRoom 2 →
          exec m.1 s = .next (s.fieldDone raw (s.work.record.ops ++ [.imm d, .reg r]))) ∧
        (policyCode s.roms.policy s.work.record.opcode = 1#2 → s.hasRoom 3 →
          ¬(s.cfg.chkBase0 = true ∧ raw.toNat / 2 ^ m.2.1 = 0) →
          exec m.1 s = .next (s.fieldDone raw ([.reg r] ++ s.work.record.ops ++ [.imm d, .reg r]))) ∧
        (policyCode s.roms.policy s.work.record.opcode = 2#2 → s.work.record.n = s.roms.params.tiedStorePos →
          s.hasRoom 3 → ¬(s.cfg.chkBase0 = true ∧ raw.toNat / 2 ^ m.2.1 = 0) →
          exec m.1 s = .next (s.fieldDone raw (s.work.record.ops ++ [.reg r, .imm d, .reg r])))

/-- R206 (its part on `RES_MEM`), R72: the index of the base is found out of range before anything else; a reserved policy
code (log entry 21) and a list with no room for all the operands of the field are violations.  A field of the width that `N_BASE`
gives its format (R64, R65, D8) has a base index of `N_BASE` bits. -/
def Obligations.MemoryOperandFailures : Prop :=
  ∀ (hi lo : BitVec 5) (fid : BitVec 8) (s : State), lo ≤ hi →
    ∀ m ∈ [(Instr.memri hi lo fid, 16), (Instr.memrix hi lo fid, 14)],
      ∀ raw : U64, raw = extract s.work.word hi.toNat lo.toNat →
        (hi.toNat - lo.toNat + 1 = s.roms.params.nBase + m.2 → raw.toNat / 2 ^ m.2 < 2 ^ s.roms.params.nBase) ∧
        ((bankTable s.roms.bank .gprz).length ≤ raw.toNat / 2 ^ m.2 → Violates m.1 s (s.withRaw raw) .index .indexRange) ∧
        (raw.toNat / 2 ^ m.2 < (bankTable s.roms.bank .gprz).length →
          (policyCode s.roms.policy s.work.record.opcode = 3#2 →
            Violates m.1 s (s.withRaw raw) .field .reservedCode) ∧
          (policyCode s.roms.policy s.work.record.opcode = 0#2 → ¬s.hasRoom 2 →
            Violates m.1 s (s.withRaw raw) .capacity .listFull) ∧
          (policyCode s.roms.policy s.work.record.opcode = 1#2 → ¬s.hasRoom 3 →
            ¬(s.cfg.chkBase0 = true ∧ raw.toNat / 2 ^ m.2 = 0) →
            Violates m.1 s (s.withRaw raw) .capacity .listFull) ∧
          (policyCode s.roms.policy s.work.record.opcode = 2#2 → s.work.record.n = s.roms.params.tiedStorePos →
            ¬s.hasRoom 3 → ¬(s.cfg.chkBase0 = true ∧ raw.toNat / 2 ^ m.2 = 0) →
            Violates m.1 s (s.withRaw raw) .capacity .listFull))

/-- R146: a `TIED_STORE` opcode whose memory field is reached with other than exactly `TIED_STORE_POS`
(one, at the default) operands in the list. -/
def Obligations.TiedStoreNeedsOnePrefixOperand : Prop :=
  ∀ (hi lo : BitVec 5) (fid : BitVec 8) (s : State), lo ≤ hi →
    ∀ m ∈ [(Instr.memri hi lo fid, 16), (Instr.memrix hi lo fid, 14)],
      ∀ raw : U64, raw = extract s.work.word hi.toNat lo.toNat →
        raw.toNat / 2 ^ m.2 < (bankTable s.roms.bank .gprz).length →
        policyCode s.roms.policy s.work.record.opcode = 2#2 →
        ¬(s.cfg.chkBase0 = true ∧ raw.toNat / 2 ^ m.2 = 0) → s.work.record.n ≠ s.roms.params.tiedStorePos →
        Violates m.1 s (s.withRaw raw) .position .tiedPosition

/-- R147: with `CHK_BASE0` = 1 a base index 0 on an update opcode fails the attempt whatever `CHECK` is; otherwise it is
accepted and gives the register of index 0 of `GPRZ` for the base and for the tied operand. -/
def Obligations.BaseIndexZeroCheck : Prop :=
  ∀ (hi lo : BitVec 5) (fid : BitVec 8) (s : State), lo ≤ hi →
    ∀ m ∈ [(Instr.memri hi lo fid, 16), (Instr.memrix hi lo fid, 14)],
      ∀ (raw : U64) (z : RegId), raw = extract s.work.word hi.toNat lo.toNat → raw.toNat < 2 ^ m.2 →
        (bankTable s.roms.bank .gprz)[0]? = some z →
        (policyCode s.roms.policy s.work.record.opcode = 0#2 → s.hasRoom 2 →
          ∃ d, exec m.1 s = .next (s.fieldDone raw (s.work.record.ops ++ [.imm d, .reg z]))) ∧
        (s.cfg.chkBase0 = true → policyCode s.roms.policy s.work.record.opcode = 1#2 ∨
            policyCode s.roms.policy s.work.record.opcode = 2#2 →
          exec m.1 s = .next (attemptFail .base0 (s.withRaw raw))) ∧
        (s.cfg.chkBase0 = false → policyCode s.roms.policy s.work.record.opcode = 1#2 → s.hasRoom 3 →
          ∃ d, exec m.1 s = .next (s.fieldDone raw (.reg z :: s.work.record.ops ++ [.imm d, .reg z]))) ∧
        (s.cfg.chkBase0 = false → policyCode s.roms.policy s.work.record.opcode = 2#2 →
          s.work.record.n = s.roms.params.tiedStorePos → s.hasRoom 3 →
          ∃ d, exec m.1 s = .next (s.fieldDone raw (s.work.record.ops ++ [.reg z, .imm d, .reg z])))

/-- R150, R151: the group that a mask selects.  A one-hot mask of 8 bits selects `7 - position` under both settings;
another mask fails the attempt under `FAIL_CLOSED`, and under `TRUST` its lowest set bit decides, there being no register
for a mask with no position in 0 to 7.  `F_INDEX` and `F_CAPACITY` come after. -/
def Obligations.CrbitmSelectsGroup : Prop :=
  ∀ (hi lo : BitVec 5) (fid : BitVec 8) (s : State), lo ≤ hi →
    ∀ raw : U64, raw = extract s.work.word hi.toNat lo.toNat →
      (∀ p ≤ 7, raw.getLsbD p = true → (∀ j < p, raw.getLsbD j = false) →
        raw.toNat = 2 ^ p ∨ s.cfg.check = .trust →
        (∀ r, (bankTable s.roms.bank .cr)[7 - p]? = some r → s.hasRoom 1 →
          exec (.crbitm hi lo fid) s = .next (s.fieldDone raw (s.work.record.ops ++ [.reg r]))) ∧
        ((bankTable s.roms.bank .cr).length ≤ 7 - p → Violates (.crbitm hi lo fid) s (s.withRaw raw) .index .indexRange) ∧
        (7 - p < (bankTable s.roms.bank .cr).length → ¬s.hasRoom 1 →
          Violates (.crbitm hi lo fid) s (s.withRaw raw) .capacity .listFull)) ∧
      ((∀ p ≤ 7, raw.toNat ≠ 2 ^ p) → s.cfg.check = .failClosed →
        exec (.crbitm hi lo fid) s = .next (attemptFail .onehot (s.withRaw raw))) ∧
      ((∀ p ≤ 7, raw.getLsbD p = false) → s.cfg.check = .trust →
        exec (.crbitm hi lo fid) s = .refused .maskPosition)

/-! ### 44_matcher_dispatch.md -/

/-- R165: a descriptor with `lo > hi`, of whatever class, is found before its field is extracted; a reserved class code at
the cursor and a field count above `MAXFIELDS` are violations as well. -/
def Obligations.DescriptorChecks : Prop :=
  (∀ (c : OperandClass) (hi lo : BitVec 5) (fid : BitVec 8) (s : State), hi < lo →
    Violates (Instr.ofField c hi lo fid) s s .field .fieldRange) ∧
  (∀ (opcode : OpcId) (nfields : BitVec 4) (s : State), s.roms.params.maxFields < nfields.toNat →
    Violates (.leaf opcode nfields) s s .field .reservedCode) ∧
  ∀ s : State, s.work.phase = .resolving → s.request.req = false → s.work.fidx < s.work.leaf.nfields →
    OperandClass.ofCode (fdClass (fetchDescriptor s)) = none →
    (s.cfg.check = .failClosed → step s = .next (attemptFail .field s)) ∧
      (s.cfg.check = .trust → step s = .refused .reservedCode)

/-- R160: `MATCH` answers what the table answers for the word and the feature set: no leaf exactly when no row of the
table applies, else the leaf of a row that does.  It writes nothing and reads nothing of the state but the table. -/
def Obligations.MatchAnswersFromTheTable : Prop :=
  ∀ (t : Nat) (word : Word) (features : FeatureSet) (s : State) (rows : List TableRow),
    s.roms.tables[t]? = some rows →
    ∃ m : Option Leaf,
      (∀ s' : State, s'.roms = s.roms →
        exec (.matchLeaf t word features) s' = .next { s' with aux := { s'.aux with result := .leaf m } }) ∧
      (m = none ↔ ∀ row ∈ rows, ¬(word &&& row.mask = row.value ∧
        ∀ f ∈ row.features, features.enabled f.1 = f.2)) ∧
      ∀ l, m = some l → ∃ row ∈ rows, row.leaf = l ∧ word &&& row.mask = row.value ∧
        ∀ f ∈ row.features, features.enabled f.1 = f.2

/-- R160, R20 and log entry 6: a list of rows can stand for every function of the word and of any number of feature flags,
so that holding a table as rows leaves no table of the spec out.  This is about the model's choice of a form. -/
def Obligations.RowsRepresentEveryTable : Prop :=
  ∀ (n : Nat) (f : Word → List Bool → Option Leaf), ∃ rows : List TableRow,
    ∀ (word : Word) (features : FeatureSet),
      matchRows rows word features = f word ((List.range n).map features.enabled)

/-- R164: `DISPATCH` runs the resolver of the descriptor's class on `RAW`; what it leaves of the record, the response and
the model's own fields is what the class's own operation leaves.  A reserved class is never given a meaning. -/
def Obligations.DispatchSelectsByClass : Prop :=
  (∀ (fd : Word) (c : OperandClass) (s : State), OperandClass.ofCode (fdClass fd) = some c → fdLo fd ≤ fdHi fd →
    s.work.raw = extract s.work.word (fdHi fd).toNat (fdLo fd).toNat →
    match exec (Instr.ofField c (fdHi fd) (fdLo fd) (fdId fd)) s with
    | .next t => ∃ u, exec (.dispatch fd) s = .next u ∧ u.work.record = t.work.record ∧ u.response = t.response ∧
        u.aux = t.aux ∧ u.inputs = s.inputs ∧ u.cfg = s.cfg ∧ u.roms = s.roms ∧ u.request = s.request
    | .fault _ => False
    | .refused r => exec (.dispatch fd) s = .refused r) ∧
  (∀ (fd : Word) (b : Bank) (s : State) (r : RegId), (fdClass fd).toNat = b.number →
    (bankTable s.roms.bank b)[s.work.raw.toNat]? = some r → s.hasRoom 1 →
    exec (.dispatch fd) s = .next { s with work := { s.work with
      record := { s.work.record with ops := s.work.record.ops ++ [.reg r] } } }) ∧
  (∀ (fd : Word) (s : State), (fdClass fd).toNat = 16 → s.hasRoom 1 →
    exec (.dispatch fd) s = .next { s with work := { s.work with
      record := { s.work.record with ops := s.work.record.ops ++ [.imm s.work.raw] } } }) ∧
  ∀ (fd : Word) (s : State), OperandClass.ofCode (fdClass fd) = none →
    Violates (.dispatch fd) s s .field .reservedCode

/-- R163: the attempt against one table: no leaf is a failure, a leaf whose fields all resolve gives the record with the
leaf's opcode and a length of 0, one whose field fails leaves nothing of the record.  A field count above `MAXFIELDS` is a
violation (R165). -/
def Obligations.AttemptRunsTheLeaf : Prop :=
  ∀ (t : Nat) (s : State) (rows : List TableRow), s.roms.tables[t]? = some rows →
    (matchRows rows s.work.word s.cfg.features = none →
      exec (.attempt t) s = .next { s with
        work := { s.work with record := Record.empty, tidx := t, fidx := 0 }
        aux := { s.aux with result := .attempt none, attemptCause := some .noMatch } }) ∧
    ∀ l, matchRows rows s.work.word s.cfg.features = some l →
      (s.roms.params.maxFields < l.nfields → (s.cfg.check = .failClosed → AttemptFails t s) ∧
        (s.cfg.check = .trust → exec (.attempt t) s = .refused .reservedCode)) ∧
      (l.nfields ≤ s.roms.params.maxFields →
      (∀ raw rec, runFields s.env s.work.word (leafFields l) s.work.raw ⟨l.opcode, [], 0#3⟩ = .ok (raw, rec) →
        rec.opcode = l.opcode ∧ rec.len = 0#3 ∧ rec.n ≤ s.roms.params.maxOps ∧
        exec (.attempt t) s = .next { s with
          work := { s.work with leaf := l, raw := raw, record := rec, tidx := t, fidx := l.nfields }
          aux := { s.aux with result := .attempt (some rec), attemptCause := none } }) ∧
      (∀ c, runFields s.env s.work.word (leafFields l) s.work.raw ⟨l.opcode, [], 0#3⟩ = .fail c →
        ∃ u, exec (.attempt t) s = .next u ∧ u.aux.result = .attempt none ∧ u.aux.attemptCause = some c ∧
          u.work.record = Record.empty ∧ u.work.word = s.work.word ∧ u.work.order = s.work.order ∧
          SameInputs s u ∧ u.response = s.response) ∧
      (∀ r, runFields s.env s.work.word (leafFields l) s.work.raw ⟨l.opcode, [], 0#3⟩ = .refuse r →
        exec (.attempt t) s = .refused r) ∧
      (l.nfields = 0 → AttemptSucceeds t s ⟨l.opcode, [], 0#3⟩))

/-- R62, R163, R231: the leaf header makes the record fresh, writes its opcode and stands the cursor at the first field. -/
def Obligations.LeafHeaderMakesRecordFresh : Prop :=
  ∀ (opcode : OpcId) (nfields : BitVec 4) (s : State), nfields.toNat ≤ s.roms.params.maxFields →
    ∃ t, exec (.leaf opcode nfields) s = .next t ∧
      t.work.record = { opcode := opcode, ops := [], len := 0#3 } ∧ t.work.fidx = 0 ∧ t.work.phase = .resolving ∧
      t.work.leaf.opcode = opcode ∧ t.work.leaf.nfields = nfields.toNat ∧ t.work.leaf.fds = s.work.leaf.fds ∧
      t.work.word = s.work.word ∧ t.work.raw = s.work.raw ∧ t.work.tidx = s.work.tidx ∧
      t.work.order = s.work.order ∧ t.inputs = s.inputs ∧ t.cfg = s.cfg ∧ t.roms = s.roms ∧ t.request = s.request ∧
      t.response = s.response ∧ t.aux = s.aux

/-- R169: the masks of `T_REF0` are chosen so that no word matches two leaves. -/
def Obligations.FixtureLeavesAreDisjoint : Prop :=
  ∀ (word : Word) (i j : Nat) (a b : TableRow), Fixtures.tRef0[i]? = some a → Fixtures.tRef0[j]? = some b →
    word &&& a.mask = a.value → word &&& b.mask = b.value → i = j

/-! ### 45_decode_entry.md -/

/-- R181, R42: the word that `ASSEMBLE` forms of the first four bytes in either byte order; nothing else changes. -/
def Obligations.AssembleFormsTheWord : Prop :=
  ∀ (s : State) (b0 b1 b2 b3 : Byte), 4 ≤ s.request.avail → s.request.buf.read 0 = b0 → s.request.buf.read 1 = b1 →
    s.request.buf.read 2 = b2 → s.request.buf.read 3 = b3 →
    ∃ w : Word, exec .assemble s = .next { s with work := { s.work with word := w } } ∧
      w.toNat = (if s.cfg.bigEndian then b0.toNat * 2 ^ 24 + b1.toNat * 2 ^ 16 + b2.toNat * 2 ^ 8 + b3.toNat
        else b3.toNat * 2 ^ 24 + b2.toNat * 2 ^ 16 + b1.toNat * 2 ^ 8 + b0.toNat) ∧
      (s.cfg.bigEndian = true → w = b0 ++ b1 ++ b2 ++ b3) ∧ (s.cfg.bigEndian = false → w = b3 ++ b2 ++ b1 ++ b0)

/-- R42: the same bytes in reverse order with the flag flipped give the same response. -/
def Obligations.EndiannessRoundTrip : Prop :=
  ∀ s t : State, 4 ≤ s.request.avail → 4 ≤ t.request.avail → t.roms = s.roms →
    t.cfg = { s.cfg with bigEndian := !s.cfg.bigEndian } →
    (∀ i < 4, t.request.buf.read i = s.request.buf.read (3 - i)) → decodeResponse t = decodeResponse s

/-- R185: fewer than four bytes fail at once, whatever the rest of the state is.  That the block clears `REQ` is the model's choice
(log entry 25). -/
def Obligations.ShortBufferFails : Prop :=
  ∀ s : State, s.request.avail < 4 →
    ∃ t, exec .decode s = .next t ∧ t.response =
        { rsp := true, status := .fail, outRec := { opcode := 0, ops := [], len := 0#3 }, consumed := 0#3 } ∧
      t.work.phase = .idle ∧ t.request = { s.request with req := false } ∧ t.inputs = s.inputs ∧ t.cfg = s.cfg ∧
      t.roms = s.roms

/-- R182: `ORDER` lists the active extension tables in ascending number and then the primary table. -/
def Obligations.OrderOfTables : Prop :=
  ∀ ext : List Bool, ∃ l : List Nat, tableOrder ext = l ++ [0] ∧ l.Pairwise (· < ·) ∧
    ∀ k, k ∈ l ↔ 1 ≤ k ∧ ext[k - 1]? = some true

/-- R183, R180: the call ends with the record of the first table of `ORDER` whose attempt succeeds, its length written; that the
block clears `REQ` is the model's choice (log entry 25).  The second clause says when `DECODE` completes in terms of the state
alone: the tables before `t` have no record for the word, table `t` answers a leaf of at most `MAXFIELDS` fields, and its fields
resolve from the fresh record.  That `ORDER` is empty after the call, and that `RAW` is then the value that the succeeding attempt
alone leaves, hence its value from before the call where the leaf has no fields, whatever a failed attempt extracted, is the
model's choice (log entry 13). -/
def Obligations.FirstSuccessEndsTheCall : Prop :=
  (∀ (s : State) (before after : List Nat) (t : Nat) (rec : Record), 4 ≤ s.request.avail →
    tableOrder s.cfg.ext = before ++ t :: after → (∀ k ∈ before, AttemptFails k s.assembledCall) →
    AttemptSucceeds t s.assembledCall rec →
    ∃ u, exec .decode s = .next u ∧
      u.response = { rsp := true, status := .success, outRec := { rec with len := 4#3 }, consumed := 4#3 } ∧
      u.work.phase = .idle ∧ u.work.tidx = t ∧ u.work.record = { rec with len := 4#3 } ∧
      u.request = { s.request with req := false } ∧ u.inputs = s.inputs ∧ u.cfg = s.cfg ∧ u.roms = s.roms) ∧
  ∀ (s : State) (before after : List Nat) (t : Nat) (rows : List TableRow) (l : Leaf) (word : Word) (raw : U64)
      (rec : Record),
    4 ≤ s.request.avail → word = assembled s.cfg s.request → tableOrder s.cfg.ext = before ++ t :: after →
    (∀ k ∈ before, ∃ c, attemptTable s.env word s.work.raw k = .fail c) →
    s.roms.tables[t]? = some rows → matchRows rows word s.cfg.features = some l →
    l.nfields ≤ s.roms.params.maxFields →
    runFields s.env word (leafFields l) s.work.raw ⟨l.opcode, [], 0#3⟩ = .ok (raw, rec) →
    ∃ u, exec .decode s = .next u ∧ SameInputs s u ∧
      u.response = { rsp := true, status := .success, outRec := { rec with len := 4#3 }, consumed := 4#3 } ∧
      u.work.word = word ∧ u.work.raw = raw ∧ u.work.leaf = l ∧ u.work.record = { rec with len := 4#3 } ∧
      u.work.tidx = t ∧ u.work.fidx = l.nfields ∧ u.work.order = [] ∧ u.work.phase = .idle ∧
      u.aux.grain = s.aux.grain ∧ rec.opcode = l.opcode ∧ rec.n ≤ s.roms.params.maxOps

/-- R184: when every table tried fails, the response is `Fail`, no instruction and length 0.  That the block clears `REQ` is the
model's choice (log entry 25). -/
def Obligations.AllTablesFailed : Prop :=
  ∀ s : State, 4 ≤ s.request.avail → (∀ k ∈ tableOrder s.cfg.ext, AttemptFails k s.assembledCall) →
    ∃ u, exec .decode s = .next u ∧ u.response =
        { rsp := true, status := .fail, outRec := { opcode := 0, ops := [], len := 0#3 }, consumed := 0#3 } ∧
      u.work.phase = .idle ∧ u.work.record = Record.empty ∧ u.request = { s.request with req := false } ∧
      u.inputs = s.inputs ∧ u.cfg = s.cfg ∧ u.roms = s.roms

/-- R167: when the attempts against the extension tables fail, the response is that of decoding against the primary table
only: no residue. -/
def Obligations.FallbackLeavesNoResidue : Prop :=
  ∀ s : State, (∀ k ∈ tableOrder s.cfg.ext, k ≠ 0 → AttemptFails k s.assembledCall) →
    decodeResponse s = decodeResponse { s with cfg := { s.cfg with ext := s.cfg.ext.map fun _ => false } }

/-- R25: the response is a function of the request, the configuration and the ROMs: neither what the working state holds
nor the last response has a part in it. -/
def Obligations.ResponseDependsOnRequestOnly : Prop :=
  ∀ s t : State, t.cfg = s.cfg → t.roms = s.roms → t.request.avail = s.request.avail →
    (∀ i < s.request.avail, t.request.byte i = s.request.byte i) → t.request.addr = s.request.addr →
    decodeResponse t = decodeResponse s

/-- R45, R43, U15: `ADDR` and the bytes from position 4 on, and how many they are, change no output. -/
def Obligations.AddressAndLaterBytesIgnored : Prop :=
  ∀ s t : State, t.cfg = s.cfg → t.roms = s.roms → 4 ≤ s.request.avail → 4 ≤ t.request.avail →
    (∀ i < 4, t.request.byte i = s.request.byte i) → decodeResponse t = decodeResponse s

/-! ### 44_matcher_dispatch.md R169: the fixture leaves (log entry 12), in a build with the default parameters -/

/-- `FX_ADDI` and `FX_ORI`: the call on the word ends with its record (log entry 12). -/
def Obligations.FixtureImmediateForms : Prop :=
  ∀ (r a : BitVec 5) (v : BitVec 16) (s : State) (g h z : RegId), s.roms.params = Config.params →
    (bankTable s.roms.bank .gpr)[r.toNat]? = some g →
    (bankTable s.roms.bank .gpr)[a.toNat]? = some h → (bankTable s.roms.bank .gprz)[a.toNat]? = some z →
    (∃ t, exec (.fxAddi r a v) s = .next t ∧ SameInputs s t ∧ t.work.phase = .idle ∧ t.response =
      { rsp := true, status := .success, consumed := 4#3,
        outRec := { opcode := 1, ops := [.reg g, .reg z, .imm (v.signExtend 64)], len := 4#3 } }) ∧
    ∃ t, exec (.fxOri r a v) s = .next t ∧ SameInputs s t ∧ t.work.phase = .idle ∧ t.response =
      { rsp := true, status := .success, consumed := 4#3,
        outRec := { opcode := 10, ops := [.reg h, .reg g, .imm (v.setWidth 64)], len := 4#3 } }

/-- `FX_LWZ`, `FX_LWZU` and `FX_STWU` under the policies of `POLICY_ROM_REF`; with `CHK_BASE0` = 1 the calls on the update
forms with the base index 0 fail (R147; log entry 12). -/
def Obligations.FixtureMemoryForms : Prop :=
  ∀ (r a : BitVec 5) (d : BitVec 16) (s : State) (g z : RegId), s.roms.params = Config.params →
    s.roms.policy = Fixtures.policyRef →
    (bankTable s.roms.bank .gpr)[r.toNat]? = some g → (bankTable s.roms.bank .gprz)[a.toNat]? = some z →
    (∃ t, exec (.fxLwz r a d) s = .next t ∧ SameInputs s t ∧ t.work.phase = .idle ∧ t.response =
      { rsp := true, status := .success, consumed := 4#3,
        outRec := { opcode := 2, ops := [.reg g, .imm (d.signExtend 64), .reg z], len := 4#3 } }) ∧
    (s.cfg.chkBase0 = false ∨ a ≠ 0#5 →
      (∃ t, exec (.fxLwzu r a d) s = .next t ∧ SameInputs s t ∧ t.work.phase = .idle ∧ t.response =
        { rsp := true, status := .success, consumed := 4#3,
          outRec := { opcode := 3, ops := [.reg z, .reg g, .imm (d.signExtend 64), .reg z], len := 4#3 } }) ∧
      ∃ t, exec (.fxStwu r a d) s = .next t ∧ SameInputs s t ∧ t.work.phase = .idle ∧ t.response =
        { rsp := true, status := .success, consumed := 4#3,
          outRec := { opcode := 4, ops := [.reg g, .reg z, .imm (d.signExtend 64), .reg z], len := 4#3 } }) ∧
    (s.cfg.chkBase0 = true → a = 0#5 →
      (∃ t, exec (.fxLwzu r a d) s = .next t ∧ SameInputs s t ∧ t.work.phase = .idle ∧ t.response =
        { rsp := true, status := .fail, consumed := 0#3, outRec := { opcode := 0, ops := [], len := 0#3 } }) ∧
      ∃ t, exec (.fxStwu r a d) s = .next t ∧ SameInputs s t ∧ t.work.phase = .idle ∧ t.response =
        { rsp := true, status := .fail, consumed := 0#3, outRec := { opcode := 0, ops := [], len := 0#3 } })

/-- `FX_LDU` and `FX_STDU`: the scaled displacement, the register of bank `G64`, the base of bank `GPRZ`; with `CHK_BASE0`
= 1 and the base index 0 the calls fail (R147; log entry 12). -/
def Obligations.FixtureScaledMemoryForms : Prop :=
  ∀ (r a : BitVec 5) (ds : BitVec 14) (s : State) (g z : RegId), s.roms.params = Config.params →
    s.roms.policy = Fixtures.policyRef →
    (bankTable s.roms.bank .g64)[r.toNat]? = some g → (bankTable s.roms.bank .gprz)[a.toNat]? = some z →
    (s.cfg.chkBase0 = false ∨ a ≠ 0#5 →
      (∃ t, exec (.fxLdu r a ds) s = .next t ∧ SameInputs s t ∧ t.work.phase = .idle ∧ t.response =
        { rsp := true, status := .success, consumed := 4#3,
          outRec :=
            { opcode := 5, len := 4#3
              ops := [.reg z, .reg g, .imm ((ds ++ 0#2 : BitVec 16).signExtend 64), .reg z] } }) ∧
      ∃ t, exec (.fxStdu r a ds) s = .next t ∧ SameInputs s t ∧ t.work.phase = .idle ∧ t.response =
        { rsp := true, status := .success, consumed := 4#3,
          outRec :=
            { opcode := 6, len := 4#3
              ops := [.reg g, .reg z, .imm ((ds ++ 0#2 : BitVec 16).signExtend 64), .reg z] } }) ∧
    (s.cfg.chkBase0 = true → a = 0#5 →
      (∃ t, exec (.fxLdu r a ds) s = .next t ∧ SameInputs s t ∧ t.work.phase = .idle ∧ t.response =
        { rsp := true, status := .fail, consumed := 0#3, outRec := { opcode := 0, ops := [], len := 0#3 } }) ∧
      ∃ t, exec (.fxStdu r a ds) s = .next t ∧ SameInputs s t ∧ t.work.phase = .idle ∧ t.response =
        { rsp := true, status := .fail, consumed := 0#3, outRec := { opcode := 0, ops := [], len := 0#3 } })

/-- `FX_MFOCRF`: a one-hot mask ends with the group's register, under both settings of `CHECK`.  With another mask under
`FAIL_CLOSED`, no table being left, the call fails; under `TRUST` the lowest set bit decides and the mask 0 is refused (log entry
12). -/
def Obligations.FixtureMaskForm : Prop :=
  ∀ (r : BitVec 5) (m : BitVec 8) (x y : BitVec 1) (s : State) (g : RegId), s.roms.params = Config.params →
    (bankTable s.roms.bank .gpr)[r.toNat]? = some g →
    (∀ p ≤ 7, m.getLsbD p = true → (∀ j < p, m.getLsbD j = false) → m.toNat = 2 ^ p ∨ s.cfg.check = .trust →
      ∀ c, (bankTable s.roms.bank .cr)[7 - p]? = some c →
      ∃ t, exec (.fxMfocrf r m x y) s = .next t ∧ SameInputs s t ∧ t.work.phase = .idle ∧ t.response =
        { rsp := true, status := .success, consumed := 4#3,
          outRec := { opcode := 7, ops := [.reg g, .reg c], len := 4#3 } }) ∧
    ((∀ p ≤ 7, m.toNat ≠ 2 ^ p) → s.cfg.check = .failClosed →
      ∃ t, exec (.fxMfocrf r m x y) s = .next t ∧ SameInputs s t ∧ t.work.phase = .idle ∧ t.response =
        { rsp := true, status := .fail, consumed := 0#3, outRec := { opcode := 0, ops := [], len := 0#3 } }) ∧
    (m = 0#8 → s.cfg.check = .trust → exec (.fxMfocrf r m x y) s = .refused .maskPosition)

/-- `FX_FADD`, `FX_VADD` and `FX_PFADD`: three registers of the leaf's bank (log entry 12).  That `FX_PFADD` completes with
the extension mode off too, where its table is not in `ORDER`, is the model's choice (log entry 12). -/
def Obligations.FixtureThreeRegisterForms : Prop :=
  ∀ (x y z : BitVec 5) (bit0 : BitVec 1) (s : State) (a b c : RegId), s.roms.params = Config.params →
    ((bankTable s.roms.bank .fpd)[x.toNat]? = some a → (bankTable s.roms.bank .fpd)[y.toNat]? = some b →
      (bankTable s.roms.bank .fpd)[z.toNat]? = some c →
      ∃ t, exec (.fxFadd x y z bit0) s = .next t ∧ SameInputs s t ∧ t.work.phase = .idle ∧ t.response =
        { rsp := true, status := .success, consumed := 4#3,
          outRec := { opcode := 8, ops := [.reg a, .reg b, .reg c], len := 4#3 } }) ∧
    ((bankTable s.roms.bank .vec)[x.toNat]? = some a → (bankTable s.roms.bank .vec)[y.toNat]? = some b →
      (bankTable s.roms.bank .vec)[z.toNat]? = some c →
      ∃ t, exec (.fxVadd x y z) s = .next t ∧ SameInputs s t ∧ t.work.phase = .idle ∧ t.response =
        { rsp := true, status := .success, consumed := 4#3,
          outRec := { opcode := 9, ops := [.reg a, .reg b, .reg c], len := 4#3 } }) ∧
    ((bankTable s.roms.bank .pf0)[x.toNat]? = some a → (bankTable s.roms.bank .pf0)[y.toNat]? = some b →
      (bankTable s.roms.bank .pf0)[z.toNat]? = some c →
      ∃ t, exec (.fxPfadd x y z) s = .next t ∧ SameInputs s t ∧ t.work.phase = .idle ∧ t.response =
        { rsp := true, status := .success, consumed := 4#3,
          outRec := { opcode := 0x101, ops := [.reg a, .reg b, .reg c], len := 4#3 } })

/-! ### The sequencing -/

/-- R17, R163, R180, R187, U7 and log entry 1: what a step runs.  A descriptor at the cursor that decodes to `i`: the step
is `exec i`.  A leaf that the table answers: the step is its header's operation in the state with the leaf latched, for a
header of 32 bits what its word decodes to.
A request between calls: the step is `DECODE`.  No request: the step leaves the state.  A request during a call: refused. -/
def Obligations.StepRunsTheDecodedOperation : Prop :=
  (∀ (s : State) (i : Instr), s.work.phase = .resolving → s.request.req = false →
    s.work.fidx < s.work.leaf.nfields → decodeWord .descriptor (s.work.leaf.fds.getD s.work.fidx 0#32) = .ok i →
    step s = exec i s) ∧
  (∀ (s : State) (rows : List TableRow) (l : Leaf), s.work.phase = .matching → s.request.req = false →
    s.roms.tables[s.work.tidx]? = some rows → matchRows rows s.work.word s.cfg.features = some l →
    step s = exec (decodeHeader l.header) { s with work := { s.work with leaf := l } } ∧
    ∀ (w : Word) (i : Instr), l.header = w.toNat → decodeWord .header w = .ok i →
      step s = exec i { s with work := { s.work with leaf := l } }) ∧
  (∀ s : State, s.work.phase = .idle → s.request.req = true → s.aux.grain = .call → step s = exec .decode s) ∧
  (∀ s : State, s.work.phase = .idle → s.request.req = false → step s = .next s) ∧
  ∀ s : State, s.work.phase ≠ .idle → s.request.req = true → step s = .refused .requestDuringCall

/-- R169 and log entries 10, 12: with the fixture tables, a request whose first four bytes decode to the instruction `i` of
a fixture table is run as `exec i` in one step: a leaf of `T_REF0` with the extension mode off, or on when `T_REF1` has
no leaf for the word; the leaf of `T_REF1` with the mode on. -/
def Obligations.StepRunsTheInstructionWord : Prop :=
  ∀ (s : State) (sp : Space) (i : Instr) (rest : List Byte), s.work.phase = .idle → s.request.req = true →
    s.aux.grain = .call → 4 ≤ s.request.avail → s.roms.tables = [Fixtures.tRef0, Fixtures.tRef1] →
    decodeBytes s.cfg.bigEndian sp ([s.request.buf.read 0, s.request.buf.read 1, s.request.buf.read 2,
      s.request.buf.read 3] ++ rest) = .ok (i, rest) →
    (sp = .primary ∧ s.cfg.ext = [false]) ∨
      (sp = .primary ∧ s.cfg.ext = [true] ∧ decodeExtension s.assembledCall.work.word = none) ∨
      (sp = .extension ∧ s.cfg.ext = [true]) →
    step s = exec i s

/-- R17, R207: at a field the cursor moves by exactly 1, or the attempt fails: the record is discarded and the next table
of `ORDER` is tried, and with none left the call fails. -/
def Obligations.StepMovesTheCursor : Prop :=
  ∀ s t : State, s.work.phase = .resolving → s.work.fidx < s.work.leaf.nfields → step s = .next t →
    t.work.word = s.work.word ∧ t.work.leaf = s.work.leaf ∧ SameInputs s t ∧
    ((t.work.phase = .resolving ∧ t.work.tidx = s.work.tidx ∧ t.work.order = s.work.order ∧
        t.work.fidx = s.work.fidx + 1 ∧ t.work.record.opcode = s.work.record.opcode ∧
        t.work.record.len = s.work.record.len ∧ s.work.record.n < t.work.record.n ∧ t.response = s.response) ∨
      (t.work.record = Record.empty ∧ t.work.fidx = 0 ∧
        ((∃ k rest, s.work.order = k :: rest ∧ t.work.tidx = k ∧ t.work.order = rest ∧ t.work.phase = .matching ∧
            t.response = s.response) ∨
          (s.work.order = [] ∧ t.work.phase = .idle ∧ t.response =
            { rsp := true, status := .fail, outRec := { opcode := 0, ops := [], len := 0#3 }, consumed := 0#3 }))))

/-- R12, R46, R55: no operation and no step writes the configuration, the bytes, their number or the address, as the host
drives them and as they were sampled, the ROMs and the parameters, nor chooses the grain. -/
def Obligations.InputsAndRomsAreNeverWritten : Prop :=
  (∀ (i : Instr) (s t : State), exec i s = .next t →
    SameInputs s t ∧ (∀ a, t.request.buf.read a = s.request.buf.read a) ∧ t.aux.grain = s.aux.grain) ∧
  ∀ s t : State, step s = .next t →
    SameInputs s t ∧ (∀ a, t.request.buf.read a = s.request.buf.read a) ∧ t.aux.grain = s.aux.grain

/-- R19: a step that changes an output has ended the call, and all outputs are those of a success or of a failure.  That no request
is pending then is the model's choice (log entries 15, 25). -/
def Obligations.OutputsChangeAtTheEndOfACallOnly : Prop :=
  ∀ s t : State, step s = .next t →
    (t.response.status = s.response.status ∧ t.response.outRec = s.response.outRec ∧
        t.response.consumed = s.response.consumed) ∨
      (t.work.phase = .idle ∧ t.request.req = false ∧
        ((∃ rec : Record, t.response = { rsp := true, status := .success, outRec := { rec with len := 4#3 }, consumed := 4#3 }) ∨
          t.response =
            { rsp := true, status := .fail, outRec := { opcode := 0, ops := [], len := 0#3 }, consumed := 0#3 }))

/-- R9: under `FAIL_CLOSED` no operation is refused, and a call ends as a success or as a failure.  A step is refused only
for a request during a call; that it is refused there whatever `CHECK` is, is the model's choice (U7, log entry 15). -/
def Obligations.FailClosedNeverRefuses : Prop :=
  ∀ s : State, s.cfg.check = .failClosed →
    (∀ i : Instr, ∃ t, exec i s = .next t) ∧
    (∃ r, decodeResponse s = some r ∧ (r.status = .success ∨ r.status = .fail)) ∧
    (s.work.phase = .idle ∨ s.request.req = false → ∃ t, step s = .next t)

/-- R205, R151: an attempt that succeeds under `FAIL_CLOSED` succeeds under `TRUST` with the same record, and one that
succeeds under `TRUST` succeeds under `FAIL_CLOSED` with the same record unless it meets a mask that is not one-hot. -/
def Obligations.CheckSettingsAgree : Prop :=
  ∀ (t : Nat) (s : State),
    (∀ rec, AttemptSucceeds t { s with cfg := { s.cfg with check := .failClosed } } rec →
      AttemptSucceeds t { s with cfg := { s.cfg with check := .trust } } rec) ∧
    ∀ rec, AttemptSucceeds t { s with cfg := { s.cfg with check := .trust } } rec →
      AttemptSucceeds t { s with cfg := { s.cfg with check := .failClosed } } rec ∨
      ∃ u, exec (.attempt t) { s with cfg := { s.cfg with check := .failClosed } } = .next u ∧
        u.aux.result = .attempt none ∧ u.aux.attemptCause = some .onehot

/-! ### 10_state.md R26, the invariant, and the two grains -/

/-- R26, R230 a: the outputs and the configuration inputs with a reset value after power-on reset of any state; it touches
nothing else.  That `MODE` is kept, that the reset state has no request and stands between calls, and so that its step does
nothing, are the model's choices (log entries 2, 3, 4); that a call in progress stays as it is, is log entry 26. -/
def Obligations.ResetValues : Prop :=
  (∀ s : State, (powerOn s).response.status = .fail ∧ (powerOn s).response.consumed = 0#3 ∧
    (powerOn s).response.outRec = { opcode := 0, ops := [], len := 0#3 } ∧
    (∀ i, (powerOn s).inputs.cfg.features.enabled i = true) ∧ (powerOn s).inputs.cfg.check = .failClosed ∧
    (powerOn s).inputs.cfg.chkBase0 = false ∧ (powerOn s).inputs.cfg.bigEndian = s.inputs.cfg.bigEndian ∧
    (powerOn s).inputs.cfg.ext = s.inputs.cfg.ext ∧ (powerOn s).inputs.buf = s.inputs.buf ∧
    (powerOn s).inputs.avail = s.inputs.avail ∧ (powerOn s).inputs.addr = s.inputs.addr ∧ (powerOn s).cfg = s.cfg ∧
    (powerOn s).roms = s.roms ∧ (powerOn s).work = s.work ∧ (powerOn s).request = s.request) ∧
  powerOn State.reset = State.reset ∧ step State.reset = .next State.reset

/-- The invariant holds in the reset state, whose working state and request are the model's choice (log entries 3, 4) and
whose bank tables may be any that meet their contract (R101, R118; log entry 5). -/
def Obligations.ResetIsWellFormed : Prop := State.reset.wf

/-- Every step keeps the well-formed states: the buffers' canonical form, the contract of the bank tables, the bound of the
operand list, operands that are immediates or identifiers of a bank table, opcode ids of their width, the form of the
response, and the cursors' places in `ORDER` and in the leaf (R11, R15, R16, R17, R19, R101, R118). -/
def Obligations.StepKeepsWellFormed : Prop := ∀ s t : State, s.wf → step s = .next t → t.wf

/-- R8, R17, R25: the call as one step and the call run cursor move by cursor move end with the same response, and one is
refused exactly when the other is.  The number of moves is bounded by the tables and `MAXFIELDS`; the machine is at rest
when they are done.  The two grains are the model's choice (log entry 1). -/
def Obligations.CursorRunIsTheCall : Prop :=
  ∀ s : State, s.work.phase = .idle → s.request.req = true →
    match step { s with aux := { s.aux with grain := .call } } with
    | .next t => ∃ u, runSteps ((s.roms.params.maxFields + 2) * (s.cfg.ext.length + 2))
          { s with aux := { s.aux with grain := .cursor } } = .next u ∧
        u.response = t.response ∧ u.work.phase = .idle ∧ u.request = t.request ∧
        u.inputs = t.inputs ∧ u.cfg = t.cfg ∧ u.roms = t.roms
    | .fault _ => False
    | .refused r => runSteps ((s.roms.params.maxFields + 2) * (s.cfg.ext.length + 2))
          { s with aux := { s.aux with grain := .cursor } } = .refused r

/-- R188, R168: from every well-formed state inside a call with no new request the call ends within a bounded number of
steps under `FAIL_CLOSED`, its response written. -/
def Obligations.EveryCallEnds : Prop :=
  ∀ s : State, s.wf → s.work.phase ≠ .idle → s.request.req = false → s.cfg.check = .failClosed →
    ∃ t, runSteps ((s.roms.params.maxFields + 2) * (s.cfg.ext.length + 2)) s = .next t ∧ t.work.phase = .idle ∧
      t.response.rsp = true

/-! ### 30_encoding.md -/

/-- R61, R62, R169: decoding an encoded operation gives it back with every operand, from the word and from its bytes in
both orders, whatever bytes follow. -/
def Obligations.DecodeEncodeRoundTrip : Prop :=
  ∀ (i : Instr) (sp : Space) (w : Word), encode i = some (sp, w) →
    decodeWord sp w = .ok i ∧
      ∀ (bigEndian : Bool) (rest : List Byte),
        decodeBytes bigEndian sp (wordBytes bigEndian w ++ rest) = .ok (i, rest)

/-- R73, R169: encoding a decoded word gives it back but for the reserved bits `FD[8:0]` and `LEAF[11:0]`, which the
decoder ignores. -/
def Obligations.EncodeDecodedWord : Prop :=
  ∀ (sp : Space) (w : Word) (i : Instr), decodeWord sp w = .ok i →
    encode i = some (sp, match sp with
      | .descriptor => w &&& 0xFFFFFE00#32
      | .header => w &&& 0xFFFFF000#32
      | .primary => w
      | .extension => w)

/-- R63, R76: the class codes, each at its class: the thirteen register classes at their banks' numbers, the five others,
and no other code (R72). -/
def Obligations.ClassCodes : Prop :=
  (OperandClass.ofCode 1#5 = some (.reg .gpr) ∧ OperandClass.ofCode 2#5 = some (.reg .gprz) ∧
    OperandClass.ofCode 3#5 = some (.reg .g64) ∧ OperandClass.ofCode 4#5 = some (.reg .fps) ∧
    OperandClass.ofCode 5#5 = some (.reg .fpd) ∧ OperandClass.ofCode 6#5 = some (.reg .vec) ∧
    OperandClass.ofCode 7#5 = some (.reg .vsxl) ∧ OperandClass.ofCode 8#5 = some (.reg .vsxh) ∧
    OperandClass.ofCode 9#5 = some (.reg .vsf) ∧ OperandClass.ofCode 10#5 = some (.reg .cr) ∧
    OperandClass.ofCode 11#5 = some (.reg .crb) ∧ OperandClass.ofCode 12#5 = some (.reg .pf0) ∧
    OperandClass.ofCode 13#5 = some (.reg .pf1)) ∧
  (∀ b : Bank, OperandClass.ofCode (BitVec.ofNat 5 b.number) = some (.reg b)) ∧
  OperandClass.ofCode 16#5 = some .uimm ∧ OperandClass.ofCode 17#5 = some .simm ∧
  OperandClass.ofCode 24#5 = some .memri ∧ OperandClass.ofCode 25#5 = some .memrix ∧
  OperandClass.ofCode 26#5 = some .crbitm ∧
  ∀ fd : Word, (∃ i, decodeWord .descriptor fd = .ok i) ↔
    (1 ≤ fd.toNat / 2 ^ 27 ∧ fd.toNat / 2 ^ 27 ≤ 13) ∨
      fd.toNat / 2 ^ 27 = 16 ∨ fd.toNat / 2 ^ 27 = 17 ∨ (24 ≤ fd.toNat / 2 ^ 27 ∧ fd.toNat / 2 ^ 27 ≤ 26)

/-- Words written out from the spec's formats and 95_test_vectors.md section 3 decode to what they stand for. -/
def Obligations.SampleWordsDecode : Prop :=
  decodeWord .descriptor 0x0E6A0000#32 = .ok (.gpr 25 21 0) ∧
  decodeWord .descriptor 0xC5000200#32 = .ok (.memri 20 0 1) ∧
  decodeWord .descriptor 0xD4D80200#32 = .ok (.crbitm 19 12 1) ∧
  decodeWord .header 0x01013000#32 = .ok (.leaf 0x0101 3) ∧
  decodeWord .primary 0x94250010#32 = .ok (.fxStwu 1 5 0x0010) ∧
  decodeWord .primary 0xF821FF91#32 = .ok (.fxStdu 1 1 0x3FE4) ∧
  decodeWord .primary 0x00000000#32 = .error .noLeaf ∧
  decodeWord .extension 0x10432000#32 = .ok (.fxPfadd 2 3 4)

/-- R66, R67, R70: the output port.  `REC` shows the opcode id, the count and the length, the filled slots with their tags
and payloads, and every other slot as `EMPTY`; `STATUS` is 1 for `Success` and 0 for `Fail`; `CONSUMED` is the response's,
4 with `Success` and 0 with `Fail` in every well-formed response; `RSP` says whether the response is valid.  With the
default parameters `OUT_REC` has 16 + 4 + 3 + 8 * 66 = 551 bits. -/
def Obligations.OutputPortMasksUnusedSlots : Prop :=
  (∀ (p : Params) (r : Response), r.outRec.n ≤ p.maxOps → r.outRec.opcode < 2 ^ p.opcW →
    (r.port p).slots.length = p.maxOps ∧ (r.port p).n.toNat = r.outRec.n ∧
    (r.port p).opcode.toNat = r.outRec.opcode ∧ (r.port p).len = r.outRec.len ∧
    (r.port p).rsp = (if r.rsp then 1#1 else 0#1) ∧ (r.status = .success → (r.port p).status = 1#1) ∧
    (r.status = .fail → (r.port p).status = 0#1) ∧ (r.port p).consumed = r.consumed ∧
    ∀ i < p.maxOps, ∃ slot, (r.port p).slots[i]? = some slot ∧
      (∀ id, r.outRec.ops[i]? = some (.reg id) → id < 2 ^ 64 → slot.1 = 1#2 ∧ slot.2.toNat = id) ∧
      (∀ v, r.outRec.ops[i]? = some (.imm v) → slot = (2#2, v)) ∧
      (r.outRec.n ≤ i → slot = (0#2, 0#64)) ∧ slot.1 ≠ 3#2) ∧
  (∀ (m : Roms) (r : Response), r.wf m →
    ((r.port m.params).status = 1#1 ∧ (r.port m.params).consumed = 4#3) ∨
      ((r.port m.params).status = 0#1 ∧ (r.port m.params).consumed = 0#3 ∧ (r.port m.params).n.toNat = 0)) ∧
  countWidth Config.params = 4 ∧ recordWidth Config.params = 551

/-! ### The host's side -/

/-- R11, R187: what the host puts on the ports, at any time, stands there and changes nothing else.  Asserting `REQ` between
calls samples the bytes, their number, the address and the configuration (R12); that `RSP` falls then is the model's choice
(log entry 25).  While a call is asked for or runs a request is refused (U7, log entry 23). -/
def Obligations.HostRequestPresentsBytes : Prop :=
  (∀ (bytes : List Byte) (addr : U64) (s : State), ∃ i : Inputs,
    hostPresent bytes addr s = { s with inputs := i } ∧ i.cfg = s.inputs.cfg ∧ i.avail = bytes.length ∧ i.addr = addr ∧
      (∀ k, k < bytes.length → bytes[k]? = some (i.buf.read k)) ∧ i.buf.wf = true ∧ ∀ c ∈ i.buf, c.1 < bytes.length) ∧
  (∀ s : State, s.betweenCalls → ∃ t, hostRequest s = .next t ∧ t.request.req = true ∧ t.cfg = s.inputs.cfg ∧
    t.request.buf = s.inputs.buf ∧ t.request.avail = s.inputs.avail ∧ t.request.addr = s.inputs.addr ∧
    t.inputs = s.inputs ∧ t.roms = s.roms ∧ t.work = s.work ∧ t.aux = s.aux ∧
    t.response = { s.response with rsp := false }) ∧
  (∀ (bytes : List Byte) (addr : U64) (s t : State), hostRequest (hostPresent bytes addr s) = .next t →
    ∀ i, t.request.byte i = bytes[i]?) ∧
  ∀ s : State, ¬s.betweenCalls → hostRequest s = .refused .requestDuringCall

/-- R12, R187, R240: between calls the host writes every field of the configuration and nothing else; while a call is asked
for or runs it does not (log entry 23).  What the host drives on the ports from the assertion of `REQ` on, the configuration
included, has no part in any operation or step: they read what was sampled. -/
def Obligations.ConfigurationIsSampled : Prop :=
  (∀ (cfg : Configuration) (s : State), s.betweenCalls → ∃ t, hostConfigure cfg s = .next t ∧ t.inputs.cfg = cfg ∧
    t.inputs.buf = s.inputs.buf ∧ t.inputs.avail = s.inputs.avail ∧ t.inputs.addr = s.inputs.addr ∧ t.cfg = s.cfg ∧
    t.roms = s.roms ∧ t.request = s.request ∧ t.work = s.work ∧ t.response = s.response ∧ t.aux = s.aux) ∧
  (∀ (cfg : Configuration) (s : State), ¬s.betweenCalls → hostConfigure cfg s = .refused .inputDuringCall) ∧
  (∀ (i : Instr) (s : State) (x : Inputs), exec i { s with inputs := x } =
    match exec i s with
    | .next t => .next { t with inputs := x }
    | .fault f => .fault f
    | .refused r => .refused r) ∧
  ∀ (s : State) (x : Inputs), step { s with inputs := x } =
    match step s with
    | .next t => .next { t with inputs := x }
    | .fault f => .fault f
    | .refused r => .refused r
end

