-- ==== Sys2Proof/Laws/Bits.lean ====
section
/-! SUPPORT. The bits of what the primitives answer, and the masks a test finds one-hot. -/

namespace Sys2Proof.Machine

theorem getLsbD_ofNat64 (x k : Nat) : (BitVec.ofNat 64 x).getLsbD k = (decide (k < 64) && x.testBit k) := by
  simp [BitVec.getLsbD_ofNat]

theorem extract_toNat (word : Word) {hi lo : Nat} (h : hi ≤ 31) :
    (extract word hi lo).toNat = (word.toNat >>> lo) % 2 ^ (hi - lo + 1) := by
  have h1 : (word.toNat >>> lo) % 2 ^ (hi - lo + 1) < 2 ^ (hi - lo + 1) := Nat.mod_lt _ (by positivity)
  have h2 : 2 ^ (hi - lo + 1) ≤ 2 ^ 64 := Nat.pow_le_pow_right (by omega) (by omega)
  simp only [extract, BitVec.toNat_ofNat]
  exact Nat.mod_eq_of_lt (by omega)

/-- A raw field is below two to the power of its width (R90). -/
theorem extract_lt (word : Word) {hi lo : Nat} (h : hi ≤ 31) : (extract word hi lo).toNat < 2 ^ (hi - lo + 1) := by
  rw [extract_toNat word h]
  exact Nat.mod_lt _ (by positivity)

theorem getLsbD_extract (word : Word) {hi lo : Nat} (h : hi ≤ 31) (k : Nat) :
    (extract word hi lo).getLsbD k = (decide (k ≤ hi - lo) && word.getLsbD (lo + k)) := by
  unfold extract
  rw [getLsbD_ofNat64, Nat.testBit_mod_two_pow, Nat.testBit_shiftRight, BitVec.testBit_toNat]
  by_cases hk : k ≤ hi - lo
  · simp [hk, show k < 64 by omega, show k < hi - lo + 1 by omega]
  · simp [hk, show ¬k < hi - lo + 1 by omega]

theorem getLsbD_shl (value : U64) (n k : Nat) :
    (shl value n).getLsbD k = (decide (k < 64) && decide (n ≤ k) && value.getLsbD (k - n)) := by
  unfold shl
  rw [getLsbD_ofNat64, Nat.mul_comm, Nat.testBit_two_pow_mul, BitVec.testBit_toNat]
  simp [Bool.and_assoc]

theorem getLsbD_sext (value : U64) {w : Nat} (h1 : 1 ≤ w) (h2 : w ≤ 64) (k : Nat) :
    (sext value w).getLsbD k = if k < w then value.getLsbD k else (decide (k < 64) && value.getLsbD (w - 1)) := by
  have hlow : value.toNat % 2 ^ w < 2 ^ w := Nat.mod_lt _ (by positivity)
  have hsplit : (2 : Nat) ^ 64 - 2 ^ w = 2 ^ w * (2 ^ (64 - w) - 1) := by
    rw [Nat.mul_sub, ← Nat.pow_add, show w + (64 - w) = 64 by omega, Nat.mul_one]
  unfold sext
  by_cases hs : value.getLsbD (w - 1)
  · rw [if_pos hs, getLsbD_ofNat64, hsplit, Nat.add_comm, Nat.testBit_two_pow_mul_add _ hlow]
    by_cases hk : k < w
    · rw [if_pos hk, if_pos hk, Nat.testBit_mod_two_pow, BitVec.testBit_toNat]
      simp [hk, show k < 64 by omega]
    · simp only [hk, if_false, Nat.testBit_two_pow_sub_one]
      by_cases h64 : k < 64
      · simp [h64, show k - w < 64 - w by omega]
        exact hs
      · simp [h64]
  · rw [if_neg hs, getLsbD_ofNat64, Nat.testBit_mod_two_pow, BitVec.testBit_toNat]
    by_cases hk : k < w
    · simp [hk, show k < 64 by omega]
    · simp [hk, hs]

/-- `CTZ` answers the least position with a 1 bit. -/
theorem ctz_eq_some {value : U64} {i : Nat} :
    ctz value = some i ↔ value.getLsbD i = true ∧ ∀ j < i, value.getLsbD j = false := by
  simp only [ctz, List.find?_range_eq_some, List.mem_range]
  constructor
  · rintro ⟨h1, _, h3⟩
    exact ⟨h1, fun j hj => by simpa using h3 j hj⟩
  · rintro ⟨h1, h2⟩
    refine ⟨h1, ?_, fun j hj => by simpa using h2 j hj⟩
    by_contra h
    rw [BitVec.getLsbD_of_ge value i (by omega)] at h1
    exact absurd h1 (by decide)

/-- `CTZ` has no answer for 0 only. -/
theorem ctz_eq_none {value : U64} : ctz value = none ↔ value = 0#64 := by
  simp only [ctz, List.find?_range_eq_none]
  constructor
  · intro h
    apply BitVec.eq_of_getLsbD_eq
    intro i hi
    simpa using h i hi
  · rintro rfl i _
    simp

theorem onehot8_iff {v : U64} : onehot8 v = true ↔ ∃ i < 8, v.toNat = 2 ^ i := by
  simp [onehot8, List.any_eq_true]

end Sys2Proof.Machine
end

