-- ==== Sys2Proof/Laws/Encoding.lean ====
section
/-! SUPPORT. The fields of the packed words (30_encoding.md R61, R62): a word that is put together of fields gives each of
them back, and its fixed bits are the row's. -/

namespace Sys2Proof

theorem append_toNat {n m : Nat} (x : BitVec n) (y : BitVec m) : (x ++ y).toNat = x.toNat * 2 ^ m + y.toNat := by
  rw [BitVec.toNat_append, Nat.shiftLeft_eq, Nat.mul_comm, ← Nat.two_pow_add_eq_or_of_lt y.isLt]

/-! ### Format LEAF -/

@[simp] theorem headerOpcode_headerOf (opcode : Nat) (nfields : BitVec 4) :
    headerOpcode (headerOf opcode nfields) = opcode := by
  have := nfields.isLt
  change (opcode * 2 ^ 16 + nfields.toNat * 2 ^ 12) / 2 ^ 16 = opcode
  omega

@[simp] theorem headerNfields_headerOf (opcode : OpcId) (nfields : BitVec 4) :
    headerNfields (headerOf opcode nfields) = nfields := by
  apply BitVec.eq_of_toNat_eq
  have := nfields.isLt
  simp only [headerNfields, headerOf, BitVec.toNat_ofNat]
  omega

/-- The header as a word of 32 bits is the header, where its opcode id fits. -/
theorem headerWord_toNat {opcode : Nat} (h : opcode < 2 ^ 16) (nfields : BitVec 4) :
    (headerWord opcode nfields).toNat = headerOf opcode nfields := by
  have := nfields.isLt
  simp only [headerWord, headerOf, append_toNat, BitVec.toNat_ofNat]
  omega

@[simp] theorem decodeHeader_headerOf (opcode : OpcId) (nfields : BitVec 4) :
    decodeHeader (headerOf opcode nfields) = .leaf opcode nfields := by
  simp [decodeHeader]

/-! ### Format FD -/

@[simp] theorem fdClass_fdWord (c : OperandClass) (hi lo : BitVec 5) (fid : BitVec 8) :
    fdClass (fdWord c hi lo fid) = c.code := by
  apply BitVec.eq_of_toNat_eq
  have := c.code.isLt
  have := hi.isLt
  have := lo.isLt
  have := fid.isLt
  simp only [fdClass, fdWord, BitVec.extractLsb'_toNat, append_toNat, Nat.shiftRight_eq_div_pow, BitVec.toNat_ofNat]
  omega

@[simp] theorem fdHi_fdWord (c : OperandClass) (hi lo : BitVec 5) (fid : BitVec 8) :
    fdHi (fdWord c hi lo fid) = hi := by
  apply BitVec.eq_of_toNat_eq
  have := c.code.isLt
  have := hi.isLt
  have := lo.isLt
  have := fid.isLt
  simp only [fdHi, fdWord, BitVec.extractLsb'_toNat, append_toNat, Nat.shiftRight_eq_div_pow, BitVec.toNat_ofNat]
  omega

@[simp] theorem fdLo_fdWord (c : OperandClass) (hi lo : BitVec 5) (fid : BitVec 8) :
    fdLo (fdWord c hi lo fid) = lo := by
  apply BitVec.eq_of_toNat_eq
  have := c.code.isLt
  have := hi.isLt
  have := lo.isLt
  have := fid.isLt
  simp only [fdLo, fdWord, BitVec.extractLsb'_toNat, append_toNat, Nat.shiftRight_eq_div_pow, BitVec.toNat_ofNat]
  omega

@[simp] theorem fdId_fdWord (c : OperandClass) (hi lo : BitVec 5) (fid : BitVec 8) :
    fdId (fdWord c hi lo fid) = fid := by
  apply BitVec.eq_of_toNat_eq
  have := c.code.isLt
  have := hi.isLt
  have := lo.isLt
  have := fid.isLt
  simp only [fdId, fdWord, BitVec.extractLsb'_toNat, append_toNat, Nat.shiftRight_eq_div_pow, BitVec.toNat_ofNat]
  omega

@[simp] theorem ofCode_code (c : OperandClass) : OperandClass.ofCode c.code = some c := by
  cases c with
  | reg b => cases b <;> rfl
  | uimm => rfl
  | simm => rfl
  | memri => rfl
  | memrix => rfl
  | crbitm => rfl

@[simp] theorem decodeDescriptor_fdWord (c : OperandClass) (hi lo : BitVec 5) (fid : BitVec 8) :
    decodeDescriptor (fdWord c hi lo fid) = some (Instr.ofField c hi lo fid) := by
  simp [decodeDescriptor]

/-- The class code stands in the top five bits. -/
theorem fdWord_and_mask (c : OperandClass) (hi lo : BitVec 5) (fid : BitVec 8) :
    fdWord c hi lo fid &&& 0xF8000000#32 = c.code ++ 0#27 := by
  have h : (c.code ++ hi ++ lo ++ fid ++ 0#9) &&& (0x1F#5 ++ 0#5 ++ 0#5 ++ 0#8 ++ 0#9) =
      c.code ++ 0#5 ++ 0#5 ++ 0#8 ++ 0#9 := by
    simp only [BitVec.and_append, BitVec.and_zero]
    rw [show (0x1F#5 : BitVec 5) = BitVec.allOnes 5 from rfl, BitVec.and_allOnes]
  refine Eq.trans h ?_
  apply BitVec.eq_of_toNat_eq
  simp only [append_toNat, BitVec.toNat_ofNat]
  omega

theorem headerWord_and_mask (opcode : OpcId) (nfields : BitVec 4) :
    headerWord opcode nfields &&& 0x00000FFF#32 = 0#32 := by
  have h : (BitVec.ofNat 16 opcode ++ nfields ++ 0#12) &&& (0#16 ++ 0#4 ++ 0xFFF#12) = 0#16 ++ 0#4 ++ 0#12 := by
    simp only [BitVec.and_append, BitVec.and_zero, BitVec.zero_and]
  exact h

/-! ### Format W: the fixture leaves (44_matcher_dispatch.md R169) -/

theorem wordAddi_and_mask (rt ra : BitVec 5) (si : BitVec 16) : wordAddi rt ra si &&& 0xFC000000#32 = 0x38000000#32 := by
  have h : (14#6 ++ rt ++ ra ++ si) &&& (0x3F#6 ++ 0#5 ++ 0#5 ++ 0#16) = 14#6 ++ 0#5 ++ 0#5 ++ 0#16 := by
    simp only [BitVec.and_append, BitVec.and_zero]
    rfl
  exact h

theorem wordLwz_and_mask (rt ra : BitVec 5) (d : BitVec 16) : wordLwz rt ra d &&& 0xFC000000#32 = 0x80000000#32 := by
  have h : (32#6 ++ rt ++ ra ++ d) &&& (0x3F#6 ++ 0#5 ++ 0#5 ++ 0#16) = 32#6 ++ 0#5 ++ 0#5 ++ 0#16 := by
    simp only [BitVec.and_append, BitVec.and_zero]
    rfl
  exact h

theorem wordLwzu_and_mask (rt ra : BitVec 5) (d : BitVec 16) : wordLwzu rt ra d &&& 0xFC000000#32 = 0x84000000#32 := by
  have h : (33#6 ++ rt ++ ra ++ d) &&& (0x3F#6 ++ 0#5 ++ 0#5 ++ 0#16) = 33#6 ++ 0#5 ++ 0#5 ++ 0#16 := by
    simp only [BitVec.and_append, BitVec.and_zero]
    rfl
  exact h

theorem wordStwu_and_mask (rs ra : BitVec 5) (d : BitVec 16) : wordStwu rs ra d &&& 0xFC000000#32 = 0x94000000#32 := by
  have h : (37#6 ++ rs ++ ra ++ d) &&& (0x3F#6 ++ 0#5 ++ 0#5 ++ 0#16) = 37#6 ++ 0#5 ++ 0#5 ++ 0#16 := by
    simp only [BitVec.and_append, BitVec.and_zero]
    rfl
  exact h

theorem wordOri_and_mask (rs ra : BitVec 5) (ui : BitVec 16) : wordOri rs ra ui &&& 0xFC000000#32 = 0x60000000#32 := by
  have h : (24#6 ++ rs ++ ra ++ ui) &&& (0x3F#6 ++ 0#5 ++ 0#5 ++ 0#16) = 24#6 ++ 0#5 ++ 0#5 ++ 0#16 := by
    simp only [BitVec.and_append, BitVec.and_zero]
    rfl
  exact h

theorem wordLdu_and_mask (rt ra : BitVec 5) (ds : BitVec 14) : wordLdu rt ra ds &&& 0xFC000003#32 = 0xE8000001#32 := by
  have h : (58#6 ++ rt ++ ra ++ ds ++ 1#2) &&& (0x3F#6 ++ 0#5 ++ 0#5 ++ 0#14 ++ 3#2) =
      58#6 ++ 0#5 ++ 0#5 ++ 0#14 ++ 1#2 := by
    simp only [BitVec.and_append, BitVec.and_zero]
    rfl
  exact h

theorem wordStdu_and_mask (rs ra : BitVec 5) (ds : BitVec 14) :
    wordStdu rs ra ds &&& 0xFC000003#32 = 0xF8000001#32 := by
  have h : (62#6 ++ rs ++ ra ++ ds ++ 1#2) &&& (0x3F#6 ++ 0#5 ++ 0#5 ++ 0#14 ++ 3#2) =
      62#6 ++ 0#5 ++ 0#5 ++ 0#14 ++ 1#2 := by
    simp only [BitVec.and_append, BitVec.and_zero]
    rfl
  exact h

theorem wordMfocrf_and_mask (rt : BitVec 5) (fxm : BitVec 8) (bit11 bit0 : BitVec 1) :
    wordMfocrf rt fxm bit11 bit0 &&& 0xFC1007FE#32 = 0x7C100026#32 := by
  have h : (31#6 ++ rt ++ 1#1 ++ fxm ++ bit11 ++ 19#10 ++ bit0) &&&
      (0x3F#6 ++ 0#5 ++ 1#1 ++ 0#8 ++ 0#1 ++ 0x3FF#10 ++ 0#1) =
      31#6 ++ 0#5 ++ 1#1 ++ 0#8 ++ 0#1 ++ 19#10 ++ 0#1 := by
    simp only [BitVec.and_append, BitVec.and_zero]
    rfl
  exact h

theorem wordFadd_and_mask (frt fra frb : BitVec 5) (bit0 : BitVec 1) :
    wordFadd frt fra frb bit0 &&& 0xFC0007FE#32 = 0xFC00002A#32 := by
  have h : (63#6 ++ frt ++ fra ++ frb ++ 21#10 ++ bit0) &&& (0x3F#6 ++ 0#5 ++ 0#5 ++ 0#5 ++ 0x3FF#10 ++ 0#1) =
      63#6 ++ 0#5 ++ 0#5 ++ 0#5 ++ 21#10 ++ 0#1 := by
    simp only [BitVec.and_append, BitVec.and_zero]
    rfl
  exact h

theorem wordVadd_and_mask (vrt vra vrb : BitVec 5) : wordVadd vrt vra vrb &&& 0xFC0007FF#32 = 0x10000000#32 := by
  have h : (4#6 ++ vrt ++ vra ++ vrb ++ 0#11) &&& (0x3F#6 ++ 0#5 ++ 0#5 ++ 0#5 ++ 0x7FF#11) =
      4#6 ++ 0#5 ++ 0#5 ++ 0#5 ++ 0#11 := by
    simp only [BitVec.and_append, BitVec.and_zero]
    rfl
  exact h

theorem wordPfadd_and_mask (frt fra frb : BitVec 5) : wordPfadd frt fra frb &&& 0xFC0007FF#32 = 0x10000000#32 :=
  wordVadd_and_mask frt fra frb

/-! ### Bytes -/

theorem assembleWord_toNat (bigEndian : Bool) (b0 b1 b2 b3 : Byte) :
    (assembleWord bigEndian b0 b1 b2 b3).toNat =
      if bigEndian then b0.toNat * 2 ^ 24 + b1.toNat * 2 ^ 16 + b2.toNat * 2 ^ 8 + b3.toNat
      else b3.toNat * 2 ^ 24 + b2.toNat * 2 ^ 16 + b1.toNat * 2 ^ 8 + b0.toNat := by
  have := b0.isLt
  have := b1.isLt
  have := b2.isLt
  have := b3.isLt
  unfold assembleWord
  split <;> simp only [BitVec.toNat_ofNat] <;> omega

/-- The two byte orders read each other's bytes in reverse (20_memory.md R42). -/
theorem assembleWord_reverse (bigEndian : Bool) (b0 b1 b2 b3 : Byte) :
    assembleWord (!bigEndian) b3 b2 b1 b0 = assembleWord bigEndian b0 b1 b2 b3 := by
  cases bigEndian <;> simp [assembleWord]

end Sys2Proof
end

