-- ==== Sys2Proof/Laws/Memory.lean ====
section
/-! SUPPORT. The buffer: a read after a write, and the canonical form, which every operation keeps. -/

namespace Sys2Proof.Machine

@[simp] theorem Memory.read_nil (a : Nat) : Memory.read [] a = Memory.unlisted := rfl

theorem Memory.risingFrom_mono {m : Memory} {low low' : Nat} (h : low ≤ low') (hm : Memory.risingFrom low' m = true) :
    Memory.risingFrom low m = true := by
  cases m with
  | nil => rfl
  | cons c rest =>
    simp only [Memory.risingFrom, Bool.and_eq_true, decide_eq_true_eq] at hm ⊢
    exact ⟨by omega, hm.2⟩

/-- A position below the list's first is not listed. -/
theorem Memory.read_below {m : Memory} {low a : Nat} (hm : Memory.risingFrom low m = true) (h : a < low) :
    Memory.read m a = Memory.unlisted := by
  induction m generalizing low with
  | nil => rfl
  | cons c rest ih =>
    simp only [Memory.risingFrom, Bool.and_eq_true, decide_eq_true_eq] at hm
    have hne : c.1 ≠ a := by omega
    simp [Memory.read, hne, ih hm.2 (by omega)]

theorem Memory.erase_rising {m : Memory} {low : Nat} (a : Nat) (hm : Memory.risingFrom low m = true) :
    Memory.risingFrom low (Memory.erase m a) = true := by
  induction m generalizing low with
  | nil => rfl
  | cons c rest ih =>
    simp only [Memory.risingFrom, Bool.and_eq_true, decide_eq_true_eq] at hm
    by_cases h : c.1 = a
    · simpa [Memory.erase, h] using Memory.risingFrom_mono (by omega) hm.2
    · simp [Memory.erase, h, Memory.risingFrom, hm.1, ih hm.2]

theorem Memory.insert_rising {m : Memory} {low a : Nat} (v : Byte) (ha : low ≤ a)
    (hm : Memory.risingFrom low m = true) : Memory.risingFrom low (Memory.insert m a v) = true := by
  induction m generalizing low with
  | nil => simp [Memory.insert, Memory.risingFrom, ha]
  | cons c rest ih =>
    simp only [Memory.risingFrom, Bool.and_eq_true, decide_eq_true_eq] at hm
    by_cases h : a < c.1
    · simp [Memory.insert, Memory.risingFrom, h, ha, hm.2]
    · by_cases h' : a = c.1
      · subst h'
        simp [Memory.insert, Memory.risingFrom, ha, hm.2]
      · simp [Memory.insert, Memory.risingFrom, h, h', hm.1, ih (by omega : c.1 + 1 ≤ a) hm.2]

theorem Memory.mem_erase {m : Memory} {a : Nat} {c : Host.Cell} (h : c ∈ Memory.erase m a) : c ∈ m := by
  induction m with
  | nil => exact h
  | cons d rest ih =>
    by_cases hd : d.1 = a
    · simp [Memory.erase, hd] at h
      exact List.mem_cons_of_mem _ h
    · simp [Memory.erase, hd] at h
      rcases h with h | h
      · exact h ▸ List.mem_cons_self ..
      · exact List.mem_cons_of_mem _ (ih h)

theorem Memory.mem_insert {m : Memory} {a : Nat} {v : Byte} {c : Host.Cell} (h : c ∈ Memory.insert m a v) :
    c = (a, v) ∨ c ∈ m := by
  induction m with
  | nil => simpa [Memory.insert] using h
  | cons d rest ih =>
    by_cases h1 : a < d.1
    · simpa [Memory.insert, h1] using h
    · by_cases h2 : a = d.1
      · simp [Memory.insert, ← h2] at h
        rcases h with h | h
        · exact .inl h
        · exact .inr (List.mem_cons_of_mem _ h)
      · simp [Memory.insert, h1, h2] at h
        rcases h with h | h
        · exact .inr (h ▸ List.mem_cons_self ..)
        · exact (ih h).imp id (List.mem_cons_of_mem _)

/-- A write keeps the canonical form. -/
theorem Memory.write_wf {m : Memory} (a : Nat) (v : Byte) (hm : m.wf = true) : (m.write a v).wf = true := by
  simp only [Memory.wf, Bool.and_eq_true, List.all_eq_true, bne_iff_ne, ne_eq] at hm ⊢
  by_cases hv : v = Memory.unlisted
  · simp only [Memory.write, hv, if_true]
    exact ⟨Memory.erase_rising a hm.1, fun c hc => hm.2 c (Memory.mem_erase hc)⟩
  · simp only [Memory.write, hv, if_false]
    refine ⟨Memory.insert_rising v (Nat.zero_le _) hm.1, fun c hc => ?_⟩
    rcases Memory.mem_insert hc with h | h
    · exact h ▸ hv
    · exact hm.2 c h

/-- So does a write of consecutive bytes. -/
theorem Memory.writeBytes_wf {m : Memory} (a : Nat) (bs : List Byte) (hm : m.wf = true) :
    (m.writeBytes a bs).wf = true := by
  induction bs generalizing m a with
  | nil => exact hm
  | cons b bs ih => exact ih (a + 1) (Memory.write_wf a b hm)

theorem Memory.read_erase {m : Memory} {low : Nat} (a b : Nat) (hm : Memory.risingFrom low m = true) :
    Memory.read (Memory.erase m a) b = if b = a then Memory.unlisted else Memory.read m b := by
  induction m generalizing low with
  | nil => simp [Memory.erase]
  | cons c rest ih =>
    simp only [Memory.risingFrom, Bool.and_eq_true, decide_eq_true_eq] at hm
    by_cases h : c.1 = a
    · simp only [Memory.erase, h, if_true, Memory.read]
      by_cases hb : b = a
      · subst hb
        rw [if_pos rfl]
        exact Memory.read_below hm.2 (by omega)
      · rw [if_neg hb, if_neg (Ne.symm hb)]
    · simp only [Memory.erase, h, if_false, Memory.read]
      rw [ih hm.2]
      by_cases hb : c.1 = b
      · rw [if_pos hb, if_neg (by omega), if_pos hb]
      · rw [if_neg hb, if_neg hb]

theorem Memory.read_insert (m : Memory) (a b : Nat) (v : Byte) :
    Memory.read (Memory.insert m a v) b = if b = a then v else Memory.read m b := by
  induction m with
  | nil => simp [Memory.insert, Memory.read, eq_comm]
  | cons c rest ih =>
    by_cases h1 : a < c.1
    · simp [Memory.insert, h1, Memory.read, eq_comm]
    · by_cases h2 : a = c.1
      · subst h2
        by_cases hb : b = c.1
        · simp [Memory.insert, Memory.read, hb]
        · simp [Memory.insert, Memory.read, hb, Ne.symm hb]
      · simp only [Memory.insert, h1, h2, if_false, Memory.read, ih]
        by_cases hb : c.1 = b
        · rw [if_pos hb, if_neg (by omega), if_pos hb]
        · rw [if_neg hb, if_neg hb]

/-- A read after a write: the written byte at its position, every other byte as before. -/
theorem Memory.read_write {m : Memory} (a b : Nat) (v : Byte) (hm : m.wf = true) :
    Memory.read (Memory.write m a v) b = if b = a then v else Memory.read m b := by
  simp only [Memory.wf, Bool.and_eq_true] at hm
  by_cases hv : v = Memory.unlisted
  · simp only [Memory.write, hv, if_true]
    exact Memory.read_erase a b hm.1
  · simp only [Memory.write, hv, if_false]
    exact Memory.read_insert m a b v

/-- A read after a write of consecutive bytes. -/
theorem Memory.read_writeBytes {m : Memory} (a b : Nat) (bs : List Byte) (hm : m.wf = true) :
    Memory.read (Memory.writeBytes m a bs) b =
      if a ≤ b then (bs[b - a]?).getD (Memory.read m b) else Memory.read m b := by
  induction bs generalizing m a with
  | nil => simp [Memory.writeBytes]
  | cons v bs ih =>
    simp only [Memory.writeBytes]
    rw [ih (a + 1) (Memory.write_wf a v hm), Memory.read_write a b v hm]
    by_cases h : a + 1 ≤ b
    · have e : b - a = (b - (a + 1)) + 1 := by omega
      have ha : a ≤ b := by omega
      have hba : b ≠ a := by omega
      rw [if_pos h, if_pos ha, if_neg hba, e, List.getElem?_cons_succ]
    · by_cases h' : b = a
      · subst h'
        simp
      · have ha : ¬a ≤ b := by omega
        rw [if_neg h, if_neg h', if_neg ha]

/-- Where the listed positions of a write lie. -/
theorem Memory.mem_write {m : Memory} {a : Nat} {v : Byte} {c : Host.Cell} (h : c ∈ Memory.write m a v) :
    c.1 = a ∨ c ∈ m := by
  by_cases hv : v = Memory.unlisted
  · simp only [Memory.write, hv, if_true] at h
    exact .inr (Memory.mem_erase h)
  · simp only [Memory.write, hv, if_false] at h
    exact (Memory.mem_insert h).imp (fun e => by rw [e]) id

theorem Memory.mem_writeBytes {m : Memory} {a : Nat} {bs : List Byte} {c : Host.Cell}
    (h : c ∈ Memory.writeBytes m a bs) : (a ≤ c.1 ∧ c.1 < a + bs.length) ∨ c ∈ m := by
  induction bs generalizing m a with
  | nil => exact .inr h
  | cons v bs ih =>
    rcases ih h with h | h
    · exact .inl ⟨by omega, by simp only [List.length_cons]; omega⟩
    · rcases Memory.mem_write h with h | h
      · exact .inl ⟨by omega, by simp only [List.length_cons]; omega⟩
      · exact .inr h

end Sys2Proof.Machine
end

