-- ==== Sys2Proof/Laws/State.lean ====
section
/-! SUPPORT. The updates of the state, field by field: what each writes and what it leaves, true by rfl. -/

namespace Sys2Proof.Machine

@[simp] theorem Record.n_empty : Record.empty.n = 0 := rfl
@[simp] theorem Record.n_freshRecord (opc : OpcId) : (freshRecord opc).n = 0 := rfl
@[simp] theorem Record.opcode_freshRecord (opc : OpcId) : (freshRecord opc).opcode = opc := rfl
@[simp] theorem Record.len_freshRecord (opc : OpcId) : (freshRecord opc).len = 0#3 := rfl


/-! ### State.withResult -/

@[simp] theorem State.withResult_cfg (s : State) (v : OpResult) : (s.withResult v).cfg = s.cfg := rfl
@[simp] theorem State.withResult_inputs (s : State) (v : OpResult) : (s.withResult v).inputs = s.inputs := rfl
@[simp] theorem State.withResult_roms (s : State) (v : OpResult) : (s.withResult v).roms = s.roms := rfl
@[simp] theorem State.withResult_request (s : State) (v : OpResult) : (s.withResult v).request = s.request := rfl
@[simp] theorem State.withResult_work (s : State) (v : OpResult) : (s.withResult v).work = s.work := rfl
@[simp] theorem State.withResult_response (s : State) (v : OpResult) : (s.withResult v).response = s.response := rfl
@[simp] theorem State.withResult_aux_result (s : State) (v : OpResult) : (s.withResult v).aux.result = v := rfl
@[simp] theorem State.withResult_aux_grain (s : State) (v : OpResult) : (s.withResult v).aux.grain = s.aux.grain := rfl
@[simp] theorem State.withResult_aux_attemptCause (s : State) (v : OpResult) : (s.withResult v).aux.attemptCause = s.aux.attemptCause := rfl
@[simp] theorem State.withResult_aux_callCause (s : State) (v : OpResult) : (s.withResult v).aux.callCause = s.aux.callCause := rfl

/-! ### State.withRecord -/

@[simp] theorem State.withRecord_cfg (s : State) (r : Record) : (s.withRecord r).cfg = s.cfg := rfl
@[simp] theorem State.withRecord_inputs (s : State) (r : Record) : (s.withRecord r).inputs = s.inputs := rfl
@[simp] theorem State.withRecord_roms (s : State) (r : Record) : (s.withRecord r).roms = s.roms := rfl
@[simp] theorem State.withRecord_request (s : State) (r : Record) : (s.withRecord r).request = s.request := rfl
@[simp] theorem State.withRecord_response (s : State) (r : Record) : (s.withRecord r).response = s.response := rfl
@[simp] theorem State.withRecord_aux (s : State) (r : Record) : (s.withRecord r).aux = s.aux := rfl
@[simp] theorem State.withRecord_work_record (s : State) (r : Record) : (s.withRecord r).work.record = r := rfl
@[simp] theorem State.withRecord_work_word (s : State) (r : Record) : (s.withRecord r).work.word = s.work.word := rfl
@[simp] theorem State.withRecord_work_raw (s : State) (r : Record) : (s.withRecord r).work.raw = s.work.raw := rfl
@[simp] theorem State.withRecord_work_leaf (s : State) (r : Record) : (s.withRecord r).work.leaf = s.work.leaf := rfl
@[simp] theorem State.withRecord_work_tidx (s : State) (r : Record) : (s.withRecord r).work.tidx = s.work.tidx := rfl
@[simp] theorem State.withRecord_work_fidx (s : State) (r : Record) : (s.withRecord r).work.fidx = s.work.fidx := rfl
@[simp] theorem State.withRecord_work_order (s : State) (r : Record) : (s.withRecord r).work.order = s.work.order := rfl
@[simp] theorem State.withRecord_work_phase (s : State) (r : Record) : (s.withRecord r).work.phase = s.work.phase := rfl

/-! ### State.withWord -/

@[simp] theorem State.withWord_cfg (s : State) (w : Word) : (s.withWord w).cfg = s.cfg := rfl
@[simp] theorem State.withWord_inputs (s : State) (w : Word) : (s.withWord w).inputs = s.inputs := rfl
@[simp] theorem State.withWord_roms (s : State) (w : Word) : (s.withWord w).roms = s.roms := rfl
@[simp] theorem State.withWord_request (s : State) (w : Word) : (s.withWord w).request = s.request := rfl
@[simp] theorem State.withWord_response (s : State) (w : Word) : (s.withWord w).response = s.response := rfl
@[simp] theorem State.withWord_aux (s : State) (w : Word) : (s.withWord w).aux = s.aux := rfl
@[simp] theorem State.withWord_work_word (s : State) (w : Word) : (s.withWord w).work.word = w := rfl
@[simp] theorem State.withWord_work_raw (s : State) (w : Word) : (s.withWord w).work.raw = s.work.raw := rfl
@[simp] theorem State.withWord_work_leaf (s : State) (w : Word) : (s.withWord w).work.leaf = s.work.leaf := rfl
@[simp] theorem State.withWord_work_record (s : State) (w : Word) : (s.withWord w).work.record = s.work.record := rfl
@[simp] theorem State.withWord_work_tidx (s : State) (w : Word) : (s.withWord w).work.tidx = s.work.tidx := rfl
@[simp] theorem State.withWord_work_fidx (s : State) (w : Word) : (s.withWord w).work.fidx = s.work.fidx := rfl
@[simp] theorem State.withWord_work_order (s : State) (w : Word) : (s.withWord w).work.order = s.work.order := rfl
@[simp] theorem State.withWord_work_phase (s : State) (w : Word) : (s.withWord w).work.phase = s.work.phase := rfl

/-! ### State.withLeaf -/

@[simp] theorem State.withLeaf_cfg (s : State) (l : Leaf) : (s.withLeaf l).cfg = s.cfg := rfl
@[simp] theorem State.withLeaf_inputs (s : State) (l : Leaf) : (s.withLeaf l).inputs = s.inputs := rfl
@[simp] theorem State.withLeaf_roms (s : State) (l : Leaf) : (s.withLeaf l).roms = s.roms := rfl
@[simp] theorem State.withLeaf_request (s : State) (l : Leaf) : (s.withLeaf l).request = s.request := rfl
@[simp] theorem State.withLeaf_response (s : State) (l : Leaf) : (s.withLeaf l).response = s.response := rfl
@[simp] theorem State.withLeaf_aux (s : State) (l : Leaf) : (s.withLeaf l).aux = s.aux := rfl
@[simp] theorem State.withLeaf_work_leaf (s : State) (l : Leaf) : (s.withLeaf l).work.leaf = l := rfl
@[simp] theorem State.withLeaf_work_word (s : State) (l : Leaf) : (s.withLeaf l).work.word = s.work.word := rfl
@[simp] theorem State.withLeaf_work_raw (s : State) (l : Leaf) : (s.withLeaf l).work.raw = s.work.raw := rfl
@[simp] theorem State.withLeaf_work_record (s : State) (l : Leaf) : (s.withLeaf l).work.record = s.work.record := rfl
@[simp] theorem State.withLeaf_work_tidx (s : State) (l : Leaf) : (s.withLeaf l).work.tidx = s.work.tidx := rfl
@[simp] theorem State.withLeaf_work_fidx (s : State) (l : Leaf) : (s.withLeaf l).work.fidx = s.work.fidx := rfl
@[simp] theorem State.withLeaf_work_order (s : State) (l : Leaf) : (s.withLeaf l).work.order = s.work.order := rfl
@[simp] theorem State.withLeaf_work_phase (s : State) (l : Leaf) : (s.withLeaf l).work.phase = s.work.phase := rfl

/-! ### State.afterField -/

@[simp] theorem State.afterField_cfg (s : State) (p : U64 × Record) : (s.afterField p).cfg = s.cfg := rfl
@[simp] theorem State.afterField_inputs (s : State) (p : U64 × Record) : (s.afterField p).inputs = s.inputs := rfl
@[simp] theorem State.afterField_roms (s : State) (p : U64 × Record) : (s.afterField p).roms = s.roms := rfl
@[simp] theorem State.afterField_request (s : State) (p : U64 × Record) : (s.afterField p).request = s.request := rfl
@[simp] theorem State.afterField_response (s : State) (p : U64 × Record) : (s.afterField p).response = s.response := rfl
@[simp] theorem State.afterField_aux (s : State) (p : U64 × Record) : (s.afterField p).aux = s.aux := rfl
@[simp] theorem State.afterField_work_raw (s : State) (p : U64 × Record) : (s.afterField p).work.raw = p.1 := rfl
@[simp] theorem State.afterField_work_record (s : State) (p : U64 × Record) : (s.afterField p).work.record = p.2 := rfl
@[simp] theorem State.afterField_work_fidx (s : State) (p : U64 × Record) : (s.afterField p).work.fidx = s.work.fidx + 1 := rfl
@[simp] theorem State.afterField_work_word (s : State) (p : U64 × Record) : (s.afterField p).work.word = s.work.word := rfl
@[simp] theorem State.afterField_work_leaf (s : State) (p : U64 × Record) : (s.afterField p).work.leaf = s.work.leaf := rfl
@[simp] theorem State.afterField_work_tidx (s : State) (p : U64 × Record) : (s.afterField p).work.tidx = s.work.tidx := rfl
@[simp] theorem State.afterField_work_order (s : State) (p : U64 × Record) : (s.afterField p).work.order = s.work.order := rfl
@[simp] theorem State.afterField_work_phase (s : State) (p : U64 × Record) : (s.afterField p).work.phase = s.work.phase := rfl

/-! ### accept -/

@[simp] theorem accept_cfg (s : State) : (accept s).cfg = s.cfg := rfl
@[simp] theorem accept_inputs (s : State) : (accept s).inputs = s.inputs := rfl
@[simp] theorem accept_roms (s : State) : (accept s).roms = s.roms := rfl
@[simp] theorem accept_work (s : State) : (accept s).work = s.work := rfl
@[simp] theorem accept_request_req (s : State) : (accept s).request.req = false := rfl
@[simp] theorem accept_request_buf (s : State) : (accept s).request.buf = s.request.buf := rfl
@[simp] theorem accept_request_avail (s : State) : (accept s).request.avail = s.request.avail := rfl
@[simp] theorem accept_request_addr (s : State) : (accept s).request.addr = s.request.addr := rfl
@[simp] theorem accept_response_rsp (s : State) : (accept s).response.rsp = false := rfl
@[simp] theorem accept_response_status (s : State) : (accept s).response.status = s.response.status := rfl
@[simp] theorem accept_response_outRec (s : State) : (accept s).response.outRec = s.response.outRec := rfl
@[simp] theorem accept_response_consumed (s : State) : (accept s).response.consumed = s.response.consumed := rfl
@[simp] theorem accept_aux_grain (s : State) : (accept s).aux.grain = s.aux.grain := rfl
@[simp] theorem accept_aux_result (s : State) : (accept s).aux.result = s.aux.result := rfl
@[simp] theorem accept_aux_attemptCause (s : State) : (accept s).aux.attemptCause = none := rfl
@[simp] theorem accept_aux_callCause (s : State) : (accept s).aux.callCause = none := rfl

/-! ### callFail -/

@[simp] theorem callFail_cfg (c : Cause) (s : State) : (callFail c s).cfg = s.cfg := rfl
@[simp] theorem callFail_inputs (c : Cause) (s : State) : (callFail c s).inputs = s.inputs := rfl
@[simp] theorem callFail_roms (c : Cause) (s : State) : (callFail c s).roms = s.roms := rfl
@[simp] theorem callFail_request (c : Cause) (s : State) : (callFail c s).request = s.request := rfl
@[simp] theorem callFail_response (c : Cause) (s : State) : (callFail c s).response = failResponse := rfl
@[simp] theorem callFail_aux_callCause (c : Cause) (s : State) : (callFail c s).aux.callCause = some c := rfl
@[simp] theorem callFail_aux_attemptCause (c : Cause) (s : State) : (callFail c s).aux.attemptCause = s.aux.attemptCause := rfl
@[simp] theorem callFail_aux_grain (c : Cause) (s : State) : (callFail c s).aux.grain = s.aux.grain := rfl
@[simp] theorem callFail_aux_result (c : Cause) (s : State) : (callFail c s).aux.result = s.aux.result := rfl
@[simp] theorem callFail_work_record (c : Cause) (s : State) : (callFail c s).work.record = Record.empty := rfl
@[simp] theorem callFail_work_fidx (c : Cause) (s : State) : (callFail c s).work.fidx = 0 := rfl
@[simp] theorem callFail_work_order (c : Cause) (s : State) : (callFail c s).work.order = [] := rfl
@[simp] theorem callFail_work_phase (c : Cause) (s : State) : (callFail c s).work.phase = .idle := rfl
@[simp] theorem callFail_work_word (c : Cause) (s : State) : (callFail c s).work.word = s.work.word := rfl
@[simp] theorem callFail_work_raw (c : Cause) (s : State) : (callFail c s).work.raw = s.work.raw := rfl
@[simp] theorem callFail_work_leaf (c : Cause) (s : State) : (callFail c s).work.leaf = s.work.leaf := rfl
@[simp] theorem callFail_work_tidx (c : Cause) (s : State) : (callFail c s).work.tidx = s.work.tidx := rfl

/-! ### callSuccess -/

@[simp] theorem callSuccess_cfg (s : State) : (callSuccess s).cfg = s.cfg := rfl
@[simp] theorem callSuccess_inputs (s : State) : (callSuccess s).inputs = s.inputs := rfl
@[simp] theorem callSuccess_roms (s : State) : (callSuccess s).roms = s.roms := rfl
@[simp] theorem callSuccess_request (s : State) : (callSuccess s).request = s.request := rfl
@[simp] theorem callSuccess_response (s : State) : (callSuccess s).response = successResponse s.work.record := rfl
@[simp] theorem callSuccess_aux_callCause (s : State) : (callSuccess s).aux.callCause = none := rfl
@[simp] theorem callSuccess_aux_attemptCause (s : State) : (callSuccess s).aux.attemptCause = none := rfl
@[simp] theorem callSuccess_aux_grain (s : State) : (callSuccess s).aux.grain = s.aux.grain := rfl
@[simp] theorem callSuccess_aux_result (s : State) : (callSuccess s).aux.result = s.aux.result := rfl
@[simp] theorem callSuccess_work_record_ops (s : State) : (callSuccess s).work.record.ops = s.work.record.ops := rfl
@[simp] theorem callSuccess_work_record_opcode (s : State) : (callSuccess s).work.record.opcode = s.work.record.opcode := rfl
@[simp] theorem callSuccess_work_record_len (s : State) : (callSuccess s).work.record.len = 4#3 := rfl
@[simp] theorem callSuccess_work_order (s : State) : (callSuccess s).work.order = [] := rfl
@[simp] theorem callSuccess_work_phase (s : State) : (callSuccess s).work.phase = .idle := rfl
@[simp] theorem callSuccess_work_word (s : State) : (callSuccess s).work.word = s.work.word := rfl
@[simp] theorem callSuccess_work_raw (s : State) : (callSuccess s).work.raw = s.work.raw := rfl
@[simp] theorem callSuccess_work_leaf (s : State) : (callSuccess s).work.leaf = s.work.leaf := rfl
@[simp] theorem callSuccess_work_tidx (s : State) : (callSuccess s).work.tidx = s.work.tidx := rfl
@[simp] theorem callSuccess_work_fidx (s : State) : (callSuccess s).work.fidx = s.work.fidx := rfl

/-! ### attemptFail -/

theorem attemptFail_nil {c : Cause} {s : State} (h : s.work.order = []) :
    attemptFail c s = callFail .noMatch { s with aux := { s.aux with attemptCause := some c } } := by
  simp [attemptFail, h]

theorem attemptFail_cons {c : Cause} {s : State} {t : Nat} {rest : List Nat} (h : s.work.order = t :: rest) :
    attemptFail c s = { s with
      work := { s.work with record := Record.empty, fidx := 0, tidx := t, order := rest, phase := .matching }
      aux := { s.aux with attemptCause := some c } } := by
  simp [attemptFail, h]

@[simp] theorem attemptFail_cfg (c : Cause) (s : State) : (attemptFail c s).cfg = s.cfg := by
  unfold attemptFail; split <;> rfl
@[simp] theorem attemptFail_inputs (c : Cause) (s : State) : (attemptFail c s).inputs = s.inputs := by
  unfold attemptFail; split <;> rfl
@[simp] theorem attemptFail_roms (c : Cause) (s : State) : (attemptFail c s).roms = s.roms := by
  unfold attemptFail; split <;> rfl
@[simp] theorem attemptFail_request (c : Cause) (s : State) : (attemptFail c s).request = s.request := by
  unfold attemptFail; split <;> rfl
@[simp] theorem attemptFail_work_record (c : Cause) (s : State) : (attemptFail c s).work.record = Record.empty := by
  unfold attemptFail; split <;> rfl
@[simp] theorem attemptFail_work_fidx (c : Cause) (s : State) : (attemptFail c s).work.fidx = 0 := by
  unfold attemptFail; split <;> rfl
@[simp] theorem attemptFail_work_word (c : Cause) (s : State) : (attemptFail c s).work.word = s.work.word := by
  unfold attemptFail; split <;> rfl
@[simp] theorem attemptFail_work_raw (c : Cause) (s : State) : (attemptFail c s).work.raw = s.work.raw := by
  unfold attemptFail; split <;> rfl
@[simp] theorem attemptFail_work_leaf (c : Cause) (s : State) : (attemptFail c s).work.leaf = s.work.leaf := by
  unfold attemptFail; split <;> rfl
@[simp] theorem attemptFail_aux_attemptCause (c : Cause) (s : State) : (attemptFail c s).aux.attemptCause = some c := by
  unfold attemptFail; split <;> rfl
@[simp] theorem attemptFail_aux_grain (c : Cause) (s : State) : (attemptFail c s).aux.grain = s.aux.grain := by
  unfold attemptFail; split <;> rfl
@[simp] theorem attemptFail_aux_result (c : Cause) (s : State) : (attemptFail c s).aux.result = s.aux.result := by
  unfold attemptFail; split <;> rfl

/-! ### afterExtract -/

@[simp] theorem State.afterExtract_cfg (s : State) (hi lo : BitVec 5) : (s.afterExtract hi lo).cfg = s.cfg := by
  unfold State.afterExtract; split <;> rfl
@[simp] theorem State.afterExtract_inputs (s : State) (hi lo : BitVec 5) : (s.afterExtract hi lo).inputs = s.inputs := by
  unfold State.afterExtract; split <;> rfl
@[simp] theorem State.afterExtract_roms (s : State) (hi lo : BitVec 5) : (s.afterExtract hi lo).roms = s.roms := by
  unfold State.afterExtract; split <;> rfl
@[simp] theorem State.afterExtract_request (s : State) (hi lo : BitVec 5) : (s.afterExtract hi lo).request = s.request := by
  unfold State.afterExtract; split <;> rfl
@[simp] theorem State.afterExtract_response (s : State) (hi lo : BitVec 5) : (s.afterExtract hi lo).response = s.response := by
  unfold State.afterExtract; split <;> rfl
@[simp] theorem State.afterExtract_aux (s : State) (hi lo : BitVec 5) : (s.afterExtract hi lo).aux = s.aux := by
  unfold State.afterExtract; split <;> rfl
@[simp] theorem State.afterExtract_work_word (s : State) (hi lo : BitVec 5) :
    (s.afterExtract hi lo).work.word = s.work.word := by
  unfold State.afterExtract; split <;> rfl
@[simp] theorem State.afterExtract_work_leaf (s : State) (hi lo : BitVec 5) :
    (s.afterExtract hi lo).work.leaf = s.work.leaf := by
  unfold State.afterExtract; split <;> rfl
@[simp] theorem State.afterExtract_work_record (s : State) (hi lo : BitVec 5) :
    (s.afterExtract hi lo).work.record = s.work.record := by
  unfold State.afterExtract; split <;> rfl
@[simp] theorem State.afterExtract_work_tidx (s : State) (hi lo : BitVec 5) :
    (s.afterExtract hi lo).work.tidx = s.work.tidx := by
  unfold State.afterExtract; split <;> rfl
@[simp] theorem State.afterExtract_work_fidx (s : State) (hi lo : BitVec 5) :
    (s.afterExtract hi lo).work.fidx = s.work.fidx := by
  unfold State.afterExtract; split <;> rfl
@[simp] theorem State.afterExtract_work_order (s : State) (hi lo : BitVec 5) :
    (s.afterExtract hi lo).work.order = s.work.order := by
  unfold State.afterExtract; split <;> rfl
@[simp] theorem State.afterExtract_work_phase (s : State) (hi lo : BitVec 5) :
    (s.afterExtract hi lo).work.phase = s.work.phase := by
  unfold State.afterExtract; split <;> rfl

/-! ### State.withRaw and State.fieldDone -/

@[simp] theorem State.withRaw_cfg (s : State) (raw : U64) : (s.withRaw raw).cfg = s.cfg := rfl
@[simp] theorem State.withRaw_inputs (s : State) (raw : U64) : (s.withRaw raw).inputs = s.inputs := rfl
@[simp] theorem State.withRaw_roms (s : State) (raw : U64) : (s.withRaw raw).roms = s.roms := rfl
@[simp] theorem State.withRaw_request (s : State) (raw : U64) : (s.withRaw raw).request = s.request := rfl
@[simp] theorem State.withRaw_response (s : State) (raw : U64) : (s.withRaw raw).response = s.response := rfl
@[simp] theorem State.withRaw_aux (s : State) (raw : U64) : (s.withRaw raw).aux = s.aux := rfl
@[simp] theorem State.withRaw_env (s : State) (raw : U64) : (s.withRaw raw).env = s.env := rfl
@[simp] theorem State.withRaw_work_raw (s : State) (raw : U64) : (s.withRaw raw).work.raw = raw := rfl
@[simp] theorem State.withRaw_work_word (s : State) (raw : U64) : (s.withRaw raw).work.word = s.work.word := rfl
@[simp] theorem State.withRaw_work_leaf (s : State) (raw : U64) : (s.withRaw raw).work.leaf = s.work.leaf := rfl
@[simp] theorem State.withRaw_work_record (s : State) (raw : U64) : (s.withRaw raw).work.record = s.work.record := rfl
@[simp] theorem State.withRaw_work_tidx (s : State) (raw : U64) : (s.withRaw raw).work.tidx = s.work.tidx := rfl
@[simp] theorem State.withRaw_work_fidx (s : State) (raw : U64) : (s.withRaw raw).work.fidx = s.work.fidx := rfl
@[simp] theorem State.withRaw_work_order (s : State) (raw : U64) : (s.withRaw raw).work.order = s.work.order := rfl
@[simp] theorem State.withRaw_work_phase (s : State) (raw : U64) : (s.withRaw raw).work.phase = s.work.phase := rfl

/-- The state after a field is the one in which only the list, the raw value and the cursor are new. -/
theorem State.afterField_eq_fieldDone (s : State) (raw : U64) (rec : Record) (ops : List Operand)
    (h : rec = { s.work.record with ops := ops }) : s.afterField (raw, rec) = s.fieldDone raw ops := by
  subst h
  rfl

/-- Where the range is one, a failing field leaves its raw value in `RAW`. -/
theorem State.afterExtract_eq_withRaw (s : State) {hi lo : BitVec 5} (h : lo ≤ hi) :
    s.afterExtract hi lo = s.withRaw (extract s.work.word hi.toNat lo.toNat) :=
  if_neg (BitVec.not_lt.mpr h)

end Sys2Proof.Machine
end

