-- ==== Sys2Proof/Laws/Ops.lean ====
section
/-! SUPPORT. What each shared operation can do, said once: when it answers, what it answers, and that it never lacks a
meaning under `FAIL_CLOSED`. -/

namespace Sys2Proof.Machine

/-! ### Outcomes -/

@[simp] theorem violation_failClosed {α : Type} (c : Cause) (r : Refusal) :
    (violation .failClosed c r : Res α) = .fail c := rfl
@[simp] theorem violation_trust {α : Type} (c : Cause) (r : Refusal) :
    (violation .trust c r : Res α) = .refuse r := rfl

theorem violation_ne_ok {α : Type} (m : CheckMode) (c : Cause) (r : Refusal) (a : α) : violation m c r ≠ .ok a := by
  cases m <;> simp

@[simp] theorem Res.bind_ok {α β : Type} (a : α) (f : α → Res β) : (Res.ok a).bind f = f a := rfl
@[simp] theorem Res.bind_fail {α β : Type} (c : Cause) (f : α → Res β) : (Res.fail c : Res α).bind f = .fail c := rfl
@[simp] theorem Res.bind_refuse {α β : Type} (r : Refusal) (f : α → Res β) :
    (Res.refuse r : Res α).bind f = .refuse r := rfl
@[simp] theorem Res.map_ok {α β : Type} (a : α) (f : α → β) : (Res.ok a).map f = .ok (f a) := rfl
@[simp] theorem Res.map_fail {α β : Type} (c : Cause) (f : α → β) : (Res.fail c : Res α).map f = .fail c := rfl
@[simp] theorem Res.map_refuse {α β : Type} (r : Refusal) (f : α → β) :
    (Res.refuse r : Res α).map f = .refuse r := rfl

theorem Res.bind_eq_ok {α β : Type} {x : Res α} {f : α → Res β} {b : β} :
    x.bind f = .ok b ↔ ∃ a, x = .ok a ∧ f a = .ok b := by
  cases x <;> simp

theorem Res.map_eq_ok {α β : Type} {x : Res α} {f : α → β} {b : β} :
    x.map f = .ok b ↔ ∃ a, x = .ok a ∧ f a = b := by
  cases x <;> simp

/-- The operation has a meaning: a value or a failed attempt. -/
structure Res.Defined {α : Type} (x : Res α) : Prop where
  not_refused : ∀ r, x ≠ .refuse r

theorem Res.defined_ok {α : Type} (a : α) : (Res.ok a).Defined := ⟨fun _ => by simp⟩
theorem Res.defined_fail {α : Type} (c : Cause) : (Res.fail c : Res α).Defined := ⟨fun _ => by simp⟩
theorem violation_defined {α : Type} {m : CheckMode} (h : m = .failClosed) (c : Cause) (r : Refusal) :
    (violation m c r : Res α).Defined := by
  subst h
  exact Res.defined_fail c

theorem Res.Defined.bind {α β : Type} {x : Res α} {f : α → Res β} (hx : x.Defined) (hf : ∀ a, (f a).Defined) :
    (x.bind f).Defined := by
  cases x with
  | ok a => exact hf a
  | fail c => exact Res.defined_fail c
  | refuse r => exact absurd rfl (hx.not_refused r)

theorem Res.Defined.map {α β : Type} {x : Res α} {f : α → β} (hx : x.Defined) : (x.map f).Defined := by
  cases x with
  | ok a => exact Res.defined_ok _
  | fail c => exact Res.defined_fail c
  | refuse r => exact absurd rfl (hx.not_refused r)

@[simp] theorem finish_ok {α : Type} (a : α) (s : State) (k : α → State) : finish (.ok a) s k = .next (k a) := rfl
@[simp] theorem finish_fail {α : Type} (c : Cause) (s : State) (k : α → State) :
    finish (.fail c) s k = .next (attemptFail c s) := rfl
@[simp] theorem finish_refuse {α : Type} (r : Refusal) (s : State) (k : α → State) :
    finish (.refuse r) s k = .refused r := rfl

/-- What one operation run by itself can do. -/
theorem finish_next {α : Type} {x : Res α} {s t : State} {k : α → State} (h : finish x s k = .next t) :
    (∃ a, x = .ok a ∧ t = k a) ∨ ∃ c, x = .fail c ∧ t = attemptFail c s := by
  cases x with
  | ok a => exact .inl ⟨a, rfl, by simpa [eq_comm] using h⟩
  | fail c => exact .inr ⟨c, rfl, by simpa [eq_comm] using h⟩
  | refuse r => simp at h

theorem finish_defined {α : Type} {x : Res α} (hx : x.Defined) (s : State) (k : α → State) :
    ∃ t, finish x s k = .next t := by
  cases x with
  | ok a => exact ⟨_, rfl⟩
  | fail c => exact ⟨_, rfl⟩
  | refuse r => exact absurd rfl (hx.not_refused r)

/-! ### The ROMs -/

theorem resolve_eq_ok {m : CheckMode} {rom : BankRom} {b i : Nat} {r : RegId} :
    resolve m rom b i = .ok r ↔ (numberedTable rom b)[i]? = some r := by
  unfold resolve
  cases h : (numberedTable rom b)[i]? with
  | some x => simp
  | none => simp [violation_ne_ok]

theorem resolve_out_of_range {m : CheckMode} {rom : BankRom} {b i : Nat}
    (h : (numberedTable rom b).length ≤ i) : resolve m rom b i = violation m .index .indexRange := by
  simp [resolve, List.getElem?_eq_none h]

/-- The table of a bank number is one of the tables. -/
theorem numberedTable_eq {rom : BankRom} {b : Nat} {bank : List RegId} (h : 1 ≤ b) (hb : rom[b - 1]? = some bank) :
    numberedTable rom b = bank := by
  obtain ⟨k, rfl⟩ := Nat.exists_eq_add_of_le' h
  simpa [numberedTable] using congrArg (·.getD []) hb

/-- A number that names no bank has no entries. -/
theorem numberedTable_none {rom : BankRom} {b : Nat} (h : b = 0 ∨ rom.length < b) : numberedTable rom b = [] := by
  cases b with
  | zero => rfl
  | succ k => simp [numberedTable, List.getElem?_eq_none (show rom.length ≤ k by omega)]

/-- Every entry of a numbered table stands in one of the tables. -/
theorem mem_of_numberedTable {rom : BankRom} {b : Nat} {r : RegId} (h : r ∈ numberedTable rom b) :
    ∃ bank ∈ rom, r ∈ bank := by
  cases b with
  | zero => simp [numberedTable] at h
  | succ k =>
    cases hk : rom[k]? with
    | none => simp [numberedTable, hk] at h
    | some bank => exact ⟨bank, List.mem_of_getElem? hk, by simpa [numberedTable, hk] using h⟩

/-- What `RESOLVE` returns stands in a bank table (41_register_translator.md R102, R118). -/
theorem resolve_named {m : CheckMode} {rom : BankRom} {b i : Nat} {r : RegId} (h : resolve m rom b i = .ok r) :
    NamedIn rom (.reg r) :=
  mem_of_numberedTable (List.mem_of_getElem? (resolve_eq_ok.mp h))

theorem resolve_defined {m : CheckMode} (h : m = .failClosed) (rom : BankRom) (b i : Nat) :
    (resolve m rom b i).Defined := by
  unfold resolve
  split
  · exact Res.defined_ok _
  · exact violation_defined h _ _

theorem policyOf_defined {m : CheckMode} (h : m = .failClosed) (rom : List (OpcId × BitVec 2)) (opc : OpcId) :
    (policyOf m rom opc).Defined := by
  unfold policyOf
  split
  · exact Res.defined_ok _
  · exact Res.defined_ok _
  · exact Res.defined_ok _
  · exact violation_defined h _ _

theorem policyOf_none {m : CheckMode} {rom : List (OpcId × BitVec 2)} {opc : OpcId} (h : policyCode rom opc = 0#2) :
    policyOf m rom opc = .ok .none := by
  simp [policyOf, h]

theorem policyOf_tiedOut {m : CheckMode} {rom : List (OpcId × BitVec 2)} {opc : OpcId}
    (h : policyCode rom opc = 1#2) : policyOf m rom opc = .ok .tiedOut := by
  simp [policyOf, h]

theorem policyOf_tiedStore {m : CheckMode} {rom : List (OpcId × BitVec 2)} {opc : OpcId}
    (h : policyCode rom opc = 2#2) : policyOf m rom opc = .ok .tiedStore := by
  simp [policyOf, h]

theorem policyOf_reserved {m : CheckMode} {rom : List (OpcId × BitVec 2)} {opc : OpcId}
    (h : policyCode rom opc = 3#2) : policyOf m rom opc = violation m .field .reservedCode := by
  simp [policyOf, h]

/-! ### The operand list -/

theorem opsAppend_ok {q : Params} {m : CheckMode} (o : Operand) {rec : Record} (h : rec.n < q.maxOps) :
    opsAppend q m o rec = .ok { rec with ops := rec.ops ++ [o] } := by
  simp [opsAppend, Nat.not_le.mpr h]

theorem opsAppend_full {q : Params} {m : CheckMode} (o : Operand) {rec : Record} (h : q.maxOps ≤ rec.n) :
    opsAppend q m o rec = violation m .capacity .listFull := by
  simp [opsAppend, h]

theorem opsAppend_eq_ok {q : Params} {m : CheckMode} {o : Operand} {rec rec' : Record} :
    opsAppend q m o rec = .ok rec' ↔ rec.n < q.maxOps ∧ rec' = { rec with ops := rec.ops ++ [o] } := by
  by_cases h : rec.n < q.maxOps
  · simp [opsAppend_ok o h, h, eq_comm]
  · simp [opsAppend_full o (Nat.not_lt.mp h), h, violation_ne_ok]

theorem opsInsert_ok {q : Params} {m : CheckMode} {p : Nat} (o : Operand) {rec : Record} (h : rec.n < q.maxOps)
    (hp : p ≤ rec.n) : opsInsert q m p o rec = .ok { rec with ops := rec.ops.take p ++ o :: rec.ops.drop p } := by
  simp [opsInsert, Nat.not_le.mpr h, Nat.not_lt.mpr hp]

theorem opsInsert_full {q : Params} {m : CheckMode} {p : Nat} (o : Operand) {rec : Record} (h : q.maxOps ≤ rec.n) :
    opsInsert q m p o rec = violation m .capacity .listFull := by
  simp [opsInsert, h]

theorem opsInsert_eq_ok {q : Params} {m : CheckMode} {p : Nat} {o : Operand} {rec rec' : Record} :
    opsInsert q m p o rec = .ok rec' ↔
      rec.n < q.maxOps ∧ p ≤ rec.n ∧ rec' = { rec with ops := rec.ops.take p ++ o :: rec.ops.drop p } := by
  unfold opsInsert
  by_cases h : q.maxOps ≤ rec.n
  · simp [h, violation_ne_ok, Nat.not_lt.mpr h]
  · by_cases hp : rec.n < p
    · simp [h, hp, violation_ne_ok, Nat.not_le.mpr hp]
    · simp [h, hp, Nat.not_le.mp h, Nat.not_lt.mp hp, eq_comm]

theorem opsAppend_defined {q : Params} {m : CheckMode} (h : m = .failClosed) (o : Operand) (rec : Record) :
    (opsAppend q m o rec).Defined := by
  unfold opsAppend
  split
  · exact violation_defined h _ _
  · exact Res.defined_ok _

theorem opsInsert_defined {q : Params} {m : CheckMode} (h : m = .failClosed) (p : Nat) (o : Operand) (rec : Record) :
    (opsInsert q m p o rec).Defined := by
  unfold opsInsert
  split
  · exact violation_defined h _ _
  · split
    · exact violation_defined h _ _
    · exact Res.defined_ok _

/-! ### The resolvers -/

theorem namedIn_imm (rom : BankRom) (v : U64) : NamedIn rom (.imm v) := trivial

/-- What every resolver leaves of a record: the opcode and the length stay and the list only grows, within its capacity and
by immediates and identifiers of the bank tables (R135, R166). -/
structure Record.Grown (m : Roms) (rec rec' : Record) : Prop where
  opcode : rec'.opcode = rec.opcode
  len : rec'.len = rec.len
  longer : rec.n ≤ rec'.n
  bounded : rec'.n ≤ m.params.maxOps
  named : ∀ o ∈ rec'.ops, o ∈ rec.ops ∨ NamedIn m.bank o

theorem Record.Grown.refl {m : Roms} {rec : Record} (h : rec.n ≤ m.params.maxOps) : rec.Grown m rec :=
  ⟨rfl, rfl, le_refl _, h, fun _ => .inl⟩

theorem Record.Grown.trans {m : Roms} {a b c : Record} (h : a.Grown m b) (h' : b.Grown m c) : a.Grown m c :=
  ⟨h'.opcode.trans h.opcode, h'.len.trans h.len, h.longer.trans h'.longer, h'.bounded,
    fun o ho => (h'.named o ho).elim (h.named o) .inr⟩

/-- A record that has grown from a well-formed one is well formed. -/
theorem Record.Grown.wf {m : Roms} {rec rec' : Record} (h : rec.Grown m rec') (hw : rec.wf m) : rec'.wf m :=
  ⟨h.bounded, h.opcode ▸ hw.2.1, fun o ho => (h.named o ho).elim (hw.2.2 o) id⟩

theorem opsAppend_grown {e : Env} {m : CheckMode} {o : Operand} {rec rec' : Record} (ho : NamedIn e.roms.bank o)
    (h : opsAppend e.roms.params m o rec = .ok rec') : rec.Grown e.roms rec' := by
  obtain ⟨h1, rfl⟩ := opsAppend_eq_ok.mp h
  refine ⟨rfl, rfl, ?_, ?_, fun o' h' => ?_⟩
  · simp only [Record.n, List.length_append, List.length_singleton]; omega
  · simp only [Record.n, List.length_append, List.length_singleton] at h1 ⊢; omega
  · simp only [List.mem_append, List.mem_singleton] at h'
    exact h'.imp id fun h => by rwa [h]

theorem opsInsert_grown {e : Env} {m : CheckMode} {p : Nat} {o : Operand} {rec rec' : Record}
    (ho : NamedIn e.roms.bank o) (h : opsInsert e.roms.params m p o rec = .ok rec') : rec.Grown e.roms rec' := by
  obtain ⟨h1, h2, rfl⟩ := opsInsert_eq_ok.mp h
  refine ⟨rfl, rfl, ?_, ?_, fun o' h' => ?_⟩
  · simp only [Record.n, List.length_append, List.length_take, List.length_cons, List.length_drop] at h1 h2 ⊢; omega
  · simp only [Record.n, List.length_append, List.length_take, List.length_cons, List.length_drop] at h1 h2 ⊢; omega
  · simp only [List.mem_append, List.mem_cons] at h'
    rcases h' with h' | rfl | h'
    · exact .inl (List.mem_of_mem_take h')
    · exact .inr ho
    · exact .inl (List.mem_of_mem_drop h')

theorem resReg_grown {e : Env} {b : Bank} {raw : U64} {rec rec' : Record} (h : resReg e b raw rec = .ok rec') :
    rec.Grown e.roms rec' := by
  obtain ⟨r, hr, h⟩ := Res.bind_eq_ok.mp h
  exact opsAppend_grown (resolve_named hr) h

theorem resSimm_grown {e : Env} {hi lo : BitVec 5} {raw : U64} {rec rec' : Record}
    (h : resSimm e hi lo raw rec = .ok rec') : rec.Grown e.roms rec' := by
  unfold resSimm at h
  split at h
  · exact absurd h (violation_ne_ok _ _ _ _)
  · exact opsAppend_grown (namedIn_imm _ _) h

theorem insertTied_grown {e : Env} {pol : Policy} {r : RegId} {rec rec' : Record} (hn : rec.n ≤ e.roms.params.maxOps)
    (hr : NamedIn e.roms.bank (.reg r)) (h : insertTied e pol r rec = .ok rec') : rec.Grown e.roms rec' := by
  cases pol with
  | none =>
    simp only [insertTied, Res.ok.injEq] at h
    exact h ▸ .refl hn
  | tiedOut => exact opsInsert_grown hr h
  | tiedStore =>
    simp only [insertTied] at h
    split at h
    · exact absurd h (violation_ne_ok _ _ _ _)
    · exact opsInsert_grown hr h

/-- What `RES_MEM` does when it returns (R145). -/
theorem resMem_eq_ok {dw sc : Nat} {e : Env} {raw : U64} {rec rec' : Record} (h : resMem dw sc e raw rec = .ok rec') :
    ∃ r pol rec1 rec2, resolve e.cfg.check e.roms.bank Bank.gprz.number (memBase dw raw) = .ok r ∧
      policyOf e.cfg.check e.roms.policy rec.opcode = .ok pol ∧
      ¬(pol ≠ .none ∧ e.cfg.chkBase0 = true ∧ memBase dw raw = 0) ∧ insertTied e pol r rec = .ok rec1 ∧
      opsAppend e.roms.params e.cfg.check (.imm (memDisp dw sc raw)) rec1 = .ok rec2 ∧
      opsAppend e.roms.params e.cfg.check (.reg r) rec2 = .ok rec' := by
  obtain ⟨r, hr, h⟩ := Res.bind_eq_ok.mp h
  obtain ⟨pol, hp, h⟩ := Res.bind_eq_ok.mp h
  split at h
  · simp at h
  · rename_i hb
    obtain ⟨rec1, h1, h⟩ := Res.bind_eq_ok.mp h
    obtain ⟨rec2, h2, h⟩ := Res.bind_eq_ok.mp h
    exact ⟨r, pol, rec1, rec2, hr, hp, hb, h1, h2, h⟩

theorem resMem_grown {dw sc : Nat} {e : Env} {raw : U64} {rec rec' : Record} (hn : rec.n ≤ e.roms.params.maxOps)
    (h : resMem dw sc e raw rec = .ok rec') : rec.Grown e.roms rec' := by
  obtain ⟨r, pol, rec1, rec2, hr, -, -, h1, h2, h3⟩ := resMem_eq_ok h
  exact ((insertTied_grown hn (resolve_named hr) h1).trans (opsAppend_grown (namedIn_imm _ _) h2)).trans
    (opsAppend_grown (resolve_named hr) h3)

theorem resCrbitm_grown {e : Env} {raw : U64} {rec rec' : Record} (h : resCrbitm e raw rec = .ok rec') :
    rec.Grown e.roms rec' := by
  obtain ⟨g, -, h⟩ := Res.bind_eq_ok.mp h
  obtain ⟨r, hr, h⟩ := Res.bind_eq_ok.mp h
  exact opsAppend_grown (resolve_named hr) h

theorem resolveClass_grown {e : Env} {c : OperandClass} {hi lo : BitVec 5} {raw : U64} {rec rec' : Record}
    (hn : rec.n ≤ e.roms.params.maxOps) (h : resolveClass e c hi lo raw rec = .ok rec') : rec.Grown e.roms rec' := by
  cases c with
  | reg b => exact resReg_grown h
  | uimm => exact opsAppend_grown (namedIn_imm _ _) h
  | simm => exact resSimm_grown h
  | memri => exact resMem_grown hn h
  | memrix => exact resMem_grown hn h
  | crbitm => exact resCrbitm_grown h

theorem insertTied_defined {e : Env} (h : e.cfg.check = .failClosed) (pol : Policy) (r : RegId) (rec : Record) :
    (insertTied e pol r rec).Defined := by
  cases pol with
  | none => exact Res.defined_ok _
  | tiedOut => exact opsInsert_defined h _ _ _
  | tiedStore =>
    simp only [insertTied]
    split
    · exact violation_defined h _ _
    · exact opsInsert_defined h _ _ _

theorem resMem_defined {dw sc : Nat} {e : Env} (h : e.cfg.check = .failClosed) (raw : U64) (rec : Record) :
    (resMem dw sc e raw rec).Defined := by
  refine (resolve_defined h ..).bind fun r => (policyOf_defined h ..).bind fun pol => ?_
  split
  · exact Res.defined_fail _
  · exact (insertTied_defined h ..).bind fun _ => (opsAppend_defined h ..).bind fun _ => opsAppend_defined h ..

theorem crGroup_defined {m : CheckMode} (h : m = .failClosed) (mask : U64) : (crGroup m mask).Defined := by
  unfold crGroup
  split
  · exact violation_defined h _ _
  · split
    · exact Res.defined_fail _
    · split
      · split
        · exact Res.defined_ok _
        · exact violation_defined h _ _
      · exact violation_defined h _ _

/-- Under `FAIL_CLOSED` every resolver has a meaning (R205). -/
theorem resolveClass_defined {e : Env} (h : e.cfg.check = .failClosed) (c : OperandClass) (hi lo : BitVec 5)
    (raw : U64) (rec : Record) : (resolveClass e c hi lo raw rec).Defined := by
  cases c with
  | reg b => exact (resolve_defined h ..).bind fun _ => opsAppend_defined h ..
  | uimm => exact opsAppend_defined h ..
  | simm =>
    simp only [resolveClass, resSimm]
    split
    · exact violation_defined h _ _
    · exact opsAppend_defined h ..
  | memri => exact resMem_defined h ..
  | memrix => exact resMem_defined h ..
  | crbitm =>
    exact (crGroup_defined h _).bind fun _ => (resolve_defined h ..).bind fun _ => opsAppend_defined h ..

/-- What one field does when its resolver returns (R163). -/
theorem fieldStep_eq_ok {e : Env} {word : Word} {c : OperandClass} {hi lo : BitVec 5} {rec : Record}
    {p : U64 × Record} (h : fieldStep e word c hi lo rec = .ok p) :
    lo ≤ hi ∧ p.1 = extract word hi.toNat lo.toNat ∧ resolveClass e c hi lo p.1 rec = .ok p.2 := by
  unfold fieldStep at h
  split at h
  · exact absurd h (violation_ne_ok _ _ _ _)
  · rename_i hlt
    obtain ⟨rec', h1, rfl⟩ := Res.map_eq_ok.mp h
    exact ⟨BitVec.not_lt.mp hlt, rfl, h1⟩

theorem fieldStep_defined {e : Env} (h : e.cfg.check = .failClosed) (word : Word) (c : OperandClass)
    (hi lo : BitVec 5) (rec : Record) : (fieldStep e word c hi lo rec).Defined := by
  unfold fieldStep
  split
  · exact violation_defined h _ _
  · exact (resolveClass_defined h ..).map

theorem descriptorStep_defined {e : Env} (h : e.cfg.check = .failClosed) (word fd : Word) (rec : Record) :
    (descriptorStep e word fd rec).Defined := by
  unfold descriptorStep
  split
  · exact fieldStep_defined h ..
  · exact violation_defined h _ _

theorem descriptorStep_grown {e : Env} {word fd : Word} {rec : Record} {p : U64 × Record}
    (hn : rec.n ≤ e.roms.params.maxOps) (h : descriptorStep e word fd rec = .ok p) : rec.Grown e.roms p.2 := by
  unfold descriptorStep at h
  split at h
  · exact resolveClass_grown hn (fieldStep_eq_ok h).2.2
  · exact absurd h (violation_ne_ok _ _ _ _)

/-! ### Attempts and calls -/

theorem runFields_grown {e : Env} {word : Word} {fds : List Word} {raw : U64} {rec : Record} {p : U64 × Record}
    (hn : rec.n ≤ e.roms.params.maxOps) (h : runFields e word fds raw rec = .ok p) : rec.Grown e.roms p.2 := by
  induction fds generalizing raw rec with
  | nil =>
    simp only [runFields, Res.ok.injEq] at h
    exact h ▸ .refl hn
  | cons fd rest ih =>
    obtain ⟨q, h1, h2⟩ := Res.bind_eq_ok.mp h
    have g := descriptorStep_grown hn h1
    exact g.trans (ih g.bounded h2)

theorem runFields_defined {e : Env} (h : e.cfg.check = .failClosed) (word : Word) (fds : List Word) (raw : U64)
    (rec : Record) : (runFields e word fds raw rec).Defined := by
  induction fds generalizing raw rec with
  | nil => exact Res.defined_ok _
  | cons fd rest ih => exact (descriptorStep_defined h ..).bind fun p => ih p.1 p.2

/-- What an attempt leaves when it succeeds (R163): its leaf's opcode, a length still 0, a list within its capacity. -/
theorem attemptLeaf_eq_ok {e : Env} {word : Word} {raw : U64} {l : Leaf} {a : AttemptEnd}
    (h : attemptLeaf e word raw l = .ok a) :
    l.nfields ≤ e.roms.params.maxFields ∧ a.leaf = l ∧
      runFields e word (leafFields l) raw (freshRecord l.opcode) = .ok (a.raw, a.record) ∧
      (freshRecord l.opcode).Grown e.roms a.record := by
  unfold attemptLeaf at h
  split at h
  · exact absurd h (violation_ne_ok _ _ _ _)
  · rename_i hle
    obtain ⟨p, h1, rfl⟩ := Res.map_eq_ok.mp h
    exact ⟨Nat.not_lt.mp hle, rfl, h1, runFields_grown (Nat.zero_le _) h1⟩

theorem attemptLeaf_defined {e : Env} (h : e.cfg.check = .failClosed) (word : Word) (raw : U64) (l : Leaf) :
    (attemptLeaf e word raw l).Defined := by
  unfold attemptLeaf
  split
  · exact violation_defined h _ _
  · exact (runFields_defined h ..).map

theorem lookupLeaf_defined {e : Env} (h : e.cfg.check = .failClosed) (word : Word) (t : Nat) :
    (lookupLeaf e word t).Defined := by
  unfold lookupLeaf
  split
  · exact violation_defined h _ _
  · split
    · exact Res.defined_ok _
    · exact Res.defined_fail _

theorem attemptTable_defined {e : Env} (h : e.cfg.check = .failClosed) (word : Word) (raw : U64) (t : Nat) :
    (attemptTable e word raw t).Defined :=
  (lookupLeaf_defined h word t).bind fun l => attemptLeaf_defined h word raw l

theorem attemptTable_eq_ok {e : Env} {word : Word} {raw : U64} {t : Nat} {a : AttemptEnd}
    (h : attemptTable e word raw t = .ok a) : lookupLeaf e word t = .ok a.leaf ∧ attemptLeaf e word raw a.leaf = .ok a := by
  obtain ⟨l, h1, h2⟩ := Res.bind_eq_ok.mp h
  rw [(attemptLeaf_eq_ok h2).2.1]
  exact ⟨h1, h2⟩

theorem callTables_defined {e : Env} (h : e.cfg.check = .failClosed) (word : Word) (raw : U64) (ts : List Nat)
    (last : Nat × Cause) (r : Refusal) : callTables e word raw ts last ≠ .refused r := by
  induction ts generalizing last with
  | nil => simp [callTables]
  | cons t rest ih =>
    unfold callTables
    split
    · simp
    · exact ih _
    · rename_i r' hr
      exact absurd hr ((attemptTable_defined h word raw t).not_refused r')

/-- The table that ends a call with success is one of the list, and its attempt has succeeded (R183). -/
theorem callTables_done {e : Env} {word : Word} {raw : U64} {ts : List Nat} {last : Nat × Cause} {t : Nat}
    {a : AttemptEnd} (h : callTables e word raw ts last = .done t a) :
    t ∈ ts ∧ attemptTable e word raw t = .ok a := by
  induction ts generalizing last with
  | nil => simp [callTables] at h
  | cons k rest ih =>
    unfold callTables at h
    split at h
    · rename_i a' ha
      simp only [CallEnd.done.injEq] at h
      obtain ⟨rfl, rfl⟩ := h
      exact ⟨List.mem_cons_self .., ha⟩
    · obtain ⟨h1, h2⟩ := ih h
      exact ⟨List.mem_cons_of_mem _ h1, h2⟩
    · simp at h

/-- What the end of a call can do. -/
theorem endCall_next {s t : State} {c : CallEnd} (h : endCall s c = .next t) :
    (∃ k a, c = .done k a ∧ t = callSuccess { s with
        work := { s.work with leaf := a.leaf, raw := a.raw, record := a.record, tidx := k, fidx := a.leaf.nfields } }) ∨
      ∃ k x, c = .failed k x ∧ t = callFail .noMatch { s with
        work := { s.work with tidx := k }, aux := { s.aux with attemptCause := some x } } := by
  cases c with
  | done k a => exact .inl ⟨k, a, rfl, by simpa [endCall, eq_comm] using h⟩
  | failed k x => exact .inr ⟨k, x, rfl, by simpa [endCall, eq_comm] using h⟩
  | refused r => simp [endCall] at h

end Sys2Proof.Machine
end

