-- ==== Sys2Proof/Laws/PerInstr.lean ====
section
/-! SUPPORT. Statements made per operation: the encoded word has the fixed bits of its row of spec/opcode_table.json, and an
internal operation, which the table gives no encoding, has none. -/

namespace Sys2Proof.Laws.FixedBits

open Sys2Proof

/-- The mask and the value of each row; none for a row of format "none", and for an opcode id that format `LEAF` has no room
for. -/
def row : Instr → Option (Word × Word)
  | .gpr _ _ _ => some (0xF8000000#32, 0x08000000#32)
  | .gprz _ _ _ => some (0xF8000000#32, 0x10000000#32)
  | .g64 _ _ _ => some (0xF8000000#32, 0x18000000#32)
  | .fps _ _ _ => some (0xF8000000#32, 0x20000000#32)
  | .fpd _ _ _ => some (0xF8000000#32, 0x28000000#32)
  | .vec _ _ _ => some (0xF8000000#32, 0x30000000#32)
  | .vsxl _ _ _ => some (0xF8000000#32, 0x38000000#32)
  | .vsxh _ _ _ => some (0xF8000000#32, 0x40000000#32)
  | .vsf _ _ _ => some (0xF8000000#32, 0x48000000#32)
  | .cr _ _ _ => some (0xF8000000#32, 0x50000000#32)
  | .crb _ _ _ => some (0xF8000000#32, 0x58000000#32)
  | .pf0 _ _ _ => some (0xF8000000#32, 0x60000000#32)
  | .pf1 _ _ _ => some (0xF8000000#32, 0x68000000#32)
  | .uimm _ _ _ => some (0xF8000000#32, 0x80000000#32)
  | .simm _ _ _ => some (0xF8000000#32, 0x88000000#32)
  | .memri _ _ _ => some (0xF8000000#32, 0xC0000000#32)
  | .memrix _ _ _ => some (0xF8000000#32, 0xC8000000#32)
  | .crbitm _ _ _ => some (0xF8000000#32, 0xD0000000#32)
  | .extract _ _ _ => none
  | .sext _ _ => none
  | .shl _ _ => none
  | .ctz _ => none
  | .resolve _ _ => none
  | .policy _ => none
  | .opsAppend _ => none
  | .opsInsert _ _ => none
  | .matchLeaf _ _ _ => none
  | .dispatch _ => none
  | .attempt _ => none
  | .assemble => none
  | .decode => none
  | .leaf opcode _ => if opcode < 2 ^ 16 then some (0x00000FFF#32, 0x00000000#32) else none
  | .fxAddi _ _ _ => some (0xFC000000#32, 0x38000000#32)
  | .fxLwz _ _ _ => some (0xFC000000#32, 0x80000000#32)
  | .fxLwzu _ _ _ => some (0xFC000000#32, 0x84000000#32)
  | .fxStwu _ _ _ => some (0xFC000000#32, 0x94000000#32)
  | .fxLdu _ _ _ => some (0xFC000003#32, 0xE8000001#32)
  | .fxStdu _ _ _ => some (0xFC000003#32, 0xF8000001#32)
  | .fxMfocrf _ _ _ _ => some (0xFC1007FE#32, 0x7C100026#32)
  | .fxFadd _ _ _ _ => some (0xFC0007FE#32, 0xFC00002A#32)
  | .fxVadd _ _ _ => some (0xFC0007FF#32, 0x10000000#32)
  | .fxOri _ _ _ => some (0xFC000000#32, 0x60000000#32)
  | .fxPfadd _ _ _ => some (0xFC0007FF#32, 0x10000000#32)

/-- What is stated of an operation. -/
def Statement (i : Instr) : Prop :=
  match encode i, row i with
  | some p, some r => p.2 &&& r.1 = r.2
  | none, none => True
  | _, _ => False

theorem gpr (hi lo : BitVec 5) (fid : BitVec 8) : Statement (.gpr hi lo fid) := fdWord_and_mask (.reg .gpr) hi lo fid
theorem gprz (hi lo : BitVec 5) (fid : BitVec 8) : Statement (.gprz hi lo fid) := fdWord_and_mask (.reg .gprz) hi lo fid
theorem g64 (hi lo : BitVec 5) (fid : BitVec 8) : Statement (.g64 hi lo fid) := fdWord_and_mask (.reg .g64) hi lo fid
theorem fps (hi lo : BitVec 5) (fid : BitVec 8) : Statement (.fps hi lo fid) := fdWord_and_mask (.reg .fps) hi lo fid
theorem fpd (hi lo : BitVec 5) (fid : BitVec 8) : Statement (.fpd hi lo fid) := fdWord_and_mask (.reg .fpd) hi lo fid
theorem vec (hi lo : BitVec 5) (fid : BitVec 8) : Statement (.vec hi lo fid) := fdWord_and_mask (.reg .vec) hi lo fid
theorem vsxl (hi lo : BitVec 5) (fid : BitVec 8) : Statement (.vsxl hi lo fid) := fdWord_and_mask (.reg .vsxl) hi lo fid
theorem vsxh (hi lo : BitVec 5) (fid : BitVec 8) : Statement (.vsxh hi lo fid) := fdWord_and_mask (.reg .vsxh) hi lo fid
theorem vsf (hi lo : BitVec 5) (fid : BitVec 8) : Statement (.vsf hi lo fid) := fdWord_and_mask (.reg .vsf) hi lo fid
theorem cr (hi lo : BitVec 5) (fid : BitVec 8) : Statement (.cr hi lo fid) := fdWord_and_mask (.reg .cr) hi lo fid
theorem crb (hi lo : BitVec 5) (fid : BitVec 8) : Statement (.crb hi lo fid) := fdWord_and_mask (.reg .crb) hi lo fid
theorem pf0 (hi lo : BitVec 5) (fid : BitVec 8) : Statement (.pf0 hi lo fid) := fdWord_and_mask (.reg .pf0) hi lo fid
theorem pf1 (hi lo : BitVec 5) (fid : BitVec 8) : Statement (.pf1 hi lo fid) := fdWord_and_mask (.reg .pf1) hi lo fid
theorem uimm (hi lo : BitVec 5) (fid : BitVec 8) : Statement (.uimm hi lo fid) := fdWord_and_mask .uimm hi lo fid
theorem simm (hi lo : BitVec 5) (fid : BitVec 8) : Statement (.simm hi lo fid) := fdWord_and_mask .simm hi lo fid
theorem memri (hi lo : BitVec 5) (fid : BitVec 8) : Statement (.memri hi lo fid) := fdWord_and_mask .memri hi lo fid
theorem memrix (hi lo : BitVec 5) (fid : BitVec 8) : Statement (.memrix hi lo fid) := fdWord_and_mask .memrix hi lo fid
theorem crbitm (hi lo : BitVec 5) (fid : BitVec 8) : Statement (.crbitm hi lo fid) := fdWord_and_mask .crbitm hi lo fid
theorem extract (word : Word) (hi lo : Nat) : Statement (.extract word hi lo) := trivial
theorem sext (value : U64) (w : Nat) : Statement (.sext value w) := trivial
theorem shl (value : U64) (n : Nat) : Statement (.shl value n) := trivial
theorem ctz (value : U64) : Statement (.ctz value) := trivial
theorem resolve (b i : Nat) : Statement (.resolve b i) := trivial
theorem policy (opc : OpcId) : Statement (.policy opc) := trivial
theorem opsAppend (o : Operand) : Statement (.opsAppend o) := trivial
theorem opsInsert (p : Nat) (o : Operand) : Statement (.opsInsert p o) := trivial
theorem matchLeaf (t : Nat) (word : Word) (features : FeatureSet) : Statement (.matchLeaf t word features) := trivial
theorem dispatch (fd : Word) : Statement (.dispatch fd) := trivial
theorem attempt (t : Nat) : Statement (.attempt t) := trivial
theorem assemble : Statement (.assemble) := trivial
theorem decode : Statement (.decode) := trivial
theorem leaf (opcode : OpcId) (nfields : BitVec 4) : Statement (.leaf opcode nfields) := by
  by_cases h : opcode < 2 ^ 16 <;> simp only [Statement, encode, row, h, if_true, if_false]
  exact headerWord_and_mask opcode nfields
theorem fxAddi (rt ra : BitVec 5) (si : BitVec 16) : Statement (.fxAddi rt ra si) := wordAddi_and_mask rt ra si
theorem fxLwz (rt ra : BitVec 5) (d : BitVec 16) : Statement (.fxLwz rt ra d) := wordLwz_and_mask rt ra d
theorem fxLwzu (rt ra : BitVec 5) (d : BitVec 16) : Statement (.fxLwzu rt ra d) := wordLwzu_and_mask rt ra d
theorem fxStwu (rs ra : BitVec 5) (d : BitVec 16) : Statement (.fxStwu rs ra d) := wordStwu_and_mask rs ra d
theorem fxLdu (rt ra : BitVec 5) (ds : BitVec 14) : Statement (.fxLdu rt ra ds) := wordLdu_and_mask rt ra ds
theorem fxStdu (rs ra : BitVec 5) (ds : BitVec 14) : Statement (.fxStdu rs ra ds) := wordStdu_and_mask rs ra ds
theorem fxMfocrf (rt : BitVec 5) (fxm : BitVec 8) (bit11 bit0 : BitVec 1) : Statement (.fxMfocrf rt fxm bit11 bit0) := wordMfocrf_and_mask rt fxm bit11 bit0
theorem fxFadd (frt fra frb : BitVec 5) (bit0 : BitVec 1) : Statement (.fxFadd frt fra frb bit0) := wordFadd_and_mask frt fra frb bit0
theorem fxVadd (vrt vra vrb : BitVec 5) : Statement (.fxVadd vrt vra vrb) := wordVadd_and_mask vrt vra vrb
theorem fxOri (rs ra : BitVec 5) (ui : BitVec 16) : Statement (.fxOri rs ra ui) := wordOri_and_mask rs ra ui
theorem fxPfadd (frt fra frb : BitVec 5) : Statement (.fxPfadd frt fra frb) := wordPfadd_and_mask frt fra frb

end Sys2Proof.Laws.FixedBits
end

