-- ==== Sys2Proof/Laws/Roms.lean ====
section
/-! SUPPORT. The contents of the ROMs after reset: the bank tables meet their contract and have the sizes of
41_register_translator.md R100, and the opcode ids have their width. -/

namespace Sys2Proof.Machine

theorem bankRef_contract : BankContract Config.params Fixtures.bankRef := by decide +kernel

theorem bankRef_sizes : Fixtures.bankRef.map List.length = Config.sizes := by decide

/-- Whatever the free contents are, the tables that reset takes from them meet the contract (R101, R118) and have the sizes
of R100. -/
theorem bankSource_contract :
    BankContract Config.params bankSource ∧ bankSource.map List.length = Config.sizes := by
  unfold bankSource
  split
  · assumption
  · exact ⟨bankRef_contract, bankRef_sizes⟩

theorem map_getD_range {α : Type} (l : List α) (d : α) : (List.range l.length).map (l.getD · d) = l := by
  apply List.ext_getElem
  · simp
  · intro i h1 h2
    simp [List.getD, h2]

/-- The tables written out are the tables. -/
theorem resetBankRom_eq : resetBankRom = bankSource := by
  have hs := bankSource_contract.2
  have hl : Config.sizes.length = bankSource.length := by rw [← hs, List.length_map]
  unfold resetBankRom
  rw [hl]
  conv_rhs => rw [← map_getD_range bankSource []]
  refine List.map_congr_left fun k hk => ?_
  have hk' : k < bankSource.length := by simpa using hk
  have : Config.sizes.getD k 0 = (bankSource.getD k []).length := by
    rw [← hs]
    simp [List.getD, hk']
  rw [this, map_getD_range]

theorem resetBankRom_contract : BankContract Config.params resetBankRom := resetBankRom_eq ▸ bankSource_contract.1

theorem resetTable_opcode {t : Nat} {row : TableRow} (h : row ∈ resetTable t) :
    row.leaf.opcode < 2 ^ Config.params.opcW := by
  simpa using (List.mem_filter.mp h).2

theorem resetPolicyRom_opcode {e : OpcId × BitVec 2} (h : e ∈ resetPolicyRom) : e.1 < 2 ^ Config.params.opcW := by
  simpa using (List.mem_filter.mp h).2

end Sys2Proof.Machine
end

