-- ==== Sys2Proof/Laws/Sequence.lean ====
section
/-! SUPPORT. What one step of the machine can do, said once, and how the parts of a step are read. -/

namespace Sys2Proof.Machine

theorem step_of_run {s a : State} {i : Instr} (h : fetch s = .run i a) : step s = exec i a := by
  simp [step, h]

theorem step_of_move {s : State} {o : Host.Outcome State Fault Refusal} (h : fetch s = .move o) : step s = o := by
  simp [step, h]

/-- Before the match of a table: what the step does (44_matcher_dispatch.md R163). -/
theorem step_matching {s : State} (hp : s.work.phase = .matching) (hr : s.request.req = false) :
    step s = match lookupLeaf s.env s.work.word s.work.tidx with
      | .ok l => exec (decodeHeader l.header) (s.withLeaf l)
      | .fail c => .next (attemptFail c s)
      | .refuse r => .refused r := by
  simp only [step, fetch, hp, hr, fetchMatch, Bool.false_eq_true, if_false]
  cases lookupLeaf s.env s.work.word s.work.tidx <;> rfl

/-- The meaning of a descriptor's operation is its class's (R164). -/
theorem exec_ofField (c : OperandClass) (hi lo : BitVec 5) (fid : BitVec 8) (s : State) :
    exec (Instr.ofField c hi lo fid) s = execField c hi lo s := by
  cases c with
  | reg b => cases b <;> rfl
  | uimm => rfl
  | simm => rfl
  | memri => rfl
  | memrix => rfl
  | crbitm => rfl

/-- At a field: what the step does. -/
theorem step_resolving {s : State} (hp : s.work.phase = .resolving) (hr : s.request.req = false)
    (hf : s.work.fidx < s.work.leaf.nfields) :
    step s = match OperandClass.ofCode (fdClass (fetchDescriptor s)) with
      | some c => execField c (fdHi (fetchDescriptor s)) (fdLo (fetchDescriptor s)) s
      | none => finish (violation s.cfg.check .field .reservedCode) s fun (_ : Unit) => s := by
  simp only [step, fetch, hp, hr, fetchField, hf, decodeDescriptor, Bool.false_eq_true, if_false, if_true]
  cases OperandClass.ofCode (fdClass (fetchDescriptor s)) with
  | none => rfl
  | some c => exact exec_ofField c _ _ _ s

/-- Past the last field the call ends (45_decode_entry.md R183). -/
theorem step_resolved {s : State} (hp : s.work.phase = .resolving) (hr : s.request.req = false)
    (hf : s.work.leaf.nfields ≤ s.work.fidx) : step s = .next (callSuccess s) := by
  simp [step, fetch, hp, hr, fetchField, Nat.not_lt.mpr hf]

/-- What one field can do when it answers a next state. -/
theorem execField_next {c : OperandClass} {hi lo : BitVec 5} {s t : State} (h : execField c hi lo s = .next t) :
    (∃ p, fieldStep s.env s.work.word c hi lo s.work.record = .ok p ∧ t = s.afterField p) ∨
      ∃ x, fieldStep s.env s.work.word c hi lo s.work.record = .fail x ∧ t = attemptFail x (s.afterExtract hi lo) :=
  finish_next h

/-- What the leaf header can do when it answers a next state. -/
theorem execLeaf_next {opcode : OpcId} {nfields : BitVec 4} {s t : State} (h : execLeaf opcode nfields s = .next t) :
    (nfields.toNat ≤ s.roms.params.maxFields ∧ t = { s with
        work := { s.work with
          leaf := { s.work.leaf with header := headerOf opcode nfields }
          record := freshRecord opcode
          fidx := 0
          phase := .resolving } }) ∨
      s.roms.params.maxFields < nfields.toNat ∧ s.cfg.check = .failClosed ∧ t = attemptFail .field s := by
  unfold execLeaf at h
  split at h
  · rename_i hlt
    cases hc : s.cfg.check with
    | trust => simp [hc] at h
    | failClosed => exact .inr ⟨hlt, rfl, by simpa [hc, eq_comm] using h⟩
  · rename_i hle
    exact .inl ⟨Nat.not_lt.mp hle, by simpa [eq_comm] using h⟩

/-- Everything one step can do when it answers a next state. -/
theorem step_cases {s t : State} (h : step s = .next t) :
    (s.work.phase = .idle ∧ s.request.req = false ∧ t = s) ∨
      (s.work.phase = .idle ∧ s.request.req = true ∧ s.aux.grain = .call ∧ execDecode s = .next t) ∨
      (s.work.phase = .idle ∧ s.request.req = true ∧ s.aux.grain = .cursor ∧ t = startCall s) ∨
      (s.work.phase = .matching ∧ s.request.req = false ∧ ∃ l, lookupLeaf s.env s.work.word s.work.tidx = .ok l ∧
        execLeaf l.opcode (headerNfields l.header) (s.withLeaf l) = .next t) ∨
      (s.work.phase = .matching ∧ s.request.req = false ∧ ∃ c, lookupLeaf s.env s.work.word s.work.tidx = .fail c ∧
        t = attemptFail c s) ∨
      (s.work.phase = .resolving ∧ s.request.req = false ∧ s.work.fidx < s.work.leaf.nfields ∧
        ∃ c, OperandClass.ofCode (fdClass (fetchDescriptor s)) = some c ∧
          execField c (fdHi (fetchDescriptor s)) (fdLo (fetchDescriptor s)) s = .next t) ∨
      (s.work.phase = .resolving ∧ s.request.req = false ∧ s.work.fidx < s.work.leaf.nfields ∧
        OperandClass.ofCode (fdClass (fetchDescriptor s)) = none ∧ s.cfg.check = .failClosed ∧
        t = attemptFail .field s) ∨
      (s.work.phase = .resolving ∧ s.request.req = false ∧ s.work.leaf.nfields ≤ s.work.fidx ∧ t = callSuccess s) := by
  cases hp : s.work.phase with
  | idle =>
    cases hr : s.request.req with
    | false =>
      simp only [step, fetch, hp, hr, if_true, Host.Outcome.next.injEq] at h
      exact .inl ⟨rfl, rfl, h.symm⟩
    | true =>
      cases hg : s.aux.grain with
      | call =>
        simp only [step, fetch, hp, hr, hg, Bool.true_eq_false, if_false] at h
        exact .inr (.inl ⟨rfl, rfl, rfl, h⟩)
      | cursor =>
        simp only [step, fetch, hp, hr, hg, Bool.true_eq_false, if_false, Host.Outcome.next.injEq] at h
        exact .inr (.inr (.inl ⟨rfl, rfl, rfl, h.symm⟩))
  | matching =>
    cases hr : s.request.req with
    | true => simp [step, fetch, hp, hr] at h
    | false =>
      rw [step_matching hp hr] at h
      cases hl : lookupLeaf s.env s.work.word s.work.tidx with
      | ok l =>
        rw [hl] at h
        exact .inr (.inr (.inr (.inl ⟨rfl, rfl, l, rfl, h⟩)))
      | fail c =>
        simp only [hl, Host.Outcome.next.injEq] at h
        exact .inr (.inr (.inr (.inr (.inl ⟨rfl, rfl, c, rfl, h.symm⟩))))
      | refuse r => simp [hl] at h
  | resolving =>
    cases hr : s.request.req with
    | true => simp [step, fetch, hp, hr] at h
    | false =>
      by_cases hf : s.work.fidx < s.work.leaf.nfields
      · rw [step_resolving hp hr hf] at h
        cases hc : OperandClass.ofCode (fdClass (fetchDescriptor s)) with
        | some c =>
          rw [hc] at h
          exact .inr (.inr (.inr (.inr (.inr (.inl ⟨rfl, rfl, hf, c, rfl, h⟩)))))
        | none =>
          cases hk : s.cfg.check with
          | trust => simp [hc, hk] at h
          | failClosed =>
            simp only [hc, hk, violation_failClosed, finish_fail, Host.Outcome.next.injEq] at h
            exact .inr (.inr (.inr (.inr (.inr (.inr (.inl ⟨rfl, rfl, hf, rfl, rfl, h.symm⟩))))))
      · rw [step_resolved hp hr (Nat.not_lt.mp hf)] at h
        simp only [Host.Outcome.next.injEq] at h
        exact .inr (.inr (.inr (.inr (.inr (.inr (.inr ⟨rfl, rfl, Nat.not_lt.mp hf, h.symm⟩))))))

/-- Where an attempt's failure leaves the sequencing (60_exceptions.md R207). -/
theorem attemptFail_cases (c : Cause) (s : State) :
    (s.work.order = [] ∧ attemptFail c s = callFail .noMatch { s with aux := { s.aux with attemptCause := some c } }) ∨
      ∃ t rest, s.work.order = t :: rest ∧ attemptFail c s = { s with
        work := { s.work with record := Record.empty, fidx := 0, tidx := t, order := rest, phase := .matching }
        aux := { s.aux with attemptCause := some c } } := by
  unfold attemptFail
  cases s.work.order with
  | nil => exact .inl ⟨rfl, rfl⟩
  | cons t rest => exact .inr ⟨t, rest, rfl, rfl⟩

/-! ### Runs -/

theorem runSteps_zero (s : State) : runSteps 0 s = .next s := rfl

theorem runSteps_succ (n : Nat) (s : State) :
    runSteps (n + 1) s = match step s with
      | .next t => runSteps n t
      | .fault f => .fault f
      | .refused r => .refused r := by
  have h : Sys2Proof.core.step s = step s := rfl
  simp only [runSteps, Host.Core.run, h]
  cases step s <;> rfl

theorem runSteps_add (m n : Nat) (s : State) :
    runSteps (m + n) s = match runSteps m s with
      | .next t => runSteps n t
      | .fault f => .fault f
      | .refused r => .refused r := by
  induction m generalizing s with
  | zero => simp [runSteps_zero]
  | succ m ih =>
    rw [Nat.add_right_comm, runSteps_succ, runSteps_succ]
    cases step s with
    | next t => exact ih t
    | fault f => rfl
    | refused r => rfl

/-- Between calls with no request nothing happens, however many steps are run. -/
theorem runSteps_idle (n : Nat) {s : State} (hp : s.work.phase = .idle) (hr : s.request.req = false) :
    runSteps n s = .next s := by
  induction n with
  | zero => rfl
  | succ n ih => rw [runSteps_succ, show step s = .next s by simp [step, fetch, hp, hr]]; exact ih

end Sys2Proof.Machine
end

