-- ==== Sys2Proof/Tests/Slice0.lean ====
section
/-! SUPPORT. The model's own tests.  Expected values are from 95_test_vectors.md (the vector's name stands beside a test), from
the worked examples of the rules, or calculated by hand from them; the fixtures are the spec's.  After the tests, one witness for
the hypotheses of each statement, clause by clause. -/

namespace Sys2Proof.Tests

open Sys2Proof Sys2Proof.Machine

/-! ### Small states -/

def roms : Roms :=
  { params := Config.params
    tables := [Fixtures.tRef0, Fixtures.tRef1]
    bank := Fixtures.bankRef
    policy := Fixtures.policyRef }

def config (bigEndian ext : Bool) (check : CheckMode) (chkBase0 : Bool) : Configuration :=
  { bigEndian := bigEndian, ext := [ext], features := FeatureSet.all, check := check, chkBase0 := chkBase0 }

/-- A request for some bytes, big-endian, no extension mode, `FAIL_CLOSED`, `CHK_BASE0` = 0. -/
def request (bytes : List Byte) : State :=
  { State.reset with
    cfg := config true false .failClosed false
    roms := roms
    request := { req := true, buf := Memory.writeBytes [] 0 bytes, avail := bytes.length, addr := 0#64 } }

def setCheck (check : CheckMode) (s : State) : State := { s with cfg := { s.cfg with check := check } }
def setBase0 (s : State) : State := { s with cfg := { s.cfg with chkBase0 := true } }
def setParams (p : Params) (s : State) : State := { s with roms := { s.roms with params := p } }
def setExt (s : State) : State := { s with cfg := { s.cfg with ext := [true] } }
def setGrain (s : State) : State := { s with aux := { s.aux with grain := .cursor } }

/-- A call in which an opcode's field is reached with some operands in the list. -/
def field (word : Word) (opcode : OpcId) (ops : List Operand) : State :=
  { request [] with
    request := { req := false, buf := [], avail := 4, addr := 0#64 }
    work := { State.reset.work with
      word := word
      leaf := ⟨headerOf opcode 2#4, [0x0E6A0000#32, 0xC5000200#32]⟩
      record := { opcode := opcode, ops := ops, len := 0#3 }
      phase := .resolving } }

def next (o : Host.Outcome State Fault Refusal) : Option State :=
  match o with
  | .next s => some s
  | .fault _ => none
  | .refused _ => none

def refusal (o : Host.Outcome State Fault Refusal) : Option Refusal :=
  match o with
  | .next _ => none
  | .fault _ => none
  | .refused r => some r

def result (i : Instr) (s : State) : Option OpResult := (next (exec i s)).map (·.aux.result)
def ops (i : Instr) (s : State) : Option (List Operand) := (next (exec i s)).map (·.work.record.ops)
def cause (i : Instr) (s : State) : Option Cause := (next (exec i s)).bind (·.aux.attemptCause)
def response (i : Instr) (s : State) : Option Response := (next (exec i s)).map (·.response)

def success (opcode : OpcId) (ops : List Operand) : Option Response :=
  some { rsp := true, status := .success, outRec := { opcode := opcode, ops := ops, len := 4#3 }, consumed := 4#3 }
def failure : Option Response :=
  some { rsp := true, status := .fail, outRec := { opcode := 0, ops := [], len := 0#3 }, consumed := 0#3 }

/-! ### WellFormed refuses an ill-formed term of each check -/

theorem test_wf_range : (Instr.gpr 3 4 0).wellFormed = false ∧ (Instr.crbitm 0 31 0).wellFormed = false ∧
    (Instr.memrix 2 20 1).wellFormed = false ∧ (Instr.simm 5 5 0).wellFormed = true := by decide
theorem test_wf_width : (Instr.memri 19 0 1).wellFormed = false ∧ (Instr.memri 20 0 1).wellFormed = true ∧
    (Instr.memrix 20 1 1).wellFormed = false ∧ (Instr.memrix 20 2 1).wellFormed = true ∧
    (Instr.crbitm 20 12 1).wellFormed = false ∧ (Instr.crbitm 19 12 1).wellFormed = true := by decide
theorem test_wf_extract : (Instr.extract 0 4 5).wellFormed = false ∧ (Instr.extract 0 32 0).wellFormed = false := by decide
theorem test_wf_sext : (Instr.sext 1 0).wellFormed = false ∧ (Instr.sext 1 65).wellFormed = false := by decide
theorem test_wf_shl : (Instr.shl 1 64).wellFormed = false := by decide
theorem test_wf_ctz : (Instr.ctz 0).wellFormed = false := by decide
theorem test_wf_opsInsert : (Instr.opsInsert 8 (.imm 0)).wellFormed = false := by decide
theorem test_wf_register : (Instr.opsAppend (.reg 0)).wellFormed = false ∧
    (Instr.opsAppend (.reg 0x10000)).wellFormed = false ∧ (Instr.opsInsert 0 (.reg 0)).wellFormed = false := by decide
theorem test_wf_bank : (Instr.resolve 0 1).wellFormed = false ∧ (Instr.resolve 14 1).wellFormed = false := by decide
theorem test_wf_policy : (Instr.policy 0x10000).wellFormed = false := by decide
theorem test_wf_match : (Instr.matchLeaf 0 0 ⟨[2, 1]⟩).wellFormed = false := by decide
theorem test_wf_leaf : (Instr.leaf 1 9).wellFormed = false ∧ (Instr.leaf 0x10000 1).wellFormed = false := by decide

/-! ### Decoding: words written out from the formats (30_encoding.md R61, R62; 95_test_vectors.md section 3) -/

/-- `class ++ hi ++ lo ++ fid ++ reserved`, from R61 and the class codes of R63; the reserved bits are ignored (R73). -/
theorem test_decode_register_classes :
    decodeDescriptor 0b00001_11001_10101_00000000_000000000#32 = some (.gpr 25 21 0) ∧
    decodeDescriptor 0b00010_10100_10000_00000001_000000000#32 = some (.gprz 20 16 1) ∧
    decodeDescriptor 0b00011_11001_10101_00000000_111111111#32 = some (.g64 25 21 0) ∧
    decodeDescriptor 0b00100_01111_01011_00000010_000000000#32 = some (.fps 15 11 2) ∧
    decodeDescriptor 0b00101_01111_01011_00000010_000000000#32 = some (.fpd 15 11 2) ∧
    decodeDescriptor 0b00110_11001_10101_00000000_000000000#32 = some (.vec 25 21 0) ∧
    decodeDescriptor 0b00111_00101_00001_11111111_000000000#32 = some (.vsxl 5 1 255) := by decide
theorem test_decode_more_register_classes :
    decodeDescriptor 0b01000_00101_00001_00000011_000000000#32 = some (.vsxh 5 1 3) ∧
    decodeDescriptor 0b01001_00110_00001_00000011_000000000#32 = some (.vsf 6 1 3) ∧
    decodeDescriptor 0b01010_11001_10111_00000000_000000000#32 = some (.cr 25 23 0) ∧
    decodeDescriptor 0b01011_10100_10000_00000001_000000000#32 = some (.crb 20 16 1) ∧
    decodeDescriptor 0b01100_11001_10101_00000000_000000000#32 = some (.pf0 25 21 0) ∧
    decodeDescriptor 0b01101_11111_11010_00000000_000000001#32 = some (.pf1 31 26 0) := by decide
theorem test_decode_other_classes :
    decodeDescriptor 0b10000_01111_00000_00000010_000000000#32 = some (.uimm 15 0 2) ∧
    decodeDescriptor 0b10001_01111_00000_00000010_000000000#32 = some (.simm 15 0 2) ∧
    decodeDescriptor 0b11000_10100_00000_00000001_000000000#32 = some (.memri 20 0 1) ∧
    decodeDescriptor 0b11001_10100_00010_00000001_000000000#32 = some (.memrix 20 2 1) ∧
    decodeDescriptor 0b11010_10011_01100_00000001_000000000#32 = some (.crbitm 19 12 1) := by decide
/-- R72: the reserved class codes 0, 14, 15, 18 to 23 and 27 to 31. -/
theorem test_decode_reserved_classes :
    ∀ k ∈ [0, 14, 15, 18, 19, 20, 21, 22, 23, 27, 28, 29, 30, 31],
      decodeDescriptor (BitVec.ofNat 32 (k * 2 ^ 27 + 0x06400000)) = none := by decide
/-- The descriptor words of 95_test_vectors.md section 3. -/
theorem test_decode_fixture_descriptors :
    Fixtures.leafAddi.fds.map decodeDescriptor = [some (.gpr 25 21 0), some (.gprz 20 16 1), some (.simm 15 0 2)] ∧
    Fixtures.leafStdu.fds.map decodeDescriptor = [some (.g64 25 21 0), some (.memrix 20 2 1)] ∧
    Fixtures.leafOri.fds.map decodeDescriptor = [some (.gpr 20 16 0), some (.gpr 25 21 1), some (.uimm 15 0 2)] ∧
    Fixtures.leafPfadd.fds.map decodeDescriptor = [some (.pf0 25 21 0), some (.pf0 20 16 1), some (.pf0 15 11 2)] := by decide
/-- R62: the header of `FX_PFADD`, and one with its reserved bits set. -/
theorem test_decode_header :
    decodeHeader 0b0000000100000001_0011_000000000000 = .leaf 0x0101 3 ∧
    decodeHeader 0b1111111111111111_1000_111111111111 = .leaf 0xFFFF 8 := by decide
/-- R169: words of `T_REF0` with the field layouts of its leaves. -/
theorem test_decode_primary :
    decodePrimary 0b001110_00011_00100_1000000000000000#32 = some (.fxAddi 3 4 0x8000) ∧
    decodePrimary 0b100000_01001_00010_0000000000001000#32 = some (.fxLwz 9 2 8) ∧
    decodePrimary 0b100001_01001_11111_1111111111111100#32 = some (.fxLwzu 9 31 0xFFFC) ∧
    decodePrimary 0b100101_00001_00101_0000000000010000#32 = some (.fxStwu 1 5 0x0010) ∧
    decodePrimary 0b111010_00111_00110_11111111111110_01#32 = some (.fxLdu 7 6 0x3FFE) ∧
    decodePrimary 0b111110_00001_00001_11111111100100_01#32 = some (.fxStdu 1 1 0x3FE4) := by decide
theorem test_decode_more_primary :
    decodePrimary 0b011111_00011_1_00000001_0_0000010011_0#32 = some (.fxMfocrf 3 0x01 0 0) ∧
    decodePrimary 0b011111_00011_1_10000000_1_0000010011_1#32 = some (.fxMfocrf 3 0x80 1 1) ∧
    decodePrimary 0b111111_00001_00010_00011_0000010101_0#32 = some (.fxFadd 1 2 3 0) ∧
    decodePrimary 0b000100_00010_00011_00100_00000000000#32 = some (.fxVadd 2 3 4) ∧
    decodePrimary 0b011000_00110_00101_1111111111111111#32 = some (.fxOri 6 5 0xFFFF) ∧
    decodePrimary 0b111010_00111_00110_11111111111110_00#32 = none ∧
    decodePrimary 0x10002594#32 = none := by decide
theorem test_decode_extension :
    decodeExtension 0b000100_00010_00011_00100_00000000000#32 = some (.fxPfadd 2 3 4) ∧
    decodeExtension 0x38648000#32 = none := by decide
/-- V-DEC-15 in both byte orders, with a byte that is left over; a short sequence. -/
theorem test_decode_bytes :
    decodeBytes true .primary [0x94, 0x25, 0x00, 0x10, 0xAA] = .ok (.fxStwu 1 5 0x10, [0xAA]) ∧
    decodeBytes false .primary [0x10, 0x00, 0x25, 0x94] = .ok (.fxStwu 1 5 0x10, []) ∧
    decodeBytes false .primary [0x94, 0x25, 0x00, 0x10] = .error .noLeaf ∧
    decodeBytes true .descriptor [0x94, 0x25, 0x00] = .error .short ∧
    decodeBytes true .descriptor [0x70, 0x00, 0x00, 0x00] = .error (.reservedClass 14) := by decide
/-- A bare word (log entry 10): a descriptor, an instruction word whose top five bits are a reserved class, a header. -/
theorem test_decode_table_word :
    decodeTableWord 32 0x0E6A0000 = some (.gpr 25 21 0) ∧ decodeTableWord 32 0x94250010 = some (.fxStwu 1 5 0x10) ∧
    decodeTableWord 32 0x00013000 = some (.leaf 1 3) ∧ decodeTableWord 32 0x00000001 = none ∧
    decodeTableWord 0 0 = none := by decide

/-! ### The primitives (95_test_vectors.md 2.1 to 2.4) -/

/-- V-EXT-5, V-EXT-3. -/
theorem test_extract : result (.extract 0xF821FF91 20 2) (request []) = some (.bits 0x7FE4) ∧
    result (.extract 0xFFFFFFFF 31 0) (request []) = some (.bits 0xFFFFFFFF) := by decide
/-- V-EXT-4, V-EXT-7. -/
theorem test_extract_top : result (.extract 0x80000000 31 31) (request []) = some (.bits 1) ∧
    cause (.extract 0 4 5) (request []) = some .field ∧
    refusal (exec (.extract 0 4 5) (setCheck .trust (request []))) = some .fieldRange := by decide
/-- V-SEXT-4, V-SEXT-5. -/
theorem test_sext : result (.sext 0x18000 16) (request []) = some (.bits 0xFFFFFFFFFFFF8000) ∧
    result (.sext 1 1) (request []) = some (.bits 0xFFFFFFFFFFFFFFFF) := by decide
/-- V-SEXT-9, V-SEXT-12. -/
theorem test_sext_wide : result (.sext 0x8000000000000000 64) (request []) = some (.bits 0x8000000000000000) ∧
    result (.sext 0x7FFFFFFF 32) (request []) = some (.bits 0x7FFFFFFF) := by decide
/-- V-SHL-4, V-SHL-1. -/
theorem test_shl : result (.shl 3 63) (request []) = some (.bits 0x8000000000000000) ∧
    result (.shl 0x3FE4 2) (request []) = some (.bits 0xFF90) := by decide
/-- V-CTZ-3, V-CTZ-4, V-CTZ-5. -/
theorem test_ctz : result (.ctz 0x28) (request []) = some (.bits 3) ∧
    result (.ctz 0x100) (request []) = some (.bits 8) ∧ cause (.ctz 0) (request []) = some .onehot := by decide

/-! ### The ROM lookups and the operand list -/

/-- V-REG-12, V-REG-19. -/
theorem test_resolve : result (.resolve 9 63) (request []) = some (.register 0x083F) ∧
    cause (.resolve 9 64) (request []) = some .index ∧
    refusal (exec (.resolve 9 64) (setCheck .trust (request []))) = some .indexRange := by decide
/-- `POLICY_ROM_REF` (R169). -/
theorem test_policy : result (.policy 4) (request []) = some (.policy .tiedStore) ∧
    result (.policy 5) (request []) = some (.policy .tiedOut) ∧
    result (.policy 0xFFFF) (request []) = some (.policy .none) := by decide
/-- R47, R56. -/
theorem test_opsAppend : ops (.opsAppend (.imm 7)) (field 0 1 [.reg 1]) = some [.reg 1, .imm 7] ∧
    cause (.opsAppend (.imm 7)) (field 0 1 (List.replicate 8 (.imm 0))) = some .capacity := by decide
/-- R48. -/
theorem test_opsInsert : ops (.opsInsert 1 (.imm 7)) (field 0 1 [.reg 1, .reg 2]) = some [.reg 1, .imm 7, .reg 2] ∧
    cause (.opsInsert 2 (.imm 7)) (field 0 1 [.reg 1]) = some .position := by decide

/-! ### The register classes (95_test_vectors.md 2.5) -/

/-- V-REG-1, V-REG-18. -/
theorem test_gpr : ops (.gpr 4 0 0) (field 0 1 []) = some [.reg 0x0100] ∧
    cause (.gpr 5 0 0) (field 32 1 []) = some .index := by decide
/-- V-REG-3, V-REG-4. -/
theorem test_gprz : ops (.gprz 4 0 0) (field 0 1 []) = some [.reg 0x0F00] ∧
    ops (.gprz 9 5 0) (field 0xA0 1 []) = some [.reg 0x0105] := by decide
/-- V-REG-5 to V-REG-8. -/
theorem test_g64_fps_fpd_vec : ops (.g64 4 0 0) (field 1 1 []) = some [.reg 0x0201] ∧
    ops (.fps 4 0 0) (field 31 1 []) = some [.reg 0x031F] ∧ ops (.fpd 4 0 0) (field 2 1 []) = some [.reg 0x0402] ∧
    ops (.vec 4 0 0) (field 2 1 []) = some [.reg 0x0502] := by decide
/-- V-REG-9 to V-REG-11. -/
theorem test_vsxl_vsxh_vsf : ops (.vsxl 4 0 0) (field 10 1 []) = some [.reg 0x060A] ∧
    ops (.vsxh 4 0 0) (field 10 1 []) = some [.reg 0x070A] ∧
    ops (.vsf 5 0 0) (field 40 1 []) = some [.reg 0x0828] := by decide
/-- V-REG-13 to V-REG-17. -/
theorem test_cr_crb_pf0_pf1 : ops (.cr 2 0 0) (field 7 1 []) = some [.reg 0x0907] ∧
    cause (.cr 3 0 0) (field 8 1 []) = some .index ∧ ops (.crb 4 0 0) (field 2 1 []) = some [.reg 0x0A02] ∧
    ops (.pf0 4 0 0) (field 2 1 []) = some [.reg 0x0B02] ∧ ops (.pf1 4 0 0) (field 2 1 []) = some [.reg 0x0C02] := by decide

/-! ### Immediates, memory operands and masks (95_test_vectors.md 2.6 to 2.8) -/

/-- V-UIMM-3. -/
theorem test_uimm : ops (.uimm 31 0 0) (field 0xFFFFFFFF 1 []) = some [.imm 0xFFFFFFFF] := by decide
/-- V-SIMM-4, V-SIMM-6. -/
theorem test_simm : ops (.simm 4 0 0) (field 0x10 1 []) = some [.imm 0xFFFFFFFFFFFFFFF0] ∧
    ops (.simm 7 7 0) (field 0x80 1 []) = some [.imm 0xFFFFFFFFFFFFFFFF] := by decide
/-- V-MEM-3, V-MEM-9, V-MEM-5. -/
theorem test_memri :
    ops (.memri 20 0 0) (field 0x50010 4 [.reg 0x0101]) = some [.reg 0x0101, .reg 0x0105, .imm 16, .reg 0x0105] ∧
    ops (.memri 20 0 0) (field 0x50010 3 [.imm 1, .imm 2]) =
      some [.reg 0x0105, .imm 1, .imm 2, .imm 16, .reg 0x0105] ∧
    ops (.memri 20 0 0) (field 0x00008 2 [.reg 0x0109]) = some [.reg 0x0109, .imm 8, .reg 0x0F00] := by decide
/-- V-MEM-6 with `CHK_BASE0` = 1, V-MEM-10, V-MEM-11. -/
theorem test_memri_fails :
    cause (.memri 20 0 0) (setBase0 (field 0x00010 4 [.reg 0x0101])) = some .base0 ∧
    cause (.memri 20 0 0) (field 0x50010 4 []) = some .position ∧
    refusal (exec (.memri 20 0 0) (setCheck .trust (field 0x50010 4 [.imm 1, .imm 2]))) = some .tiedPosition ∧
    cause (.memri 21 0 0) (field 0x200000 2 []) = some .index := by decide
/-- V-MEMX-1, V-MEMX-3. -/
theorem test_memrix :
    ops (.memrix 18 0 0) (field 0x7FE4 6 [.reg 0x0201]) =
      some [.reg 0x0201, .reg 0x0101, .imm (BitVec.ofInt 64 (-112)), .reg 0x0101] ∧
    ops (.memrix 18 0 0) (field 0x1A000 5 [.reg 0x0207]) =
      some [.reg 0x0106, .reg 0x0207, .imm (BitVec.ofInt 64 (-32768)), .reg 0x0106] := by decide
/-- V-CRM-1, V-CRM-8, V-CRM-9. -/
theorem test_crbitm : ops (.crbitm 7 0 0) (field 0x01 7 []) = some [.reg 0x0907] ∧
    ops (.crbitm 7 0 0) (field 0x80 7 []) = some [.reg 0x0900] ∧
    cause (.crbitm 7 0 0) (field 0x28 7 []) = some .onehot ∧
    ops (.crbitm 7 0 0) (setCheck .trust (field 0x28 7 [])) = some [.reg 0x0904] := by decide
/-- V-CRM-12, V-CRM-13. -/
theorem test_crbitm_no_position : cause (.crbitm 8 0 0) (field 0x100 7 []) = some .onehot ∧
    refusal (exec (.crbitm 8 0 0) (setCheck .trust (field 0x100 7 []))) = some .maskPosition ∧
    refusal (exec (.crbitm 7 0 0) (setCheck .trust (field 0 7 []))) = some .maskPosition := by decide

/-! ### Matcher, dispatch, attempt, header (44_matcher_dispatch.md) -/

/-- P1 step 2, P4 step 2. -/
theorem test_match : result (.matchLeaf 0 0x38648000 FeatureSet.all) (request []) = some (.leaf (some Fixtures.leafAddi)) ∧
    result (.matchLeaf 1 0x38648000 FeatureSet.all) (request []) = some (.leaf none) ∧
    cause (.matchLeaf 2 0x38648000 FeatureSet.all) (request []) = some .index := by decide
/-- R164 with `RAW` = 0: the class decides, whatever the range. -/
theorem test_dispatch : ops (.dispatch 0x15200200) (field 0 1 [.reg 1]) = some [.reg 1, .reg 0x0F00] ∧
    cause (.dispatch 0x70000000) (field 0 1 []) = some .field := by decide
/-- P6: the record of a failed attempt is discarded; P3: the record of one that succeeds has no length yet. -/
theorem test_attempt :
    result (.attempt 0) (field 0x7C728026 1 [.reg 1]) = some (.attempt none) ∧
    result (.attempt 0) (field 0xF821FF91 1 [.reg 1]) =
      some (.attempt (some ⟨6, [.reg 0x0201, .reg 0x0101, .imm (BitVec.ofInt 64 (-112)), .reg 0x0101], 0⟩)) := by decide
/-- R163: the attempt's fresh record; R165: more than `MAXFIELDS` descriptors. -/
theorem test_leaf : (next (exec (.leaf 0x0101 3) (field 0 1 [.reg 1]))).map (·.work.record) = some ⟨0x0101, [], 0⟩ ∧
    cause (.leaf 1 9) (field 0 1 []) = some .field := by decide

/-! ### Assembling and decoding (95_test_vectors.md 2.9 and section 4) -/

/-- V-DEC-15 and V-DEC-4: one byte sequence in the two byte orders. -/
theorem test_assemble :
    (next (exec .assemble (request [0x94, 0x25, 0x00, 0x10]))).map (·.work.word) = some 0x94250010 ∧
    (next (exec .assemble { request [0x94, 0x25, 0x00, 0x10] with
      cfg := config false false .failClosed false })).map (·.work.word) = some 0x10002594 := by decide
/-- P1, P4: the fallback leaves no residue. -/
theorem test_decode_fallback :
    response .decode (request [0x38, 0x64, 0x80, 0x00]) =
      success 1 [.reg 0x0103, .reg 0x0104, .imm 0xFFFFFFFFFFFF8000] ∧
    response .decode (setExt (request [0x38, 0x64, 0x80, 0x00])) =
      success 1 [.reg 0x0103, .reg 0x0104, .imm 0xFFFFFFFFFFFF8000] := by decide
/-- V-DEC-8, V-DEC-28, V-DEC-29. -/
theorem test_decode_failures :
    response .decode (request [0x94, 0x25, 0x00]) = failure ∧
    response .decode (request [0x7C, 0x72, 0x80, 0x26]) = failure ∧
    response .decode (setCheck .trust (request [0x7C, 0x72, 0x80, 0x26])) = success 7 [.reg 0x0103, .reg 0x0904] ∧
    refusal (exec .decode (setCheck .trust (request [0x7C, 0x70, 0x00, 0x26]))) = some .maskPosition := by decide

/-! ### The fixture leaves -/

/-- V-DEC-10, V-DEC-26. -/
theorem test_fxAddi_fxOri :
    response (.fxAddi 31 31 0xFFFF) (request []) = success 1 [.reg 0x011F, .reg 0x011F, .imm 0xFFFFFFFFFFFFFFFF] ∧
    response (.fxOri 6 5 0xFFFF) (request []) = success 0x000A [.reg 0x0105, .reg 0x0106, .imm 0xFFFF] := by decide
/-- V-DEC-12, V-DEC-14, V-DEC-15, V-DEC-16. -/
theorem test_fxLwz_fxLwzu_fxStwu :
    response (.fxLwz 0 31 0xFFFF) (request []) = success 2 [.reg 0x0100, .imm 0xFFFFFFFFFFFFFFFF, .reg 0x011F] ∧
    response (.fxLwzu 9 31 0xFFFC) (request []) =
      success 3 [.reg 0x011F, .reg 0x0109, .imm 0xFFFFFFFFFFFFFFFC, .reg 0x011F] ∧
    response (.fxStwu 1 5 0x0010) (request []) = success 4 [.reg 0x0101, .reg 0x0105, .imm 16, .reg 0x0105] ∧
    response (.fxStwu 1 0 0x0010) (setBase0 (request [])) = failure := by decide
/-- V-DEC-18, V-DEC-20. -/
theorem test_fxLdu_fxStdu :
    response (.fxLdu 7 6 0x2000) (request []) =
      success 5 [.reg 0x0106, .reg 0x0207, .imm (BitVec.ofInt 64 (-32768)), .reg 0x0106] ∧
    response (.fxStdu 1 1 0x3FE4) (request []) =
      success 6 [.reg 0x0201, .reg 0x0101, .imm (BitVec.ofInt 64 (-112)), .reg 0x0101] := by decide
/-- V-DEC-22, V-DEC-24, V-DEC-25, P5. -/
theorem test_fxMfocrf_fxFadd_fxVadd_fxPfadd :
    response (.fxMfocrf 3 0x80 0 0) (request []) = success 7 [.reg 0x0103, .reg 0x0900] ∧
    response (.fxFadd 31 0 15 0) (request []) = success 8 [.reg 0x041F, .reg 0x0400, .reg 0x040F] ∧
    response (.fxVadd 2 3 4) (request []) = success 9 [.reg 0x0502, .reg 0x0503, .reg 0x0504] ∧
    response (.fxPfadd 2 3 4) (setExt (request [])) = success 0x0101 [.reg 0x0B02, .reg 0x0B03, .reg 0x0B04] := by decide

/-- R5, D9: `TIED_STORE_POS` and `MAXOPS` are the build's; with 2 and 4 the tied operand is inserted at index 2 of a list that
has no room for the base. -/
theorem test_parameters :
    ops (.memri 20 0 0) (setParams { Config.params with tiedStorePos := 2 } (field 0x50010 4 [.imm 1, .imm 2])) =
      some [.imm 1, .imm 2, .reg 0x0105, .imm 16, .reg 0x0105] ∧
    cause (.memri 20 0 0) (setParams { Config.params with tiedStorePos := 2 } (field 0x50010 4 [.imm 1])) = some .position ∧
    cause (.memri 20 0 0) (setParams { Config.params with tiedStorePos := 2, maxOps := 4 }
      (field 0x50010 4 [.imm 1, .imm 2])) = some .capacity := by decide

/-! ### Steps -/

/-- P2, one step, in the little-endian order of start state B. -/
theorem test_step_call :
    (next (step { request [0xFC, 0xFF, 0x3F, 0x85] with cfg := config false false .failClosed false })).map (·.response) =
      success 3 [.reg 0x011F, .reg 0x0109, .imm 0xFFFFFFFFFFFFFFFC, .reg 0x011F] := by decide
/-- P5: with the mode on the extension table wins; with it off the primary table does. -/
theorem test_step_extension :
    (next (step (setExt (request [0x10, 0x43, 0x20, 0x00])))).map (·.response) =
      success 0x0101 [.reg 0x0B02, .reg 0x0B03, .reg 0x0B04] ∧
    (next (step (request [0x10, 0x43, 0x20, 0x00]))).map (·.response) =
      success 9 [.reg 0x0502, .reg 0x0503, .reg 0x0504] := by decide
/-- The word of a row, placed after reset, is what the next step runs: a descriptor, a leaf header, an instruction word. -/
theorem test_step_placed_word :
    (next (step (State.reset.withFetchWord 32 0x83C00400))).map (·.work.record) = some ⟨0, [.imm 0], 0⟩ ∧
    (next (step (State.reset.withFetchWord 32 0x00013000))).map (·.work.record) = some ⟨1, [], 0⟩ ∧
    (next (step (State.reset.withFetchWord 32 0x7C701026))).map (·.response.outRec.opcode) = some 7 := by decide

/-! ### Witnesses: a concrete state and operands for the hypotheses of each statement, clause by clause -/

def seven : List Operand := List.replicate 7 (.imm 1)
def eight : List Operand := List.replicate 8 (.imm 1)

theorem attemptFails_of_result {t : Nat} {s : State} (h : result (.attempt t) s = some (.attempt none)) :
    AttemptFails t s := by
  unfold result next at h
  split at h
  · rename_i u hu
    exact ⟨u, hu, by simpa using h⟩
  · simp at h
  · simp at h

theorem attemptSucceeds_of_result {t : Nat} {s : State} {rec : Record}
    (h : result (.attempt t) s = some (.attempt (some rec))) : AttemptSucceeds t s rec := by
  unfold result next at h
  split at h
  · rename_i u hu
    exact ⟨u, hu, by simpa using h⟩
  · simp at h
  · simp at h

theorem witness_ExtractYieldsFieldBits :
    ((0 : Nat) ≤ 31 ∧ (31 : Nat) ≤ 31 ∧ result (.extract 0xFFFFFFFF 31 0) (request []) = some (.bits 0xFFFFFFFF)) ∧
    ((31 : Nat) ≤ 31 ∧ result (.extract 0x80000000 31 31) (request []) = some (.bits 1)) := by decide

theorem witness_SextReplicatesSignBit :
    ((1 : Nat) ≤ 1 ∧ (1 : Nat) ≤ 64 ∧ result (.sext 1 1) (request []) = some (.bits 0xFFFFFFFFFFFFFFFF)) ∧
    ((64 : Nat) ≤ 64 ∧ result (.sext 0x8000000000000000 64) (request []) = some (.bits 0x8000000000000000)) := by decide

theorem witness_ShlDropsHighBits :
    ((0 : Nat) ≤ 63 ∧ result (.shl 5 0) (request []) = some (.bits 5)) ∧
    ((63 : Nat) ≤ 63 ∧ result (.shl 1 63) (request []) = some (.bits 0x8000000000000000)) := by decide

theorem witness_CtzCountsTrailingZeros :
    (1#64 ≠ 0#64 ∧ 0x8000000000000000#64 ≠ 0#64) ∧
    result (.ctz 0x8000000000000000) (request []) = some (.bits 63) ∧
    (next (exec (.ctz 0) (request []))).isSome = true := by decide

theorem witness_OperationsOutsideDomain :
    ((4 : BitVec 5) < 5 ∨ (31 : Nat) < 4) ∧ (31 : Nat) < 32 ∧ (64 : Nat) < 65 ∧ (64 : Nat) ≤ 64 ∧
    (request []).roms.tables.length ≤ 2 ∧ (request [1, 2, 3]).request.avail < 4 ∧ (request []).cfg.check = .failClosed ∧
    (setCheck .trust (request [])).cfg.check = .trust := by decide

theorem witness_ScalingAndExtendingCommute :
    0 < 2 ^ 14 ∧ 0x2000 < 2 ^ 14 ∧ 0x3FFF < 2 ^ 14 ∧ signed (sext (shl 0x2000 2) 16) = -32768 := by decide

theorem witness_ResolveReadsBankRom :
    (1 ≤ 13 ∧ (request []).roms.bank[13 - 1]? = some (Fixtures.bankRow 0x0C 32) ∧
      (Fixtures.bankRow 0x0C 32)[31]? = some 0x0C1F ∧ (Fixtures.bankRow 0x0C 32).length ≤ 32) ∧
    (request []).roms.bank[1 - 1]? = some (Fixtures.bankRow 0x01 32) ∧ (request []).roms.bank.length < 14 := by decide

theorem witness_PolicyReadsPolicyRom :
    (∀ e ∈ (request []).roms.policy, e.1 ≠ 7) ∧
    ((request []).roms.policy = [(3, 1#2)] ++ (4, 2#2) :: [(5, 1#2), (6, 2#2)] ∧
      ∀ e ∈ [((3 : OpcId), 1#2)], e.1 ≠ 4) ∧
    (request []).roms.policy = [] ++ (3, 1#2) :: [(4, 2#2), (5, 1#2), (6, 2#2)] ∧
    policyCode ([] ++ ((7 : OpcId), 0#2) :: []) 7 = 0#2 ∧ policyCode ([] ++ ((7 : OpcId), 3#2) :: []) 7 = 3#2 :=
  ⟨by simp [request, roms, Fixtures.policyRef], ⟨rfl, by simp⟩, rfl, rfl, rfl⟩

theorem witness_GprzAliasesGprExceptZero :
    BankContract (field 0xA0 1 []).roms.params (field 0xA0 1 []).roms.bank ∧ (5 : BitVec 5) ≤ 9 ∧
    extract (field 0xA0 1 []).work.word 9 5 ≠ 0#64 ∧
    (extract (field 0xA0 1 seven).work.word 4 0 = 0#64 ∧ (field 0xA0 1 seven).hasRoom 1 ∧
      (bankTable roms.bank .gprz)[0]? = some 0x0F00 ∧ (bankTable roms.bank .gpr)[0]? = some 0x0100) :=
  ⟨bankRef_contract, by decide, by decide, by decide⟩

theorem witness_OpsAppendAddsAtEnd :
    (field 0 1 seven).hasRoom 1 ∧ ¬(field 0 1 eight).hasRoom 1 := by decide

theorem witness_OpsInsertShiftsUp :
    ((field 0 1 seven).hasRoom 1 ∧ 7 ≤ (field 0 1 seven).work.record.n) ∧ ¬(field 0 1 eight).hasRoom 1 ∧
    (field 0 1 seven).hasRoom 1 ∧ (field 0 1 seven).hasRoom 1 ∧
    ops (.opsInsert 0 (.imm 2)) (field 0 1 seven) = some (.imm 2 :: seven) := by decide

theorem witness_ScalarAndFloatRegisterResolvers :
    (0 : BitVec 5) ≤ 5 ∧
    ((bankTable roms.bank .fps)[(extract (field 31 1 seven).work.word 5 0).toNat]? = some 0x031F ∧
      (field 31 1 seven).hasRoom 1) ∧
    (bankTable roms.bank .gpr).length ≤ (extract (field 32 1 eight).work.word 5 0).toNat ∧
    ((extract (field 31 1 eight).work.word 5 0).toNat < (bankTable roms.bank .vec).length ∧
      ¬(field 31 1 eight).hasRoom 1) := by decide

theorem witness_VectorScalarConditionPairedResolvers :
    (0 : BitVec 5) ≤ 6 ∧
    ((bankTable roms.bank .vsf)[(extract (field 63 1 seven).work.word 6 0).toNat]? = some 0x083F ∧
      (field 63 1 seven).hasRoom 1) ∧
    (bankTable roms.bank .cr).length ≤ (extract (field 8 1 eight).work.word 6 0).toNat ∧
    ((extract (field 7 1 eight).work.word 6 0).toNat < (bankTable roms.bank .cr).length ∧
      ¬(field 7 1 eight).hasRoom 1) := by decide

theorem witness_UimmAppendsRawField :
    (0 : BitVec 5) ≤ 31 ∧ (31 : BitVec 5) ≤ 31 ∧ (field 0xFFFFFFFF 1 seven).hasRoom 1 ∧
    ¬(field 0xFFFFFFFF 1 eight).hasRoom 1 := by decide

theorem witness_SimmSignExtendsField :
    (7 : BitVec 5) ≤ 7 ∧ (field 0x80 1 seven).hasRoom 1 ∧ ¬(field 0x80 1 eight).hasRoom 1 ∧
    ops (.simm 31 0 0) (field 0x80000000 1 []) = some [.imm (BitVec.ofInt 64 (-2147483648))] := by decide

theorem witness_MemoryOperandShapes :
    ((bankTable (field 0x1FFFFC 2 (seven.take 6)).roms.bank .gprz)[(extract 0x1FFFFC#32 20 0).toNat / 2 ^ 16]? = some 0x011F ∧
      signed (BitVec.ofInt 64 (-4)) = -4 ∧ (extract 0x1FFFFC#32 20 0).toNat % 2 ^ 16 = 2 ^ 16 - 4 ∧
      policyCode roms.policy 2 = 0#2 ∧ (field 0x1FFFFC 2 (seven.take 6)).hasRoom 2) ∧
    (policyCode roms.policy 3 = 1#2 ∧ (setBase0 (field 0x1FFFFC 3 (seven.take 5))).hasRoom 3 ∧
      ¬((setBase0 (field 0x1FFFFC 3 (seven.take 5))).cfg.chkBase0 = true ∧ (extract 0x1FFFFC#32 20 0).toNat / 2 ^ 16 = 0)) ∧
    (policyCode roms.policy 6 = 2#2 ∧ (field 0 6 [.reg 0x0201]).work.record.n = roms.params.tiedStorePos ∧
      (field 0 6 [.reg 0x0201]).hasRoom 3 ∧
      ¬((field 0 6 [.reg 0x0201]).cfg.chkBase0 = true ∧ (extract 0#32 18 0).toNat / 2 ^ 14 = 0)) ∧
    ops (.memrix 18 0 0) (field 0 6 [.reg 0x0201]) = some [.reg 0x0201, .reg 0x0F00, .imm 0, .reg 0x0F00] := by decide

theorem witness_MemoryOperandFailures :
    (20 - 0 + 1 = roms.params.nBase + 16 ∧ 20 - 2 + 1 = roms.params.nBase + 14 ∧
      (extract 0x1FFFFF#32 20 0).toNat / 2 ^ 16 = 2 ^ roms.params.nBase - 1) ∧
    (bankTable (field 0x200000 3 []).roms.bank .gprz).length ≤ (extract 0x200000#32 21 0).toNat / 2 ^ 16 ∧
    (extract 0x1FFFFF#32 20 0).toNat / 2 ^ 16 < (bankTable (field 0x1FFFFF 3 []).roms.bank .gprz).length ∧
    policyCode [((9 : OpcId), 3#2)] 9 = 3#2 ∧
    (policyCode roms.policy 2 = 0#2 ∧ ¬(field 0x1FFFFF 2 seven).hasRoom 2) ∧
    (policyCode roms.policy 3 = 1#2 ∧ ¬(field 0x1FFFFF 3 (seven.take 6)).hasRoom 3 ∧
      (field 0x1FFFFF 3 (seven.take 6)).cfg.chkBase0 = false) ∧
    (let s := setParams { Config.params with maxOps := 3 } (field 0x1FFFFF 4 [.imm 1])
     policyCode s.roms.policy 4 = 2#2 ∧ s.work.record.n = s.roms.params.tiedStorePos ∧ ¬s.hasRoom 3) := by decide

theorem witness_TiedStoreNeedsOnePrefixOperand :
    (0 : BitVec 5) ≤ 20 ∧ (extract 0x50010#32 20 0).toNat / 2 ^ 16 < (bankTable (field 0x50010 4 []).roms.bank .gprz).length ∧
    policyCode (field 0x50010 4 []).roms.policy (field 0x50010 4 []).work.record.opcode = 2#2 ∧
    (field 0x50010 4 []).cfg.chkBase0 = false ∧ (field 0x50010 4 []).work.record.n ≠ roms.params.tiedStorePos ∧
    (field 0x50010 4 (seven.take 2)).work.record.n ≠ roms.params.tiedStorePos := by decide

theorem witness_BaseIndexZeroCheck :
    (0 : BitVec 5) ≤ 20 ∧ (extract 0xFFFF#32 20 0).toNat < 2 ^ 16 ∧ (bankTable roms.bank .gprz)[0]? = some 0x0F00 ∧
    ((setBase0 (field 0xFFFF 4 [])).cfg.chkBase0 = true ∧ policyCode roms.policy 4 = 2#2) ∧
    ((field 0xFFFF 3 (seven.take 5)).cfg.chkBase0 = false ∧ policyCode roms.policy 3 = 1#2 ∧
      (field 0xFFFF 3 (seven.take 5)).hasRoom 3) ∧
    (field 0xFFFF 4 [.imm 1]).work.record.n = roms.params.tiedStorePos ∧ (field 0xFFFF 4 [.imm 1]).hasRoom 3 := by decide

theorem witness_CrbitmSelectsGroup :
    (0 : BitVec 5) ≤ 8 ∧
    ((0x80#64).getLsbD 7 = true ∧ (∀ j < 7, (0x80#64).getLsbD j = false) ∧ (0x80#64).toNat = 2 ^ 7 ∧
      (bankTable roms.bank .cr)[7 - 7]? = some 0x0900 ∧ (field 0x80 7 seven).hasRoom 1) ∧
    ((0x181#64).getLsbD 0 = true ∧ (setCheck .trust (field 0x181 7 eight)).cfg.check = .trust ∧
      7 - 0 < (bankTable roms.bank .cr).length ∧ ¬(setCheck .trust (field 0x181 7 eight)).hasRoom 1) ∧
    ((bankTable roms.bank .cr).take 7).length ≤ 7 - 0 ∧
    ((∀ p ≤ 7, (0x100#64).toNat ≠ 2 ^ p) ∧ (field 0x100 7 []).cfg.check = .failClosed) ∧
    ((∀ p ≤ 7, (0x100#64).getLsbD p = false) ∧ extract (field 0x100 7 []).work.word 8 0 = 0x100#64) := by decide

theorem witness_DescriptorChecks :
    (3 : BitVec 5) < 4 ∧ (field 0 1 []).roms.params.maxFields < (9#4).toNat ∧
    (let s := { field 0 1 [] with work := { (field 0 1 []).work with leaf := ⟨0x00011000, [0x70000000]⟩ } }
     s.work.phase = .resolving ∧ s.request.req = false ∧ s.work.fidx < s.work.leaf.nfields ∧
       OperandClass.ofCode (fdClass (fetchDescriptor s)) = none) := by decide

theorem witness_MatchAnswersFromTheTable : (request []).roms.tables[1]? = some Fixtures.tRef1 ∧
    matchRows Fixtures.tRef1 0x10432000 FeatureSet.all = some Fixtures.leafPfadd ∧
    matchRows Fixtures.tRef1 0 FeatureSet.all = none := by decide

theorem witness_DispatchSelectsByClass :
    (OperandClass.ofCode (fdClass 0x15200200) = some (.reg .gprz) ∧ fdLo 0x15200200 ≤ fdHi 0x15200200 ∧
      (field 0 1 []).work.raw = extract (field 0 1 []).work.word (fdHi 0x15200200).toNat (fdLo 0x15200200).toNat) ∧
    ((fdClass 0x15200200).toNat = Bank.gprz.number ∧ (bankTable roms.bank .gprz)[0]? = some 0x0F00 ∧
      (field 0 1 seven).work.raw.toNat = 0 ∧ (field 0 1 seven).hasRoom 1) ∧
    (fdClass 0x83C00400).toNat = 16 ∧ OperandClass.ofCode (fdClass 0xF8000000) = none := by decide

theorem witness_AttemptRunsTheLeaf :
    (field 0 1 []).roms.tables[0]? = some Fixtures.tRef0 ∧ matchRows Fixtures.tRef0 0 FeatureSet.all = none ∧
    (matchRows Fixtures.tRef0 0xF821FF91 FeatureSet.all = some Fixtures.leafStdu ∧ Fixtures.leafStdu.nfields ≤ roms.params.maxFields ∧
      runFields (field 0xF821FF91 1 []).env 0xF821FF91 (leafFields Fixtures.leafStdu) 0 ⟨6, [], 0⟩ = .ok (0x7FE4,
        ⟨6, [.reg 0x0201, .reg 0x0101, .imm (BitVec.ofInt 64 (-112)), .reg 0x0101], 0⟩)) ∧
    runFields (field 0 1 []).env 0x7C728026 (leafFields Fixtures.leafMfocrf) 0 ⟨7, [], 0⟩ = .fail .onehot ∧
    runFields (setCheck .trust (field 0 1 [])).env 0x7C700026 (leafFields Fixtures.leafMfocrf) 0 ⟨7, [], 0⟩ =
      .refuse .maskPosition ∧
    matchRows [⟨0, 0, [], ⟨0x00019000, []⟩⟩] 0 FeatureSet.all = some ⟨0x00019000, []⟩ ∧
    roms.params.maxFields < (Leaf.nfields ⟨0x00019000, []⟩) ∧ (Leaf.nfields ⟨0x00010000, []⟩) = 0 := by decide

theorem witness_LeafHeaderMakesRecordFresh :
    (8#4).toNat ≤ (field 0 1 []).roms.params.maxFields ∧ (0#4).toNat ≤ (field 0 1 []).roms.params.maxFields := by decide

theorem witness_FixtureLeavesAreDisjoint :
    Fixtures.tRef0[8]? = some ⟨0xFC0007FF, 0x10000000, [], Fixtures.leafVadd⟩ ∧
    0x10432000#32 &&& 0xFC0007FF#32 = 0x10000000#32 := by decide

theorem witness_AssembleFormsTheWord :
    4 ≤ (request [0x94, 0x25, 0x00, 0x10]).request.avail ∧ (request [0x94, 0x25, 0x00, 0x10]).request.buf.read 0 = 0x94#8 ∧
    (request [0x94, 0x25, 0x00, 0x10]).request.buf.read 2 = 0x00#8 ∧
    (request [0x94, 0x25, 0x00, 0x10]).request.buf.read 3 = 0x10#8 := by decide

theorem witness_EndiannessRoundTrip :
    let s := request [0x94, 0x25, 0x00, 0x10]
    let t := { request [0x10, 0x00, 0x25, 0x94] with cfg := config false false .failClosed false }
    4 ≤ s.request.avail ∧ 4 ≤ t.request.avail ∧ t.roms = s.roms ∧
      t.cfg = { s.cfg with bigEndian := !s.cfg.bigEndian } ∧
      (∀ i < 4, t.request.buf.read i = s.request.buf.read (3 - i)) ∧
      decodeResponse t = success 4 [.reg 0x0101, .reg 0x0105, .imm 16, .reg 0x0105] := by decide

theorem witness_ShortBufferFails :
    (request []).request.avail < 4 ∧ (request [0x94, 0x25, 0x00]).request.avail < 4 := by decide

theorem witness_FirstSuccessEndsTheCall :
    let s := setExt (request [0x38, 0x64, 0x80, 0x00])
    4 ≤ s.request.avail ∧ tableOrder s.cfg.ext = [1] ++ 0 :: [] ∧ (∀ k ∈ [1], AttemptFails k s.assembledCall) ∧
      AttemptSucceeds 0 s.assembledCall ⟨1, [.reg 0x0103, .reg 0x0104, .imm 0xFFFFFFFFFFFF8000], 0⟩ ∧
      assembled s.cfg s.request = 0x38648000#32 ∧
      (∀ k ∈ [1], ∃ c, attemptTable s.env 0x38648000#32 s.work.raw k = .fail c) ∧
      s.roms.tables[0]? = some Fixtures.tRef0 ∧
      matchRows Fixtures.tRef0 0x38648000#32 s.cfg.features = some Fixtures.leafAddi ∧
      Fixtures.leafAddi.nfields ≤ s.roms.params.maxFields ∧
      runFields s.env 0x38648000#32 (leafFields Fixtures.leafAddi) s.work.raw ⟨Fixtures.leafAddi.opcode, [], 0#3⟩ =
        .ok (0x8000, ⟨1, [.reg 0x0103, .reg 0x0104, .imm 0xFFFFFFFFFFFF8000], 0⟩) := by
  refine ⟨by decide, by decide, fun k hk => ?_, attemptSucceeds_of_result (by decide), by decide, fun k hk => ?_,
    by decide, by decide, by decide, by decide⟩
  rotate_left
  · obtain rfl : k = 1 := by simpa using hk
    exact ⟨.noMatch, by decide⟩
  obtain rfl : k = 1 := by simpa using hk
  exact attemptFails_of_result (by decide)

theorem witness_AllTablesFailed :
    let s := setExt (request [0, 0, 0, 0])
    4 ≤ s.request.avail ∧ tableOrder s.cfg.ext = [1, 0] ∧ AttemptFails 1 s.assembledCall ∧ AttemptFails 0 s.assembledCall :=
  ⟨by decide, by decide, attemptFails_of_result (by decide), attemptFails_of_result (by decide)⟩

theorem witness_FallbackLeavesNoResidue :
    let s := setExt (request [0x38, 0x64, 0x80, 0x00])
    ∀ k ∈ tableOrder s.cfg.ext, k ≠ 0 → AttemptFails k s.assembledCall := by
  intro s k hk h0
  have hk' : k ∈ [1, 0] := hk
  obtain rfl : k = 1 := by simp at hk'; omega
  exact attemptFails_of_result (by decide)

theorem witness_ResponseDependsOnRequestOnly :
    let s := request [0x38, 0x64, 0x80, 0x00]
    let t := { s with work := (field 5 9 seven).work, response := failResponse }
    t ≠ s ∧ t.cfg = s.cfg ∧ t.roms = s.roms ∧ t.request.avail = s.request.avail ∧
      (∀ i < s.request.avail, t.request.byte i = s.request.byte i) ∧ t.request.addr = s.request.addr := by decide

theorem witness_AddressAndLaterBytesIgnored :
    let s := request [0x94, 0x25, 0x00, 0x10]
    let t := { request [0x94, 0x25, 0x00, 0x10, 1, 2, 3] with
      request := { (request [0x94, 0x25, 0x00, 0x10, 1, 2, 3]).request with addr := 0x1000 } }
    t.cfg = s.cfg ∧ t.roms = s.roms ∧ 4 ≤ s.request.avail ∧ 4 ≤ t.request.avail ∧
      (∀ i < 4, t.request.byte i = s.request.byte i) := by decide

theorem witness_FixtureImmediateForms :
    (request []).roms.params = Config.params ∧
    (bankTable (request []).roms.bank .gpr)[(31#5).toNat]? = some 0x011F ∧
    (bankTable (request []).roms.bank .gpr)[(0#5).toNat]? = some 0x0100 ∧
    (bankTable (request []).roms.bank .gprz)[(0#5).toNat]? = some 0x0F00 := by decide

theorem witness_FixtureMemoryForms :
    (request []).roms.params = Config.params ∧ (request []).roms.policy = Fixtures.policyRef ∧
    (bankTable (request []).roms.bank .gpr)[(31#5).toNat]? = some 0x011F ∧
    (bankTable (request []).roms.bank .gprz)[(0#5).toNat]? = some 0x0F00 ∧ (request []).cfg.chkBase0 = false ∧
    (setBase0 (request [])).cfg.chkBase0 = true ∧ (1#5) ≠ 0#5 := by decide

theorem witness_FixtureScaledMemoryForms :
    (request []).roms.params = Config.params ∧
    (setBase0 (request [])).roms.policy = Fixtures.policyRef ∧
    (bankTable (setBase0 (request [])).roms.bank .g64)[(31#5).toNat]? = some 0x021F ∧
    (bankTable (setBase0 (request [])).roms.bank .gprz)[(1#5).toNat]? = some 0x0101 ∧ (1#5) ≠ 0#5 ∧
    (setBase0 (request [])).cfg.chkBase0 = true ∧
    (bankTable (setBase0 (request [])).roms.bank .gprz)[(0#5).toNat]? = some 0x0F00 := by
  decide

theorem witness_FixtureMaskForm :
    (request []).roms.params = Config.params ∧
    (bankTable (request []).roms.bank .gpr)[(31#5).toNat]? = some 0x011F ∧
    ((0x80#8).getLsbD 7 = true ∧ (∀ j < 7, (0x80#8).getLsbD j = false) ∧ (0x80#8).toNat = 2 ^ 7 ∧
      (bankTable (request []).roms.bank .cr)[7 - 7]? = some 0x0900) ∧
    ((∀ p ≤ 7, (0xFF#8).toNat ≠ 2 ^ p) ∧ (request []).cfg.check = .failClosed) ∧
    ((0xFF#8).getLsbD 0 = true ∧ (setCheck .trust (request [])).cfg.check = .trust) := by decide

theorem witness_FixtureThreeRegisterForms :
    (request []).roms.params = Config.params ∧
    (bankTable (request []).roms.bank .fpd)[(31#5).toNat]? = some 0x041F ∧
    (bankTable (request []).roms.bank .vec)[(0#5).toNat]? = some 0x0500 ∧
    (bankTable (request []).roms.bank .pf0)[(31#5).toNat]? = some 0x0B1F := by decide

theorem witness_StepRunsTheDecodedOperation :
    (let s := { field 0 2 [.imm 1] with work := { (field 0 2 [.imm 1]).work with fidx := 1 } }
     s.work.phase = .resolving ∧ s.request.req = false ∧ s.work.fidx < s.work.leaf.nfields ∧
       decodeWord .descriptor (s.work.leaf.fds.getD s.work.fidx 0#32) = .ok (.memri 20 0 1)) ∧
    (let s := { field 0x38648000 1 [] with work := { (field 0x38648000 1 []).work with phase := .matching } }
     s.work.phase = .matching ∧ s.request.req = false ∧ s.roms.tables[s.work.tidx]? = some Fixtures.tRef0 ∧
       matchRows Fixtures.tRef0 s.work.word s.cfg.features = some Fixtures.leafAddi ∧
       Fixtures.leafAddi.header = (0x00013000#32).toNat ∧ decodeWord .header 0x00013000#32 = .ok (.leaf 1 3)) ∧
    ((request []).work.phase = .idle ∧ (request []).request.req = true ∧ (request []).aux.grain = .call) ∧
    (State.reset.work.phase = .idle ∧ State.reset.request.req = false) ∧
    (let s := { field 0 1 [] with request := (request []).request }
     s.work.phase ≠ .idle ∧ s.request.req = true) := by decide

theorem witness_StepRunsTheInstructionWord :
    (let s := request [0x94, 0x25, 0x00, 0x10]
     s.work.phase = .idle ∧ s.request.req = true ∧ s.aux.grain = .call ∧ 4 ≤ s.request.avail ∧
       s.roms.tables = [Fixtures.tRef0, Fixtures.tRef1] ∧ s.cfg.ext = [false] ∧
       decodeBytes s.cfg.bigEndian .primary ([s.request.buf.read 0, s.request.buf.read 1, s.request.buf.read 2,
         s.request.buf.read 3] ++ [7]) = .ok (.fxStwu 1 5 0x10, [7])) ∧
    ((setExt (request [0x94, 0x25, 0x00, 0x10])).cfg.ext = [true] ∧
      decodeExtension (setExt (request [0x94, 0x25, 0x00, 0x10])).assembledCall.work.word = none) ∧
    (let s := setExt (request [0x10, 0x43, 0x20, 0x00])
     s.cfg.ext = [true] ∧
       decodeBytes s.cfg.bigEndian .extension ([s.request.buf.read 0, s.request.buf.read 1, s.request.buf.read 2,
         s.request.buf.read 3] ++ []) = .ok (.fxPfadd 2 3 4, [])) := by decide

theorem witness_StepMovesTheCursor :
    (field 0 1 []).work.phase = .resolving ∧ (field 0 1 []).work.fidx < (field 0 1 []).work.leaf.nfields ∧
    (next (step (field 0 1 []))).map (·.work.fidx) = some 1 ∧
    (next (step (field 0 1 eight))).map (·.work.phase) = some .idle ∧
    (next (step { field 0 1 eight with work := { (field 0 1 eight).work with order := [0] } })).map (·.work.phase) =
      some .matching := by decide

theorem witness_InputsAndRomsAreNeverWritten :
    (next (exec (.gpr 4 0 0) (field 0 1 []))).isSome = true ∧
    (next (step (request [0x94, 0x25, 0x00, 0x10]))).isSome = true := by decide

theorem witness_OutputsChangeAtTheEndOfACallOnly :
    (next (step (request [0x94, 0x25, 0x00, 0x10]))).map (·.response.status) = some .success ∧
    (next (step (request [0x94, 0x25, 0x00]))).map (·.response.status) = some .fail ∧
    (next (step (field 0 1 []))).map (·.response) = some (field 0 1 []).response := by decide

theorem witness_FailClosedNeverRefuses :
    State.reset.cfg.check = .failClosed ∧ (field 0 1 []).cfg.check = .failClosed ∧ State.reset.work.phase = .idle ∧
    (field 0 1 []).request.req = false := by decide

theorem witness_CheckSettingsAgree :
    AttemptSucceeds 0 (setCheck .failClosed (field 0x7C701026 1 [])) ⟨7, [.reg 0x0103, .reg 0x0907], 0⟩ ∧
    AttemptSucceeds 0 (setCheck .trust (field 0x7C728026 1 [])) ⟨7, [.reg 0x0103, .reg 0x0904], 0⟩ ∧
    AttemptFails 0 (setCheck .failClosed (field 0x7C728026 1 [])) :=
  ⟨attemptSucceeds_of_result (by decide), attemptSucceeds_of_result (by decide), attemptFails_of_result (by decide)⟩

/-- P1, inside the call: well formed, and it takes a step. -/
theorem witness_StepKeepsWellFormed :
    let s := { field 0x38648000 1 [] with
      inputs := { cfg := config true false .failClosed false, buf := [], avail := 4, addr := 0#64 }
      work := { (field 0x38648000 1 []).work with leaf := Fixtures.leafAddi, record := freshRecord 1 } }
    s.wf ∧ (next (step s)).map (·.work.record.ops) = some [.reg 0x0103] := by
  have hcfg : (config true false .failClosed false).wf := ⟨by decide, fun i hi => by cases hi⟩
  exact ⟨⟨⟨by decide, by decide, hcfg, hcfg, ⟨bankRef_contract, by decide, by decide⟩, by decide, by decide⟩,
    ⟨by decide, by decide, fun o ho => by cases ho⟩, .inr (by decide), by decide⟩, by decide⟩

/-- P4 move by move. -/
theorem witness_CursorRunIsTheCall :
    let s := setExt (request [0x38, 0x64, 0x80, 0x00])
    s.work.phase = .idle ∧ s.request.req = true ∧
      (next (runSteps 7 (setGrain s))).map (·.response) =
        success 1 [.reg 0x0103, .reg 0x0104, .imm 0xFFFFFFFFFFFF8000] := by decide

theorem witness_EveryCallEnds :
    let s := { field 0x38648000 1 [] with
      inputs := { cfg := config true false .failClosed false, buf := [], avail := 4, addr := 0#64 }
      work := { (field 0x38648000 1 []).work with leaf := Fixtures.leafAddi, record := freshRecord 1 } }
    s.wf ∧ s.work.phase ≠ .idle ∧ s.request.req = false ∧ s.cfg.check = .failClosed :=
  ⟨witness_StepKeepsWellFormed.1, by decide, by decide, by decide⟩

theorem witness_DecodeEncodeRoundTrip :
    encode (.memrix 20 2 255) = some (.descriptor, 0xCD05FE00) ∧ encode (.leaf 0xFFFF 15) = some (.header, 0xFFFFF000) ∧
    encode (.fxMfocrf 31 0xFF 1 1) = some (.primary, 0x7FFFF827) ∧
    encode (.fxPfadd 31 31 31) = some (.extension, 0x13FFF800) := by decide

theorem witness_EncodeDecodedWord :
    decodeWord .descriptor 0x0E6A01FF = .ok (.gpr 25 21 0) ∧ decodeWord .header 0xFFFFFFFF = .ok (.leaf 0xFFFF 15) ∧
    decodeWord .primary 0x7FFFF827 = .ok (.fxMfocrf 31 0xFF 1 1) ∧
    decodeWord .extension 0x13FFF800 = .ok (.fxPfadd 31 31 31) := by decide

theorem witness_OutputPortMasksUnusedSlots :
    (let r := Response.mk true .success ⟨1, [.reg 0x0103, .imm 5], 4⟩ 4
     r.outRec.n ≤ Config.params.maxOps ∧ r.outRec.opcode < 2 ^ Config.params.opcW ∧
       (r.port Config.params).slots.take 3 = [(1, 0x0103), (2, 5), (0, 0)] ∧ (r.port Config.params).status = 1) ∧
    (Response.mk true .success ⟨0xFFFF, eight, 4⟩ 4).outRec.n ≤ Config.params.maxOps ∧
    (failResponse.wf roms ∧ (failResponse.port roms.params).status = 0) :=
  ⟨by decide, by decide, .inr (by decide), by decide⟩

/-- R187, V-DEC-15: the host configures, presents the bytes and asserts `REQ`; what it drives afterwards plays no part. -/
theorem test_host_call :
    let c := config true false .failClosed false
    let s := next (hostConfigure c { State.reset with roms := roms })
    let s := s.bind fun s => next (hostRequest (hostPresent [0x94, 0x25, 0x00, 0x10] 0 s))
    let s := s.bind fun s => next (step (hostPresent [0, 0, 0, 0] 0 s))
    s.map (·.response) = success 4 [.reg 0x0101, .reg 0x0105, .imm 16, .reg 0x0105] := by decide

theorem witness_HostRequestPresentsBytes :
    State.reset.betweenCalls ∧ ¬(field 0 1 []).betweenCalls ∧ ¬(request []).betweenCalls ∧
    (next (hostRequest (hostPresent [0x94, 0, 0, 0x10] 0 State.reset))).map (·.request.buf) =
      some [(0, 0x94), (3, 0x10)] ∧
    refusal (hostRequest (request [])) = some .requestDuringCall := by decide

theorem witness_ConfigurationIsSampled :
    State.reset.betweenCalls ∧ ¬(request []).betweenCalls ∧
    (next (hostConfigure (config true true .trust true) State.reset)).map (·.inputs.cfg) =
      some (config true true .trust true) ∧
    (next (exec (.gpr 4 0 0) (field 0 1 []))).isSome = true ∧ (next (step (request [0, 0, 0, 0]))).isSome = true := by decide

end Sys2Proof.Tests
end

section
/-! PROOF. Under `FAIL_CLOSED` every operation and every call has a meaning (00_scope.md R9; 60_exceptions.md R205). -/

namespace Sys2Proof.Machine

/-! ### The outcomes of one operation -/

theorem execField_defined {s : State} (h : s.cfg.check = .failClosed) (c : OperandClass) (hi lo : BitVec 5) :
    ∃ t, execField c hi lo s = .next t :=
  finish_defined (fieldStep_defined (e := s.env) h ..) _ _

/-- A call that is not refused ends with a status (45_decode_entry.md R183, R184). -/
theorem endCall_defined {c : CallEnd} (hc : ∀ r, c ≠ .refused r) (s : State) :
    ∃ t, endCall s c = .next t ∧ (t.response.status = .success ∨ t.response.status = .fail) := by
  cases c with
  | done k a => exact ⟨_, rfl, .inl rfl⟩
  | failed k x => exact ⟨_, rfl, .inr rfl⟩
  | refused r => exact absurd rfl (hc r)

theorem execDecode_defined {s : State} (h : s.cfg.check = .failClosed) :
    ∃ t, execDecode s = .next t ∧ (t.response.status = .success ∨ t.response.status = .fail) := by
  unfold execDecode
  split
  · exact ⟨_, rfl, .inr rfl⟩
  · exact endCall_defined (fun r => callTables_defined (e := s.env) h _ _ _ _ r) _

theorem execLeafWord_defined {s : State} (h : s.cfg.check = .failClosed) (t : Nat) (l : Leaf) (w : Word) :
    ∃ u, execLeafWord t l w s = .next u := by
  unfold execLeafWord
  cases ha : attemptLeaf s.env w s.work.raw l with
  | ok a => exact ⟨_, rfl⟩
  | fail c =>
    obtain ⟨u, hu, -⟩ := endCall_defined (fun r => callTables_defined (e := s.env) h w s.work.raw
      (tablesAfter t (tableOrder s.cfg.ext)) (t, c) r) ((accept s).withWord w)
    exact ⟨u, hu⟩
  | refuse r => exact absurd ha ((attemptLeaf_defined (e := s.env) h ..).not_refused r)

theorem execAttempt_defined {s : State} (h : s.cfg.check = .failClosed) (t : Nat) :
    ∃ u, execAttempt t s = .next u := by
  unfold execAttempt
  split
  · exact ⟨_, rfl⟩
  · exact ⟨_, rfl⟩
  · rename_i r hr
    exact absurd hr ((attemptTable_defined (e := s.env) h ..).not_refused r)

theorem execAssemble_defined (s : State) : ∃ t, execAssemble s = .next t := by
  unfold execAssemble
  split <;> exact ⟨_, rfl⟩

/-- An operation that is a value on its domain and a violation outside it (40_bitfield_extractor.md R95). -/
theorem guarded_defined {α : Type} {m : CheckMode} (h : m = .failClosed) (p : Prop) [Decidable p] (a : α) (c : Cause)
    (r : Refusal) : (if p then .ok a else violation m c r : Res α).Defined := by
  split
  · exact Res.defined_ok a
  · exact violation_defined h c r

/-- R9, R205: under `FAIL_CLOSED` every operation has a meaning in every state. -/
theorem exec_defined {s : State} (h : s.cfg.check = .failClosed) (i : Instr) : ∃ t, exec i s = .next t := by
  cases i with
  | gpr | gprz | g64 | fps | fpd | vec | vsxl | vsxh | vsf | cr | crb | pf0 | pf1 | uimm | simm | memri | memrix
  | crbitm => exact execField_defined h ..
  | extract => exact finish_defined (guarded_defined h ..) _ _
  | sext => exact finish_defined (guarded_defined h ..) _ _
  | shl => exact finish_defined (guarded_defined h ..) _ _
  | ctz value =>
    refine finish_defined ?_ _ _
    split
    · exact Res.defined_ok _
    · exact violation_defined h _ _
  | resolve => exact finish_defined (resolve_defined h ..) _ _
  | policy => exact finish_defined (policyOf_defined h ..) _ _
  | opsAppend => exact finish_defined (opsAppend_defined h ..) _ _
  | opsInsert => exact finish_defined (opsInsert_defined h ..) _ _
  | matchLeaf t word features =>
    refine finish_defined ?_ _ _
    split
    · exact Res.defined_ok _
    · exact violation_defined h _ _
  | dispatch fd =>
    refine finish_defined ?_ _ _
    split
    · exact resolveClass_defined (e := s.env) h ..
    · exact violation_defined h _ _
  | attempt t => exact execAttempt_defined h t
  | assemble => exact execAssemble_defined s
  | decode =>
    obtain ⟨t, ht, -⟩ := execDecode_defined h
    exact ⟨t, ht⟩
  | leaf =>
    refine finish_defined ?_ _ _
    split
    · exact violation_defined h _ _
    · exact Res.defined_ok _
  | fxAddi | fxLwz | fxLwzu | fxStwu | fxLdu | fxStdu | fxMfocrf | fxFadd | fxVadd | fxOri | fxPfadd =>
    exact execLeafWord_defined h ..

/-- The only step without a meaning under `FAIL_CLOSED` is one that finds a request during a call
(93_implementation_defined.md U7). -/
theorem step_defined {s : State} (h : s.cfg.check = .failClosed) (hs : s.work.phase = .idle ∨ s.request.req = false) :
    ∃ t, step s = .next t := by
  cases hp : s.work.phase with
  | idle =>
    cases hr : s.request.req with
    | false => exact ⟨s, by simp [step, fetch, hp, hr]⟩
    | true =>
      cases hg : s.aux.grain with
      | call =>
        rw [step_of_run (by simp [fetch, hp, hr, hg] : fetch s = .run .decode s)]
        exact exec_defined h .decode
      | cursor => exact ⟨startCall s, by simp [step, fetch, hp, hr, hg]⟩
  | matching =>
    have hr : s.request.req = false := hs.resolve_left (by simp [hp])
    rw [step_matching hp hr]
    cases hl : lookupLeaf s.env s.work.word s.work.tidx with
    | ok l => exact exec_defined (s := s.withLeaf l) h _
    | fail c => exact ⟨_, rfl⟩
    | refuse r => exact absurd hl ((lookupLeaf_defined (e := s.env) h ..).not_refused r)
  | resolving =>
    have hr : s.request.req = false := hs.resolve_left (by simp [hp])
    by_cases hf : s.work.fidx < s.work.leaf.nfields
    · rw [step_resolving hp hr hf]
      cases OperandClass.ofCode (fdClass (fetchDescriptor s)) with
      | some c => exact execField_defined h ..
      | none => exact finish_defined (violation_defined h _ _) _ _
    · exact ⟨_, step_resolved hp hr (Nat.not_lt.mp hf)⟩

end Sys2Proof.Machine

open Sys2Proof Sys2Proof.Machine

/-- Settles O47: no arm of `exec` and no step inside a call can answer `.refused` where no violation is refused. -/
theorem failClosedNeverRefuses : Obligations.FailClosedNeverRefuses := by
  unfold Obligations.FailClosedNeverRefuses
  intro s h
  refine ⟨exec_defined h, ?_, step_defined h⟩
  obtain ⟨t, ht, hstatus⟩ := execDecode_defined h
  have hdecode : exec .decode s = .next t := ht
  exact ⟨t.response, by simp [decodeResponse, hdecode], hstatus⟩

end

section
/-! PROOF. The call run cursor move by cursor move is the call (10_state.md R17, R25; log entry 1).  Every state with no open
request has an answer, the response that its call will end with, and a bound on the moves that are left; a move keeps the
one and lowers the other. -/

namespace Sys2Proof.Machine

/-! ### What a call answers -/

/-- What the host gets from a call: a response, or the reason for which it is refused. -/
abbrev Answer := Except Refusal Response

/-- The answer of the end of a run over the tables (45_decode_entry.md R183, R184). -/
def CallEnd.answer : CallEnd → Answer
  | .done _ a => .ok (successResponse a.record)
  | .failed _ _ => .ok failResponse
  | .refused r => .error r

/-- The answer of a call whose attempt gives the record `x`, where the tables after it would answer `rest` (R180). -/
def Res.answerOr (x : Res Record) (rest : Answer) : Answer :=
  match x with
  | .ok rec => .ok (successResponse rec)
  | .fail _ => rest
  | .refuse r => .error r

@[simp] theorem Res.answerOr_ok (rec : Record) (rest : Answer) :
    (Res.ok rec).answerOr rest = .ok (successResponse rec) := rfl
@[simp] theorem Res.answerOr_fail (c : Cause) (rest : Answer) : (Res.fail c : Res Record).answerOr rest = rest := rfl
@[simp] theorem Res.answerOr_refuse (r : Refusal) (rest : Answer) :
    (Res.refuse r : Res Record).answerOr rest = .error r := rfl

/-- The record that a list of fields leaves.  What `RAW` held before the fields has no part in it. -/
def fieldsRecord (e : Env) (word : Word) (fds : List Word) (rec : Record) : Res Record :=
  (runFields e word fds 0#64 rec).map Prod.snd

theorem runFields_record (e : Env) (word : Word) (fds : List Word) (raw : U64) (rec : Record) :
    (runFields e word fds raw rec).map Prod.snd = fieldsRecord e word fds rec := by
  cases fds <;> rfl

theorem fieldsRecord_cons (e : Env) (word fd : Word) (rest : List Word) (rec : Record) :
    fieldsRecord e word (fd :: rest) rec =
      (descriptorStep e word fd rec).bind fun p => fieldsRecord e word rest p.2 := by
  rw [fieldsRecord, runFields]
  cases descriptorStep e word fd rec with
  | ok p => exact runFields_record e word rest p.1 p.2
  | fail c => rfl
  | refuse r => rfl

/-- The record that a leaf leaves (44_matcher_dispatch.md R163, R165). -/
def leafRecord (e : Env) (word : Word) (l : Leaf) : Res Record :=
  if e.roms.params.maxFields < l.nfields then violation e.cfg.check .field .reservedCode
  else fieldsRecord e word (leafFields l) (freshRecord l.opcode)

theorem attemptLeaf_record (e : Env) (word : Word) (raw : U64) (l : Leaf) :
    (attemptLeaf e word raw l).map AttemptEnd.record = leafRecord e word l := by
  unfold attemptLeaf leafRecord
  split
  · cases e.cfg.check <;> rfl
  · rw [← runFields_record e word (leafFields l) raw]
    cases runFields e word (leafFields l) raw (freshRecord l.opcode) <;> rfl

/-- The answer of a call from the tables that are left to it. -/
def tablesAnswer (e : Env) (word : Word) : List Nat → Answer
  | [] => .ok failResponse
  | t :: rest => ((lookupLeaf e word t).bind (leafRecord e word)).answerOr (tablesAnswer e word rest)

theorem attemptTable_record (e : Env) (word : Word) (raw : U64) (t : Nat) :
    (attemptTable e word raw t).map AttemptEnd.record = (lookupLeaf e word t).bind (leafRecord e word) := by
  unfold attemptTable
  cases lookupLeaf e word t with
  | ok l => exact attemptLeaf_record e word raw l
  | fail c => rfl
  | refuse r => rfl

theorem callTables_answer (e : Env) (word : Word) (raw : U64) (ts : List Nat) (last : Nat × Cause) :
    (callTables e word raw ts last).answer = tablesAnswer e word ts := by
  induction ts generalizing last with
  | nil => rfl
  | cons t rest ih =>
    rw [tablesAnswer, ← attemptTable_record e word raw t, callTables]
    cases attemptTable e word raw t with
    | ok a => rfl
    | fail c => exact ih (t, c)
    | refuse r => rfl

/-- The answer of the call that a state asks for (45_decode_entry.md R180, R185). -/
def State.callAnswer (s : State) : Answer :=
  if s.request.avail < Config.ilen then .ok failResponse
  else tablesAnswer s.env (assembled s.cfg s.request) (tableOrder s.cfg.ext)

/-- The descriptor words that the cursor has not passed. -/
def Work.fieldsLeft (w : Work) : List Word := (leafFields w.leaf).drop w.fidx

/-- The answer of the call that a state stands in; between calls it is there. -/
def State.answer (s : State) : Answer :=
  match s.work.phase with
  | .idle => .ok s.response
  | .matching => tablesAnswer s.env s.work.word (s.work.tidx :: s.work.order)
  | .resolving =>
    (fieldsRecord s.env s.work.word s.work.fieldsLeft s.work.record).answerOr
      (tablesAnswer s.env s.work.word s.work.order)

/-- The moves of the cursors that the tables of `ORDER` after the current one can take: for each a match, its fields and
the end of the call. -/
def State.orderMoves (s : State) : Nat := (s.roms.params.maxFields + 2) * s.work.order.length

/-- A bound on the moves that are left of a call (44_matcher_dispatch.md R168). -/
def State.moves (s : State) : Nat :=
  match s.work.phase with
  | .idle => 0
  | .matching => s.orderMoves + (s.roms.params.maxFields + 2)
  | .resolving => s.orderMoves + (s.work.leaf.nfields - s.work.fidx + 1)

theorem State.answer_idle {s : State} (h : s.work.phase = .idle) : s.answer = .ok s.response := by
  simp [State.answer, h]

theorem State.answer_matching {s : State} (h : s.work.phase = .matching) :
    s.answer = tablesAnswer s.env s.work.word (s.work.tidx :: s.work.order) := by
  simp [State.answer, h]

theorem State.answer_resolving {s : State} (h : s.work.phase = .resolving) :
    s.answer = (fieldsRecord s.env s.work.word s.work.fieldsLeft s.work.record).answerOr
      (tablesAnswer s.env s.work.word s.work.order) := by
  simp [State.answer, h]

theorem State.orderMoves_lt_moves {s : State} (h : s.work.phase ≠ .idle) : s.orderMoves < s.moves := by
  unfold State.moves
  split
  · contradiction
  · omega
  · omega

/-- A state that stands between calls has no move left. -/
theorem State.idle_of_moves_le {s : State} (h : s.moves ≤ 0) : s.work.phase = .idle := by
  by_contra hp
  have := s.orderMoves_lt_moves hp
  omega

/-! ### The frame of a call -/

/-- What no move of a call changes once the request is taken (10_state.md R25; 45_decode_entry.md R187). -/
structure SameFrame (s t : State) : Prop where
  request : t.request = s.request
  inputs : t.inputs = s.inputs
  cfg : t.cfg = s.cfg
  roms : t.roms = s.roms

theorem SameFrame.trans {s t u : State} (h : SameFrame s t) (h' : SameFrame t u) : SameFrame s u :=
  ⟨h'.request.trans h.request, h'.inputs.trans h.inputs, h'.cfg.trans h.cfg, h'.roms.trans h.roms⟩

theorem attemptFail_sameFrame (c : Cause) (s : State) : SameFrame s (attemptFail c s) :=
  ⟨by simp, by simp, by simp, by simp⟩

theorem startCall_sameFrame (s : State) : SameFrame (accept s) (startCall s) := by
  unfold startCall
  split
  · exact ⟨rfl, rfl, rfl, rfl⟩
  · split <;> exact ⟨rfl, rfl, rfl, rfl⟩

/-! ### One move -/

/-- One move of the call in `s`: it keeps the frame and the answer and comes nearer to the end, or it is refused as the call
is. -/
def Advances (s : State) : Host.Outcome State Fault Refusal → Prop
  | .next t => SameFrame s t ∧ t.answer = s.answer ∧ t.moves < s.moves
  | .fault _ => False
  | .refused r => s.answer = .error r

/-- A failed attempt answers as the tables after it do (60_exceptions.md R207). -/
theorem attemptFail_answer (c : Cause) (s : State) :
    (attemptFail c s).answer = tablesAnswer s.env s.work.word s.work.order := by
  obtain ⟨ho, h⟩ | ⟨t, rest, ho, h⟩ := attemptFail_cases c s <;> rw [h, ho] <;> rfl

theorem attemptFail_moves (c : Cause) (s : State) : (attemptFail c s).moves = s.orderMoves := by
  obtain ⟨ho, h⟩ | ⟨t, rest, ho, h⟩ := attemptFail_cases c s <;> rw [h, State.orderMoves, ho] <;> rfl

theorem SameFrame.env {s t : State} (h : SameFrame s t) : t.env = s.env := by
  simp only [State.env, h.cfg, h.roms, h.request]

/-- The failure of an attempt is a move, if it leaves the call to the tables after it; the field or the match that fails may
have written the rest of the working state. -/
theorem advances_attemptFail {s t : State} (hp : s.work.phase ≠ .idle) (c : Cause) (hframe : SameFrame s t)
    (hword : t.work.word = s.work.word) (horder : t.work.order = s.work.order)
    (ha : s.answer = tablesAnswer s.env s.work.word s.work.order) : Advances s (.next (attemptFail c t)) := by
  refine ⟨hframe.trans (attemptFail_sameFrame c t), ?_, ?_⟩
  · rw [attemptFail_answer, hframe.env, hword, horder, ha]
  · rw [attemptFail_moves, State.orderMoves, hframe.roms, horder]
    exact State.orderMoves_lt_moves hp

/-- The state in which the fields of the matched leaf `l` begin. -/
def State.enterLeaf (s : State) (l : Leaf) : State :=
  { s with
    work := { s.work with
      leaf := { l with header := headerOf l.opcode (headerNfields l.header) }
      record := freshRecord l.opcode
      fidx := 0
      phase := .resolving } }

theorem State.enterLeaf_nfields (s : State) (l : Leaf) : (s.enterLeaf l).work.leaf.nfields = l.nfields := by
  simp [State.enterLeaf, Leaf.nfields]

theorem State.enterLeaf_fieldsLeft (s : State) (l : Leaf) : (s.enterLeaf l).work.fieldsLeft = leafFields l := by
  simp only [Work.fieldsLeft, leafFields, s.enterLeaf_nfields]
  rfl

theorem exec_header {s : State} {l : Leaf} (h : l.nfields ≤ s.roms.params.maxFields) :
    exec (decodeHeader l.header) (s.withLeaf l) = .next (s.enterLeaf l) := by
  change finish (if s.roms.params.maxFields < l.nfields then violation s.cfg.check .field .reservedCode
    else .ok (freshRecord l.opcode)) (s.withLeaf l) _ = _
  rw [if_neg (Nat.not_lt.mpr h)]
  rfl

theorem exec_header_reserved {s : State} {l : Leaf} (h : s.roms.params.maxFields < l.nfields) :
    exec (decodeHeader l.header) (s.withLeaf l) =
      finish (violation s.cfg.check .field .reservedCode) (s.withLeaf l) fun (_ : Unit) => s := by
  change finish (if s.roms.params.maxFields < l.nfields then violation s.cfg.check .field .reservedCode
    else .ok (freshRecord l.opcode)) (s.withLeaf l) _ = _
  rw [if_pos h]
  cases s.cfg.check <;> rfl

/-- The header of a matched leaf is a move (44_matcher_dispatch.md R163, R165). -/
theorem advances_header {s : State} {l : Leaf} (hp : s.work.phase = .matching)
    (ha : s.answer = (leafRecord s.env s.work.word l).answerOr (tablesAnswer s.env s.work.word s.work.order)) :
    Advances s (exec (decodeHeader l.header) (s.withLeaf l)) := by
  by_cases hlt : s.roms.params.maxFields < l.nfields
  · have hrec : leafRecord s.env s.work.word l = violation s.cfg.check .field .reservedCode := if_pos hlt
    rw [exec_header_reserved hlt]
    cases hk : s.cfg.check with
    | failClosed =>
      exact advances_attemptFail (by simp [hp]) .field ⟨rfl, rfl, rfl, rfl⟩ rfl rfl (by simpa [hrec, hk] using ha)
    | trust => simpa [Advances, hrec, hk] using ha
  · have hrec : leafRecord s.env s.work.word l =
        fieldsRecord s.env s.work.word (leafFields l) (freshRecord l.opcode) := if_neg hlt
    rw [exec_header (Nat.not_lt.mp hlt)]
    refine ⟨⟨rfl, rfl, rfl, rfl⟩, ?_, ?_⟩
    · rw [ha, hrec, State.answer_resolving rfl, State.enterLeaf_fieldsLeft]
      rfl
    · have hbefore : s.moves = s.orderMoves + (s.roms.params.maxFields + 2) := by simp [State.moves, hp]
      have hafter : (s.enterLeaf l).moves = s.orderMoves + (l.nfields + 1) :=
        congrArg (fun n => s.orderMoves + (n + 1)) (s.enterLeaf_nfields l)
      omega

/-- The descriptor at the cursor is the first of those that are left. -/
theorem Work.fieldsLeft_cons {s : State} (h : s.work.fidx < s.work.leaf.nfields) :
    s.work.fieldsLeft = fetchDescriptor s :: (leafFields s.work.leaf).drop (s.work.fidx + 1) := by
  have hlen : s.work.fidx < (leafFields s.work.leaf).length := by simpa [leafFields] using h
  rw [Work.fieldsLeft, List.drop_eq_getElem_cons hlen]
  simp [leafFields, fetchDescriptor]

/-- Past the last field none is left. -/
theorem Work.fieldsLeft_nil {w : Work} (h : w.leaf.nfields ≤ w.fidx) : w.fieldsLeft = [] :=
  List.drop_eq_nil_of_le (by simpa [leafFields] using h)

theorem descriptorStep_class {e : Env} {word fd : Word} {rec : Record} {c : OperandClass}
    (h : OperandClass.ofCode (fdClass fd) = some c) :
    descriptorStep e word fd rec = fieldStep e word c (fdHi fd) (fdLo fd) rec := by
  simp [descriptorStep, h]

theorem descriptorStep_reserved {e : Env} {word fd : Word} {rec : Record}
    (h : OperandClass.ofCode (fdClass fd) = none) :
    descriptorStep e word fd rec = violation e.cfg.check .field .reservedCode := by
  simp [descriptorStep, h]

/-- A field is a move (44_matcher_dispatch.md R163, R164). -/
theorem advances_field {s : State} (hp : s.work.phase = .resolving) (hr : s.request.req = false)
    (hf : s.work.fidx < s.work.leaf.nfields) : Advances s (step s) := by
  have ha := State.answer_resolving hp
  rw [Work.fieldsLeft_cons hf, fieldsRecord_cons] at ha
  rw [step_resolving hp hr hf]
  cases hc : OperandClass.ofCode (fdClass (fetchDescriptor s)) with
  | none =>
    rw [descriptorStep_reserved hc, show s.env.cfg = s.cfg from rfl] at ha
    cases hk : s.cfg.check with
    | failClosed =>
      exact advances_attemptFail (by simp [hp]) .field ⟨rfl, rfl, rfl, rfl⟩ rfl rfl (by simpa [hk] using ha)
    | trust => simpa [Advances, hk] using ha
  | some c =>
    rw [descriptorStep_class hc] at ha
    simp only [execField]
    cases hx : fieldStep s.env s.work.word c (fdHi (fetchDescriptor s)) (fdLo (fetchDescriptor s)) s.work.record with
    | ok p =>
      refine ⟨⟨rfl, rfl, rfl, rfl⟩, ?_, ?_⟩
      · rw [ha, hx, State.answer_resolving (s := s.afterField p) hp]
        rfl
      · have hbefore : s.moves = s.orderMoves + (s.work.leaf.nfields - s.work.fidx + 1) := by simp [State.moves, hp]
        have hafter : (s.afterField p).moves = s.orderMoves + (s.work.leaf.nfields - (s.work.fidx + 1) + 1) := by
          simp [State.moves, State.orderMoves, hp]
        omega
    | fail x =>
      exact advances_attemptFail (by simp [hp]) x ⟨by simp, by simp, by simp, by simp⟩ (by simp) (by simp)
        (by simpa [hx] using ha)
    | refuse r => simpa [Advances, hx] using ha

/-- Past the last field the end of the call is a move (45_decode_entry.md R183). -/
theorem advances_success {s : State} (hp : s.work.phase = .resolving) (hr : s.request.req = false)
    (hf : s.work.leaf.nfields ≤ s.work.fidx) : Advances s (step s) := by
  rw [step_resolved hp hr hf]
  refine ⟨⟨rfl, rfl, rfl, rfl⟩, ?_, ?_⟩
  · rw [State.answer_resolving hp, Work.fieldsLeft_nil hf]
    rfl
  · exact Nat.zero_lt_of_lt (State.orderMoves_lt_moves (by simp [hp]))

theorem advances_match {s : State} (hp : s.work.phase = .matching) (hr : s.request.req = false) :
    Advances s (step s) := by
  have ha := State.answer_matching hp
  rw [tablesAnswer] at ha
  rw [step_matching hp hr]
  cases hl : lookupLeaf s.env s.work.word s.work.tidx with
  | ok l => exact advances_header hp (by simpa [hl] using ha)
  | fail c =>
    exact advances_attemptFail (by simp [hp]) c ⟨rfl, rfl, rfl, rfl⟩ rfl rfl (by simpa [hl] using ha)
  | refuse r => simpa [Advances, hl] using ha

/-- Every step inside a call with no open request is a move. -/
theorem step_advances {s : State} (hp : s.work.phase ≠ .idle) (hr : s.request.req = false) : Advances s (step s) := by
  cases hphase : s.work.phase with
  | idle => exact absurd hphase hp
  | matching => exact advances_match hphase hr
  | resolving =>
    by_cases hf : s.work.fidx < s.work.leaf.nfields
    · exact advances_field hphase hr hf
    · exact advances_success hphase hr (Nat.not_lt.mp hf)

/-! ### The two grains -/

/-- A run from `s` ends between calls with the answer: its response and the frame of `s`, or the refusal. -/
def EndsWith (s : State) (o : Host.Outcome State Fault Refusal) : Answer → Prop
  | .ok r => ∃ u, o = .next u ∧ u.response = r ∧ u.work.phase = .idle ∧ SameFrame s u
  | .error e => o = .refused e

theorem EndsWith.of_sameFrame {s t : State} {o : Host.Outcome State Fault Refusal} {a : Answer} (h : SameFrame s t)
    (ho : EndsWith t o a) : EndsWith s o a := by
  cases a with
  | ok r =>
    obtain ⟨u, hu, hresp, hphase, hframe⟩ := ho
    exact ⟨u, hu, hresp, hphase, h.trans hframe⟩
  | error e => exact ho

/-- The run of the moves that are left ends the call with its answer. -/
theorem runSteps_endsWith {n : Nat} {s : State} (hr : s.request.req = false) (hn : s.moves ≤ n) :
    EndsWith s (runSteps n s) s.answer := by
  induction n generalizing s with
  | zero =>
    have hp := State.idle_of_moves_le hn
    rw [State.answer_idle hp]
    exact ⟨s, rfl, rfl, hp, ⟨rfl, rfl, rfl, rfl⟩⟩
  | succ n ih =>
    by_cases hp : s.work.phase = .idle
    · rw [State.answer_idle hp, runSteps_idle _ hp hr]
      exact ⟨s, rfl, rfl, hp, ⟨rfl, rfl, rfl, rfl⟩⟩
    · have hstep := step_advances hp hr
      rw [runSteps_succ]
      cases hs : step s with
      | next t =>
        rw [hs] at hstep
        obtain ⟨hframe, hanswer, hmoves⟩ := hstep
        rw [← hanswer]
        exact (ih (hframe.request ▸ hr) (by omega)).of_sameFrame hframe
      | fault f => rw [hs] at hstep; exact hstep.elim
      | refused r =>
        rw [hs] at hstep
        rw [show s.answer = .error r from hstep]
        rfl

/-- `ORDER` is never empty: the primary table ends it (45_decode_entry.md R182). -/
theorem tableOrder_ne_nil (ext : List Bool) : tableOrder ext ≠ [] := by
  simp [tableOrder]

theorem tableOrder_length_le (ext : List Bool) : (tableOrder ext).length ≤ ext.length + 1 := by
  simpa [tableOrder] using List.length_filter_le _ (List.range ext.length)

theorem startCall_answer (s : State) : (startCall s).answer = s.callAnswer := by
  unfold startCall State.callAnswer
  split
  · rfl
  · split
    · rename_i h
      exact absurd h (tableOrder_ne_nil _)
    · rename_i t rest h
      rw [h]
      rfl

theorem startCall_moves_le (s : State) :
    (startCall s).moves ≤ (s.roms.params.maxFields + 2) * (s.cfg.ext.length + 1) := by
  have hlen := tableOrder_length_le s.cfg.ext
  unfold startCall
  split
  · exact Nat.zero_le _
  · split
    · exact Nat.zero_le _
    · rename_i t rest h
      rw [h] at hlen
      exact Nat.mul_le_mul_left (s.roms.params.maxFields + 2) hlen

/-- The end of a call in one step gives its answer. -/
theorem endCall_endsWith (s : State) (c : CallEnd) : EndsWith s (endCall s c) c.answer := by
  cases c with
  | done k a => exact ⟨_, rfl, rfl, rfl, ⟨rfl, rfl, rfl, rfl⟩⟩
  | failed k x => exact ⟨_, rfl, rfl, rfl, ⟨rfl, rfl, rfl, rfl⟩⟩
  | refused r => rfl

/-- The one-step call ends with the call's answer. -/
theorem execDecode_endsWith (s : State) : EndsWith (accept s) (execDecode s) s.callAnswer := by
  unfold execDecode State.callAnswer
  split
  · exact ⟨_, rfl, rfl, rfl, ⟨rfl, rfl, rfl, rfl⟩⟩
  · rw [← callTables_answer s.env (assembled s.cfg s.request) s.work.raw _ (0, .noMatch)]
    exact EndsWith.of_sameFrame (t := (accept s).withWord (assembled s.cfg s.request)) ⟨rfl, rfl, rfl, rfl⟩
      (endCall_endsWith _ _)

/-- The call run cursor move by cursor move ends with the same answer. -/
theorem cursorRun_endsWith {s : State} (hp : s.work.phase = .idle) (hr : s.request.req = true)
    (hg : s.aux.grain = .cursor) :
    EndsWith (accept s) (runSteps ((s.roms.params.maxFields + 2) * (s.cfg.ext.length + 2)) s) s.callAnswer := by
  have hstart : step s = .next (startCall s) := by simp [step, fetch, hp, hr, hg]
  have hmoves := startCall_moves_le s
  obtain ⟨n, hn, hle⟩ : ∃ n, (s.roms.params.maxFields + 2) * (s.cfg.ext.length + 2) = n + 1 ∧
      (startCall s).moves ≤ n :=
    ⟨(s.roms.params.maxFields + 2) * (s.cfg.ext.length + 1) + (s.roms.params.maxFields + 1), by ring, by omega⟩
  rw [hn, runSteps_succ, hstart, ← startCall_answer s]
  have hframe := startCall_sameFrame s
  exact (runSteps_endsWith (by rw [hframe.request]; rfl) hle).of_sameFrame hframe

end Sys2Proof.Machine

open Sys2Proof Sys2Proof.Machine

/-- Settles O52: both grains end the call with the answer that the requested state determines, `State.callAnswer`. -/
theorem cursorRunIsTheCall : Obligations.CursorRunIsTheCall := by
  unfold Obligations.CursorRunIsTheCall
  intro s hp hr
  have hstep : step { s with aux := { s.aux with grain := .call } } =
      execDecode { s with aux := { s.aux with grain := .call } } :=
    step_of_run (i := .decode) (by simp [fetch, hp, hr])
  have hcall := execDecode_endsWith { s with aux := { s.aux with grain := .call } }
  have hcursor := cursorRun_endsWith (s := { s with aux := { s.aux with grain := .cursor } }) hp hr rfl
  rw [hstep]
  change EndsWith _ _ s.callAnswer at hcall hcursor
  cases ha : s.callAnswer with
  | ok r =>
    rw [ha] at hcall hcursor
    obtain ⟨t, ht, hresp, -, hframe⟩ := hcall
    obtain ⟨u, hu, hresp', hphase, hframe'⟩ := hcursor
    rw [ht]
    exact ⟨u, hu, hresp'.trans hresp.symm, hphase, hframe'.request.trans hframe.request.symm,
      hframe'.inputs.trans hframe.inputs.symm, hframe'.cfg.trans hframe.cfg.symm, hframe'.roms.trans hframe.roms.symm⟩
  | error e =>
    rw [ha] at hcall hcursor
    rw [show execDecode { s with aux := { s.aux with grain := .call } } = .refused e from hcall]
    exact hcursor

end

section
/-! PROOF. No operation and no step writes an input, what was sampled of it, a ROM or the grain (10_state.md R12, R20 to R22,
R27; 20_memory.md R46, R55). -/

namespace Sys2Proof.Machine

/-- What stays as it is from `s` to `t`, whatever runs: the inputs, their samples, the ROMs and the grain. -/
structure Kept (s t : State) : Prop where
  sameInputs : SameInputs s t
  grain : t.aux.grain = s.aux.grain

theorem Kept.refl (s : State) : Kept s s := ⟨⟨rfl, rfl, rfl, rfl, rfl, rfl⟩, rfl⟩

/-- The block writes its working state, its response and the model's own fields. -/
theorem kept_update (s : State) (w : Work) (r : Response) (a : Aux) (h : a.grain = s.aux.grain) :
    Kept s { s with work := w, response := r, aux := a } :=
  ⟨⟨rfl, rfl, rfl, rfl, rfl, rfl⟩, h⟩

/-- The first step of a call lowers `REQ` and touches nothing else of the request. -/
theorem kept_accept {s t : State} (h : Kept (accept s) t) : Kept s t := ⟨h.sameInputs, h.grain⟩

theorem kept_attemptFail {s u : State} (c : Cause) (h : Kept s u) : Kept s (attemptFail c u) := by
  obtain ⟨hsame, hgrain⟩ := h
  exact ⟨by simpa [SameInputs] using hsame, by simpa using hgrain⟩

theorem kept_afterExtract (s : State) (hi lo : BitVec 5) : Kept s (s.afterExtract hi lo) :=
  ⟨by simp [SameInputs], by simp⟩

/-- One operation run by itself keeps what its value's continuation and the state that a failure starts from keep. -/
theorem finish_kept {α : Type} {x : Res α} {s u t : State} {k : α → State} (h : finish x u k = .next t)
    (hk : ∀ a, Kept s (k a)) (hu : Kept s u) : Kept s t := by
  obtain ⟨a, -, rfl⟩ | ⟨c, -, rfl⟩ := finish_next h
  · exact hk a
  · exact kept_attemptFail c hu

/-- An operation that only returns a value keeps all else (40_bitfield_extractor.md R94). -/
theorem finish_withResult_kept {α : Type} {x : Res α} {s t : State} {f : α → OpResult}
    (h : finish x s (fun a => s.withResult (f a)) = .next t) : Kept s t :=
  finish_kept h (fun _ => kept_update s _ _ _ rfl) (.refl s)

theorem finish_withRecord_kept {x : Res Record} {s t : State} (h : finish x s s.withRecord = .next t) : Kept s t :=
  finish_kept h (fun _ => kept_update s _ _ _ rfl) (.refl s)

theorem execField_kept {c : OperandClass} {hi lo : BitVec 5} {s t : State} (h : execField c hi lo s = .next t) :
    Kept s t :=
  finish_kept h (fun _ => kept_update s _ _ _ rfl) (kept_afterExtract s hi lo)

theorem execLeaf_kept {opcode : OpcId} {nfields : BitVec 4} {s t : State} (h : execLeaf opcode nfields s = .next t) :
    Kept s t :=
  finish_kept h (fun _ => kept_update s _ _ _ rfl) (.refl s)

theorem endCall_kept {s t : State} {c : CallEnd} (h : endCall s c = .next t) : Kept s t := by
  obtain ⟨k, a, -, rfl⟩ | ⟨k, x, -, rfl⟩ := endCall_next h
  · exact kept_update s _ _ _ rfl
  · exact kept_update s _ _ _ rfl

theorem execAssemble_kept {s t : State} (h : execAssemble s = .next t) : Kept s t := by
  unfold execAssemble at h
  split at h <;> obtain rfl := Host.Outcome.next.inj h
  · exact kept_update s _ _ _ rfl
  · exact kept_update s _ _ _ rfl

theorem execDecode_kept {s t : State} (h : execDecode s = .next t) : Kept s t := by
  unfold execDecode at h
  split at h
  · obtain rfl := Host.Outcome.next.inj h
    exact kept_accept (kept_update (accept s) _ _ _ rfl)
  · have hend := endCall_kept h
    exact kept_accept ⟨hend.sameInputs, hend.grain⟩

theorem execLeafWord_kept {k : Nat} {l : Leaf} {w : Word} {s t : State} (h : execLeafWord k l w s = .next t) :
    Kept s t := by
  have hend := endCall_kept h
  exact kept_accept ⟨hend.sameInputs, hend.grain⟩

theorem execAttempt_kept {k : Nat} {s t : State} (h : execAttempt k s = .next t) : Kept s t := by
  unfold execAttempt at h
  split at h
  · obtain rfl := Host.Outcome.next.inj h
    exact kept_update s _ _ _ rfl
  · obtain rfl := Host.Outcome.next.inj h
    exact kept_update s _ _ _ rfl
  · exact nomatch h

/-- Every operation keeps the inputs, their samples, the ROMs and the grain. -/
theorem exec_kept {i : Instr} {s t : State} (h : exec i s = .next t) : Kept s t := by
  cases i with
  | gpr | gprz | g64 | fps | fpd | vec | vsxl | vsxh | vsf | cr | crb | pf0 | pf1 | uimm | simm | memri | memrix
  | crbitm => exact execField_kept h
  | extract | sext | shl | ctz | resolve | policy | matchLeaf => exact finish_withResult_kept h
  | opsAppend | opsInsert | dispatch => exact finish_withRecord_kept h
  | attempt => exact execAttempt_kept h
  | assemble => exact execAssemble_kept h
  | decode => exact execDecode_kept h
  | leaf => exact execLeaf_kept h
  | fxAddi | fxLwz | fxLwzu | fxStwu | fxLdu | fxStdu | fxMfocrf | fxFadd | fxVadd | fxOri | fxPfadd =>
    exact execLeafWord_kept h

theorem startCall_kept (s : State) : Kept s (startCall s) := by
  unfold startCall
  split
  · exact kept_accept (kept_update (accept s) _ _ _ rfl)
  · split <;> exact kept_accept (kept_update (accept s) _ _ _ rfl)

/-- So does every step. -/
theorem step_kept {s t : State} (h : step s = .next t) : Kept s t := by
  obtain ⟨-, -, rfl⟩ | ⟨-, -, -, hd⟩ | ⟨-, -, -, rfl⟩ | ⟨-, -, l, -, hl⟩ | ⟨-, -, c, -, rfl⟩ | ⟨-, -, -, c, -, hf⟩ |
    ⟨-, -, -, -, -, rfl⟩ | ⟨-, -, -, rfl⟩ := step_cases h
  · exact .refl _
  · exact execDecode_kept hd
  · exact startCall_kept s
  · have hleaf := execLeaf_kept hl
    exact ⟨hleaf.sameInputs, hleaf.grain⟩
  · exact kept_attemptFail c (.refl s)
  · exact execField_kept hf
  · exact kept_attemptFail .field (.refl s)
  · exact kept_update s _ _ _ rfl

end Sys2Proof.Machine

open Sys2Proof Sys2Proof.Machine

/-- Settles O45: an operation or a step writes working state, response and the model's own fields only, and of the request
only `REQ`. -/
theorem inputsAndRomsAreNeverWritten : Obligations.InputsAndRomsAreNeverWritten := by
  unfold Obligations.InputsAndRomsAreNeverWritten
  have hkept {s t : State} (h : Kept s t) :
      SameInputs s t ∧ (∀ a, t.request.buf.read a = s.request.buf.read a) ∧ t.aux.grain = s.aux.grain := by
    obtain ⟨hsame, hgrain⟩ := h
    have ⟨_, _, _, hbuf, _, _⟩ := hsame
    exact ⟨hsame, fun a => by rw [hbuf], hgrain⟩
  exact ⟨fun i s t h => hkept (exec_kept h), fun s t h => hkept (step_kept h)⟩

end

section
/-! PROOF. The well-formed states: the reset state is one, and every step keeps them (10_state.md R11 to R19;
41_register_translator.md R101, R118).  The inputs and ROMs are kept, so what is left is the record, the response and the
cursors of each move. -/

namespace Sys2Proof.Machine

/-! ### The answers of the tables -/

theorem lookupLeaf_eq_ok {e : Env} {word : Word} {k : Nat} {l : Leaf} :
    lookupLeaf e word k = .ok l ↔
      ∃ rows, e.roms.tables[k]? = some rows ∧ matchRows rows word e.cfg.features = some l := by
  unfold lookupLeaf
  cases e.roms.tables[k]? with
  | none => simp [violation_ne_ok]
  | some rows => cases hm : matchRows rows word e.cfg.features <;> simp [hm]

theorem matchRows_mem {rows : List TableRow} {word : Word} {features : FeatureSet} {l : Leaf}
    (h : matchRows rows word features = some l) : ∃ row ∈ rows, row.leaf = l := by
  obtain ⟨row, hrow, hl⟩ := Option.map_eq_some_iff.mp h
  exact ⟨row, List.mem_of_find?_eq_some hrow, hl⟩

/-- A leaf that a well-formed table answers has an opcode id of `OPC_W` bits (30_encoding.md R62). -/
theorem lookupLeaf_opcode {e : Env} {word : Word} {k : Nat} {l : Leaf} (hw : e.roms.wf)
    (h : lookupLeaf e word k = .ok l) : l.opcode < 2 ^ e.roms.params.opcW := by
  obtain ⟨-, htables, -⟩ := hw
  obtain ⟨rows, hrows, hm⟩ := lookupLeaf_eq_ok.mp h
  obtain ⟨row, hrow, rfl⟩ := matchRows_mem hm
  exact htables rows (List.mem_of_getElem? hrows) row hrow

/-! ### Records and inputs -/

theorem record_empty_wf (m : Roms) : Record.empty.wf m :=
  ⟨Nat.zero_le _, Nat.two_pow_pos _, fun _ ho => nomatch ho⟩

theorem freshRecord_wf {m : Roms} {opcode : OpcId} (h : opcode < 2 ^ m.params.opcW) : (freshRecord opcode).wf m :=
  ⟨Nat.zero_le _, h, fun _ ho => nomatch ho⟩

theorem attemptTable_wf {e : Env} {word : Word} {raw : U64} {k : Nat} {a : AttemptEnd} (hw : e.roms.wf)
    (h : attemptTable e word raw k = .ok a) : a.record.wf e.roms := by
  obtain ⟨hlookup, hleaf⟩ := attemptTable_eq_ok h
  obtain ⟨-, -, -, hgrown⟩ := attemptLeaf_eq_ok hleaf
  exact hgrown.wf (freshRecord_wf (lookupLeaf_opcode hw hlookup))

theorem Kept.inputsWf {s t : State} (h : Kept s t) (hs : s.inputsWf) : t.inputsWf := by
  obtain ⟨⟨hin, hcfg, hroms, hbuf, havail, -⟩, -⟩ := h
  unfold State.inputsWf
  rw [hin, hcfg, hroms, hbuf, havail]
  exact hs

/-! ### Between calls -/

/-- Between calls the cursors stand nowhere: only the record and the response are left to look at. -/
theorem wf_of_idle {s : State} (hin : s.inputsWf) (hrec : s.work.record.wf s.roms) (hresp : s.response.wf s.roms)
    (hp : s.work.phase = .idle) (ho : s.work.order = []) (hr : s.request.req = true → s.response.rsp = false) :
    s.wf :=
  ⟨hin, hrec, hresp, fun _ => ho, hr, by simp [hp], by simp [hp], by simp [hp]⟩

theorem callFail_wf {s : State} (c : Cause) (hin : s.inputsWf) (hr : s.request.req = false) : (callFail c s).wf :=
  wf_of_idle hin (record_empty_wf _) (.inr ⟨rfl, rfl, rfl⟩) rfl rfl (by simp [hr])

theorem callSuccess_wf {s : State} (hin : s.inputsWf) (hrec : s.work.record.wf s.roms) (hr : s.request.req = false) :
    (callSuccess s).wf :=
  wf_of_idle hin hrec (.inl ⟨rfl, rfl, rfl, hrec⟩) rfl rfl (by simp [hr])

/-- The call in one step ends in a well-formed state (45_decode_entry.md R180 to R184). -/
theorem execDecode_wf {s t : State} (hin : s.inputsWf) (h : execDecode s = .next t) : t.wf := by
  have ⟨_, _, _, _, hroms, _, _⟩ := hin
  unfold execDecode at h
  split at h
  · obtain rfl := Host.Outcome.next.inj h
    exact callFail_wf .short hin rfl
  · obtain ⟨k, a, hcall, rfl⟩ | ⟨k, x, -, rfl⟩ := endCall_next h
    · exact callSuccess_wf hin (attemptTable_wf (e := s.env) hroms (callTables_done hcall).2) rfl
    · exact callFail_wf .noMatch hin rfl

/-! ### Inside a call -/

/-- What holds at every place inside a call, before a match and at a field: the cursor stands in `ORDER`, and neither `REQ`
nor `RSP` is up. -/
structure InCall (s : State) : Prop where
  inputs : s.inputsWf
  response : s.response.wf s.roms
  order : (s.work.tidx :: s.work.order) <:+ tableOrder s.cfg.ext
  req : s.request.req = false
  rsp : s.response.rsp = false

theorem inCall_of_wf {s : State} (h : s.wf) (hp : s.work.phase ≠ .idle) (hr : s.request.req = false) : InCall s := by
  obtain ⟨hin, -, hresp, -, -, hcall, -, -⟩ := h
  obtain ⟨horder, hrsp⟩ := hcall hp
  exact ⟨hin, hresp, horder, hr, hrsp⟩

/-- They do not speak of the raw value that a failing field leaves behind. -/
theorem InCall.afterExtract {s : State} (h : InCall s) (hi lo : BitVec 5) : InCall (s.afterExtract hi lo) :=
  ⟨(kept_afterExtract s hi lo).inputsWf h.inputs, by simpa using h.response, by simpa using h.order,
    by simpa using h.req, by simpa using h.rsp⟩

theorem InCall.withLeaf {s : State} (h : InCall s) (l : Leaf) : InCall (s.withLeaf l) :=
  ⟨h.inputs, h.response, h.order, h.req, h.rsp⟩

theorem InCall.matching_wf {s : State} (h : InCall s) (hp : s.work.phase = .matching)
    (hrec : s.work.record = Record.empty) (hf : s.work.fidx = 0) : s.wf :=
  ⟨h.inputs, hrec ▸ record_empty_wf _, h.response, by simp [hp], by simp [h.req], fun _ => ⟨h.order, h.rsp⟩,
    fun _ => ⟨hrec, hf⟩, by simp [hp]⟩

theorem InCall.resolving_wf {s : State} (h : InCall s) (hp : s.work.phase = .resolving)
    (hrec : s.work.record.wf s.roms) (hmax : s.work.leaf.nfields ≤ s.roms.params.maxFields)
    (hf : s.work.fidx ≤ s.work.leaf.nfields) (hopc : s.work.record.opcode = s.work.leaf.opcode)
    (hlen : s.work.record.len = 0#3) : s.wf :=
  ⟨h.inputs, hrec, h.response, by simp [hp], by simp [h.req], fun _ => ⟨h.order, h.rsp⟩, by simp [hp],
    fun _ => ⟨hmax, hf, hopc, hlen⟩⟩

/-- A failed attempt moves on in `ORDER` or ends the call (60_exceptions.md R207). -/
theorem InCall.attemptFail_wf {s : State} (h : InCall s) (c : Cause) : (attemptFail c s).wf := by
  have hin := (kept_attemptFail c (.refl s)).inputsWf h.inputs
  obtain ⟨-, heq⟩ | ⟨k, rest, horder, heq⟩ := attemptFail_cases c s <;> rw [heq] at hin ⊢
  · exact callFail_wf .noMatch hin h.req
  · have hsuffix : (k :: rest) <:+ tableOrder s.cfg.ext := horder ▸ (List.suffix_cons _ _).trans h.order
    exact InCall.matching_wf ⟨hin, h.response, hsuffix, h.req, h.rsp⟩ rfl rfl rfl

theorem startCall_wf {s : State} (hin : s.inputsWf) (hresp : s.response.wf s.roms) : (startCall s).wf := by
  unfold startCall
  split
  · exact callFail_wf .short hin rfl
  · split
    · exact callFail_wf .noMatch hin rfl
    · rename_i k rest horder
      exact InCall.matching_wf ⟨hin, hresp, horder ▸ List.suffix_rfl, rfl, rfl⟩ rfl rfl rfl

theorem InCall.enterLeaf_wf {s : State} {l : Leaf} (h : InCall s) (hopc : l.opcode < 2 ^ s.roms.params.opcW)
    (hmax : l.nfields ≤ s.roms.params.maxFields) : (s.enterLeaf l).wf := by
  have hleaf : (s.enterLeaf l).work.leaf.opcode = l.opcode := headerOpcode_headerOf _ _
  exact InCall.resolving_wf ⟨h.inputs, h.response, h.order, h.req, h.rsp⟩ rfl (freshRecord_wf hopc)
    (s.enterLeaf_nfields l ▸ hmax) (Nat.zero_le _) hleaf.symm rfl

/-- The header of a leaf that the table answers enters the leaf, or fails the attempt (44_matcher_dispatch.md R163, R165). -/
theorem InCall.execLeaf_wf {s t : State} {l : Leaf} (h : InCall s) (hl : lookupLeaf s.env s.work.word s.work.tidx = .ok l)
    (ht : execLeaf l.opcode (headerNfields l.header) (s.withLeaf l) = .next t) : t.wf := by
  have ⟨_, _, _, _, hroms, _, _⟩ := h.inputs
  obtain ⟨hmax, rfl⟩ | ⟨-, -, rfl⟩ := execLeaf_next ht
  · exact h.enterLeaf_wf (lookupLeaf_opcode (e := s.env) hroms hl) hmax
  · exact (h.withLeaf l).attemptFail_wf .field

/-- A field that is resolved keeps the record's form and moves the cursor inside the leaf, or the attempt fails. -/
theorem execField_wf {s t : State} {c : OperandClass} {hi lo : BitVec 5} (h : s.wf) (hp : s.work.phase = .resolving)
    (hr : s.request.req = false) (hf : s.work.fidx < s.work.leaf.nfields) (ht : execField c hi lo s = .next t) :
    t.wf := by
  have hcall := inCall_of_wf h (by simp [hp]) hr
  obtain ⟨-, hrec, -, -, -, -, -, hresolving⟩ := h
  obtain ⟨hmax, -, hopc, hlen⟩ := hresolving hp
  obtain ⟨p, hstep, rfl⟩ | ⟨x, -, rfl⟩ := execField_next ht
  · obtain ⟨-, -, hclass⟩ := fieldStep_eq_ok hstep
    have hgrown : s.work.record.Grown s.roms p.2 := resolveClass_grown (e := s.env) hrec.1 hclass
    exact InCall.resolving_wf ⟨hcall.inputs, hcall.response, hcall.order, hcall.req, hcall.rsp⟩ hp (hgrown.wf hrec) hmax
      hf (hgrown.opcode.trans hopc) (hgrown.len.trans hlen)
  · exact (hcall.afterExtract hi lo).attemptFail_wf x

/-- Every step keeps the well-formed states. -/
theorem step_wf {s t : State} (h : s.wf) (ht : step s = .next t) : t.wf := by
  have ⟨hin, hrec, hresp, _⟩ := h
  obtain ⟨-, -, rfl⟩ | ⟨-, -, -, hd⟩ | ⟨-, -, -, rfl⟩ | ⟨hp, hr, l, hl, hleaf⟩ | ⟨hp, hr, c, -, rfl⟩ |
    ⟨hp, hr, hf, c, -, hfield⟩ | ⟨hp, hr, -, -, -, rfl⟩ | ⟨-, hr, -, rfl⟩ := step_cases ht
  · exact h
  · exact execDecode_wf hin hd
  · exact startCall_wf hin hresp
  · exact (inCall_of_wf h (by simp [hp]) hr).execLeaf_wf hl hleaf
  · exact (inCall_of_wf h (by simp [hp]) hr).attemptFail_wf c
  · exact execField_wf h hp hr hf hfield
  · exact (inCall_of_wf h (by simp [hp]) hr).attemptFail_wf .field
  · exact callSuccess_wf hin hrec hr

/-! ### The reset state -/

theorem configuration_reset_wf : Configuration.reset.wf := ⟨rfl, fun _ hi => nomatch hi⟩

theorem bufferWf_nil (avail : Nat) : BufferWf [] avail := ⟨rfl, fun _ hc => nomatch hc⟩

theorem roms_reset_wf : State.reset.roms.wf := by
  refine ⟨resetBankRom_contract, fun rows hrows row hrow => ?_, fun e he => resetPolicyRom_opcode he⟩
  obtain ⟨k, -, rfl⟩ := List.mem_map.mp hrows
  exact resetTable_opcode hrow

theorem inputs_reset_wf : State.reset.inputsWf :=
  ⟨bufferWf_nil 0, bufferWf_nil 0, configuration_reset_wf, configuration_reset_wf, roms_reset_wf, rfl, rfl⟩

end Sys2Proof.Machine

open Sys2Proof Sys2Proof.Machine

/-- Settles O51, by the cases of a step. -/
theorem stepKeepsWellFormed : Obligations.StepKeepsWellFormed := by
  unfold Obligations.StepKeepsWellFormed
  exact fun s t => step_wf

/-- Settles O50: whatever the free ROM contents are, reset takes those that meet their contract. -/
theorem resetIsWellFormed : Obligations.ResetIsWellFormed := by
  unfold Obligations.ResetIsWellFormed
  exact wf_of_idle inputs_reset_wf (record_empty_wf _) (.inr ⟨rfl, rfl, rfl⟩) rfl rfl fun hreq => nomatch hreq

end

section
/-! PROOF. What a step runs, what a response depends on, and what reset leaves (10_state.md R25, R26; 44_matcher_dispatch.md
R163; 45_decode_entry.md R180, R187). -/

namespace Sys2Proof.Machine

/-! ### What a step runs -/

theorem decodeDescriptor_of_decodeWord {w : Word} {i : Instr} (h : decodeWord .descriptor w = .ok i) :
    decodeDescriptor w = some i := by
  unfold decodeWord at h
  cases hd : decodeDescriptor w with
  | some j => simpa [hd] using h
  | none => simp [hd] at h

theorem step_field {s : State} {i : Instr} (hp : s.work.phase = .resolving) (hr : s.request.req = false)
    (hf : s.work.fidx < s.work.leaf.nfields) (hd : decodeDescriptor (fetchDescriptor s) = some i) :
    step s = exec i s :=
  step_of_run (by simp [fetch, fetchField, hp, hr, hf, hd])

theorem step_match {s : State} {l : Leaf} (hp : s.work.phase = .matching) (hr : s.request.req = false)
    (hl : lookupLeaf s.env s.work.word s.work.tidx = .ok l) :
    step s = exec (decodeHeader l.header) (s.withLeaf l) := by
  rw [step_matching hp hr, hl]

theorem step_call {s : State} (hp : s.work.phase = .idle) (hr : s.request.req = true) (hg : s.aux.grain = .call) :
    step s = exec .decode s :=
  step_of_run (by simp [fetch, hp, hr, hg])

theorem step_idle {s : State} (hp : s.work.phase = .idle) (hr : s.request.req = false) : step s = .next s :=
  step_of_move (by simp [fetch, hp, hr])

/-- A second request before the response is refused (93_implementation_defined.md U7). -/
theorem step_requestDuringCall {s : State} (hp : s.work.phase ≠ .idle) (hr : s.request.req = true) :
    step s = .refused .requestDuringCall := by
  refine step_of_move ?_
  cases hphase : s.work.phase with
  | idle => exact absurd hphase hp
  | matching => simp [fetch, hphase, hr]
  | resolving => simp [fetch, hphase, hr]

/-! ### What a response depends on -/

/-- The response of a call is its answer. -/
theorem decodeResponse_eq (s : State) : decodeResponse s = s.callAnswer.toOption := by
  have hend := execDecode_endsWith s
  unfold decodeResponse
  cases ha : s.callAnswer with
  | ok r =>
    rw [ha] at hend
    obtain ⟨u, hu, rfl, -, -⟩ := hend
    rw [show exec .decode s = .next u from hu]
    rfl
  | error e =>
    rw [ha] at hend
    rw [show exec .decode s = .refused e from hend]
    rfl

/-- A byte below `AVAIL` is the buffer's. -/
theorem Request.byte_eq {q : Request} {i : Nat} (h : i < q.avail) : q.byte i = some (q.buf.read i) := if_pos h

/-- The assembled word is made of the first four bytes (45_decode_entry.md R181). -/
theorem assembled_congr {cfg : Configuration} {q q' : Request} (hq : 4 ≤ q.avail) (hq' : 4 ≤ q'.avail)
    (h : ∀ i < 4, q'.byte i = q.byte i) : assembled cfg q' = assembled cfg q := by
  have hread : ∀ i < 4, q'.buf.read i = q.buf.read i := fun i hi => by
    simpa [Request.byte_eq (show i < q.avail by omega), Request.byte_eq (show i < q'.avail by omega)] using h i hi
  unfold assembled
  rw [hread 0 (by decide), hread 1 (by decide), hread 2 (by decide), hread 3 (by decide)]

/-- The answer of a call is a function of the request, the configuration and the ROMs. -/
theorem callAnswer_congr {s t : State} (henv : t.env = s.env) (havail : t.request.avail = s.request.avail)
    (hbytes : ∀ i < s.request.avail, t.request.byte i = s.request.byte i) : t.callAnswer = s.callAnswer := by
  have hcfg : t.cfg = s.cfg := congrArg Env.cfg henv
  unfold State.callAnswer
  rw [havail, henv, hcfg]
  split
  · rfl
  · rename_i hlen
    have h4 : 4 ≤ s.request.avail := Nat.not_lt.mp hlen
    rw [assembled_congr h4 (havail ▸ h4) fun i hi => hbytes i (by omega)]

end Sys2Proof.Machine

open Sys2Proof Sys2Proof.Machine

/-- Settles O42, one lemma for each place that the sequencing can have come to. -/
theorem stepRunsTheDecodedOperation : Obligations.StepRunsTheDecodedOperation := by
  unfold Obligations.StepRunsTheDecodedOperation
  refine ⟨fun s i hp hr hf hd => step_field hp hr hf (decodeDescriptor_of_decodeWord hd),
    fun s rows l hp hr hrows hm => ?_, fun s => step_call, fun s => step_idle, fun s => step_requestDuringCall⟩
  have hstep := step_match hp hr (lookupLeaf_eq_ok.mpr ⟨rows, hrows, hm⟩)
  refine ⟨hstep, fun w i hw hi => ?_⟩
  have hheader : decodeHeader l.header = i := hw ▸ Except.ok.inj hi
  exact hheader ▸ hstep

/-- Settles O35: the response is the call's answer, which the request, the configuration and the ROMs determine. -/
theorem responseDependsOnRequestOnly : Obligations.ResponseDependsOnRequestOnly := by
  unfold Obligations.ResponseDependsOnRequestOnly
  intro s t hcfg hroms havail hbytes haddr
  have henv : t.env = s.env := by rw [State.env, State.env, hcfg, hroms, haddr]
  rw [decodeResponse_eq, decodeResponse_eq, callAnswer_congr henv havail hbytes]

/-- Settles O49: power-on reset writes the response and three fields of the driven configuration, and the reset state has no
request to start on. -/
theorem resetValues : Obligations.ResetValues := by
  unfold Obligations.ResetValues
  exact ⟨fun s => ⟨rfl, rfl, rfl, fun i => rfl, rfl, rfl, rfl, rfl, rfl, rfl, rfl, rfl, rfl, rfl, rfl⟩, rfl,
    step_idle rfl rfl⟩

end

section
/-! PROOF. What a move of the cursors and the end of a call leave (10_state.md R17, R19; 60_exceptions.md R207). -/

namespace Sys2Proof.Machine

/-! ### A field adds operands -/

theorem opsAppend_n {q : Params} {m : CheckMode} {o : Operand} {rec rec' : Record}
    (h : opsAppend q m o rec = .ok rec') : rec.n < q.maxOps ∧ rec'.n = rec.n + 1 := by
  obtain ⟨hroom, rfl⟩ := opsAppend_eq_ok.mp h
  exact ⟨hroom, by simp [Record.n]⟩

theorem opsInsert_n {q : Params} {m : CheckMode} {p : Nat} {o : Operand} {rec rec' : Record}
    (h : opsInsert q m p o rec = .ok rec') : rec'.n = rec.n + 1 := by
  obtain ⟨-, hp, rfl⟩ := opsInsert_eq_ok.mp h
  simp only [Record.n, List.length_append, List.length_take, List.length_cons, List.length_drop] at hp ⊢
  omega

theorem insertTied_n {e : Env} {pol : Policy} {r : RegId} {rec rec' : Record} (h : insertTied e pol r rec = .ok rec') :
    rec.n ≤ rec'.n := by
  cases pol with
  | none => exact (Res.ok.inj h) ▸ le_refl _
  | tiedOut => exact (opsInsert_n h).symm ▸ Nat.le_succ _
  | tiedStore =>
    simp only [insertTied] at h
    split at h
    · exact absurd h (violation_ne_ok _ _ _ _)
    · exact (opsInsert_n h).symm ▸ Nat.le_succ _

/-- Every resolver ends by an append, to a list that is at least as long as the one it was given. -/
theorem resolveClass_appends {e : Env} {c : OperandClass} {hi lo : BitVec 5} {raw : U64} {rec rec' : Record}
    (h : resolveClass e c hi lo raw rec = .ok rec') :
    ∃ o mid, rec.n ≤ Record.n mid ∧ opsAppend e.roms.params e.cfg.check o mid = .ok rec' := by
  have hmem {dw sc : Nat} (h : resMem dw sc e raw rec = .ok rec') :
      ∃ o mid, rec.n ≤ Record.n mid ∧ opsAppend e.roms.params e.cfg.check o mid = .ok rec' := by
    obtain ⟨r, pol, rec1, rec2, -, -, -, htied, hdisp, hbase⟩ := resMem_eq_ok h
    have hle := insertTied_n htied
    obtain ⟨-, hn⟩ := opsAppend_n hdisp
    exact ⟨.reg r, rec2, by omega, hbase⟩
  cases c with
  | reg b =>
    obtain ⟨r, -, happend⟩ := Res.bind_eq_ok.mp h
    exact ⟨.reg r, rec, le_refl _, happend⟩
  | uimm => exact ⟨.imm raw, rec, le_refl _, h⟩
  | simm =>
    simp only [resolveClass, resSimm] at h
    split at h
    · exact absurd h (violation_ne_ok _ _ _ _)
    · exact ⟨_, rec, le_refl _, h⟩
  | memri => exact hmem h
  | memrix => exact hmem h
  | crbitm =>
    obtain ⟨g, -, h⟩ := Res.bind_eq_ok.mp h
    obtain ⟨r, -, happend⟩ := Res.bind_eq_ok.mp h
    exact ⟨.reg r, rec, le_refl _, happend⟩

/-- A field that is resolved adds operands and leaves the opcode and the length, whatever the record was before. -/
theorem fieldStep_adds {e : Env} {word : Word} {c : OperandClass} {hi lo : BitVec 5} {rec : Record} {p : U64 × Record}
    (h : fieldStep e word c hi lo rec = .ok p) :
    p.2.opcode = rec.opcode ∧ p.2.len = rec.len ∧ rec.n < p.2.n := by
  obtain ⟨-, -, hclass⟩ := fieldStep_eq_ok h
  obtain ⟨o, mid, hle, happend⟩ := resolveClass_appends hclass
  obtain ⟨hroom, hn⟩ := opsAppend_n happend
  have hgrown := resolveClass_grown (e := e) (by omega) hclass
  exact ⟨hgrown.opcode, hgrown.len, by omega⟩

/-! ### The move at a field -/

/-- The cursor has moved by 1, operands are added to the record, and nothing is published (10_state.md R17). -/
structure FieldPassed (s t : State) : Prop where
  phase : t.work.phase = .resolving
  tidx : t.work.tidx = s.work.tidx
  order : t.work.order = s.work.order
  fidx : t.work.fidx = s.work.fidx + 1
  opcode : t.work.record.opcode = s.work.record.opcode
  len : t.work.record.len = s.work.record.len
  longer : s.work.record.n < t.work.record.n
  response : t.response = s.response

/-- The attempt has failed: the record is empty, and the next table of `ORDER` is tried or the call ends in `Fail`
(60_exceptions.md R207). -/
structure AttemptGivenUp (s t : State) : Prop where
  record : t.work.record = Record.empty
  fidx : t.work.fidx = 0
  order : (∃ k rest, s.work.order = k :: rest ∧ t.work.tidx = k ∧ t.work.order = rest ∧ t.work.phase = .matching ∧
      t.response = s.response) ∨
    (s.work.order = [] ∧ t.work.phase = .idle ∧ t.response = failResponse)

theorem attemptFail_givenUp (c : Cause) (s : State) : AttemptGivenUp s (attemptFail c s) := by
  refine ⟨by simp, by simp, ?_⟩
  obtain ⟨horder, heq⟩ | ⟨k, rest, horder, heq⟩ := attemptFail_cases c s <;> rw [heq]
  · exact .inr ⟨horder, rfl, rfl⟩
  · exact .inl ⟨k, rest, horder, rfl, rfl, rfl, rfl⟩

/-- What one field leaves: `WORD`, `LEAF`, and either the field passed or the attempt given up. -/
theorem execField_moves {c : OperandClass} {hi lo : BitVec 5} {s t : State} (hp : s.work.phase = .resolving)
    (h : execField c hi lo s = .next t) :
    t.work.word = s.work.word ∧ t.work.leaf = s.work.leaf ∧ (FieldPassed s t ∨ AttemptGivenUp s t) := by
  obtain ⟨p, hstep, rfl⟩ | ⟨x, -, rfl⟩ := execField_next h
  · obtain ⟨hopc, hlen, hn⟩ := fieldStep_adds hstep
    exact ⟨rfl, rfl, .inl ⟨hp, rfl, rfl, rfl, hopc, hlen, hn, rfl⟩⟩
  · obtain ⟨hrec, hfidx, horder⟩ := attemptFail_givenUp x (s.afterExtract hi lo)
    exact ⟨by simp, by simp, .inr ⟨hrec, hfidx, by simpa using horder⟩⟩

theorem step_moves {s t : State} (hp : s.work.phase = .resolving) (hf : s.work.fidx < s.work.leaf.nfields)
    (h : step s = .next t) :
    t.work.word = s.work.word ∧ t.work.leaf = s.work.leaf ∧ (FieldPassed s t ∨ AttemptGivenUp s t) := by
  have hr : s.request.req = false := by
    cases hr : s.request.req with
    | false => rfl
    | true => exact nomatch (step_requestDuringCall (by simp [hp]) hr).symm.trans h
  rw [step_resolving hp hr hf] at h
  split at h
  · exact execField_moves hp h
  · obtain ⟨a, hok, -⟩ | ⟨x, -, rfl⟩ := finish_next h
    · exact absurd hok (violation_ne_ok _ _ _ _)
    · exact ⟨by simp, by simp, .inr (attemptFail_givenUp x s)⟩

/-! ### The outputs -/

/-- The three outputs that a call publishes (10_state.md R19); `RSP` is no part of them. -/
structure SameOutputs (s t : State) : Prop where
  status : t.response.status = s.response.status
  outRec : t.response.outRec = s.response.outRec
  consumed : t.response.consumed = s.response.consumed

theorem SameOutputs.of_response {s t : State} (h : t.response = s.response) : SameOutputs s t :=
  ⟨by rw [h], by rw [h], by rw [h]⟩

/-- A call has ended with the whole response of a success or of a failure, and none is asked for. -/
structure CallEnded (t : State) : Prop where
  phase : t.work.phase = .idle
  req : t.request.req = false
  response : (∃ rec, t.response = successResponse rec) ∨ t.response = failResponse

theorem callFail_ended {s : State} (c : Cause) (hr : s.request.req = false) : CallEnded (callFail c s) :=
  ⟨rfl, hr, .inr rfl⟩

theorem callSuccess_ended {s : State} (hr : s.request.req = false) : CallEnded (callSuccess s) :=
  ⟨rfl, hr, .inl ⟨_, rfl⟩⟩

theorem execDecode_ended {s t : State} (h : execDecode s = .next t) : CallEnded t := by
  unfold execDecode at h
  split at h
  · obtain rfl := Host.Outcome.next.inj h
    exact callFail_ended .short rfl
  · obtain ⟨k, a, -, rfl⟩ | ⟨k, x, -, rfl⟩ := endCall_next h
    · exact callSuccess_ended rfl
    · exact callFail_ended .noMatch rfl

theorem startCall_outputs (s : State) : SameOutputs s (startCall s) ∨ CallEnded (startCall s) := by
  unfold startCall
  split
  · exact .inr (callFail_ended .short rfl)
  · split
    · exact .inr (callFail_ended .noMatch rfl)
    · exact .inl ⟨rfl, rfl, rfl⟩

/-- A failed attempt, from any state `u` that has the response of `s`, publishes nothing but a failed call. -/
theorem attemptFail_outputs {s u : State} (c : Cause) (hresp : u.response = s.response) (hr : u.request.req = false) :
    SameOutputs s (attemptFail c u) ∨ CallEnded (attemptFail c u) := by
  obtain ⟨-, heq⟩ | ⟨k, rest, -, heq⟩ := attemptFail_cases c u <;> rw [heq]
  · exact .inr (callFail_ended .noMatch hr)
  · exact .inl (.of_response hresp)

theorem step_outputs {s t : State} (h : step s = .next t) : SameOutputs s t ∨ CallEnded t := by
  obtain ⟨-, -, rfl⟩ | ⟨-, -, -, hd⟩ | ⟨-, -, -, rfl⟩ | ⟨-, hr, l, -, hleaf⟩ | ⟨-, hr, c, -, rfl⟩ |
    ⟨-, hr, -, c, -, hfield⟩ | ⟨-, hr, -, -, -, rfl⟩ | ⟨-, hr, -, rfl⟩ := step_cases h
  · exact .inl (.of_response rfl)
  · exact .inr (execDecode_ended hd)
  · exact startCall_outputs s
  · obtain ⟨-, rfl⟩ | ⟨-, -, rfl⟩ := execLeaf_next hleaf
    · exact .inl (.of_response rfl)
    · exact attemptFail_outputs .field rfl hr
  · exact attemptFail_outputs c rfl hr
  · obtain ⟨p, -, rfl⟩ | ⟨x, -, rfl⟩ := execField_next hfield
    · exact .inl (.of_response rfl)
    · exact attemptFail_outputs x (by simp) (by simpa using hr)
  · exact attemptFail_outputs .field rfl hr
  · exact .inr (callSuccess_ended hr)

end Sys2Proof.Machine

open Sys2Proof Sys2Proof.Machine

/-- Settles O44: every resolver ends by an append, and a failed attempt goes on in `ORDER` or ends the call. -/
theorem stepMovesTheCursor : Obligations.StepMovesTheCursor := by
  unfold Obligations.StepMovesTheCursor
  intro s t hp hf h
  obtain ⟨hword, hleaf, ⟨hphase, htidx, horder, hfidx, hopc, hlen, hn, hresp⟩ | ⟨hrec, hfidx, hmove⟩⟩ := step_moves hp hf h
  · exact ⟨hword, hleaf, (step_kept h).sameInputs, .inl ⟨hphase, htidx, horder, hfidx, hopc, hlen, hn, hresp⟩⟩
  · exact ⟨hword, hleaf, (step_kept h).sameInputs, .inr ⟨hrec, hfidx, hmove⟩⟩

/-- Settles O46: every case of a step leaves the three outputs or ends the call. -/
theorem outputsChangeAtTheEndOfACallOnly : Obligations.OutputsChangeAtTheEndOfACallOnly := by
  unfold Obligations.OutputsChangeAtTheEndOfACallOnly
  intro s t h
  obtain ⟨hstatus, hrec, hconsumed⟩ | ⟨hphase, hreq, hresponse⟩ := step_outputs h
  · exact .inl ⟨hstatus, hrec, hconsumed⟩
  · exact .inr ⟨hphase, hreq, hresponse⟩

end

section
/-! PROOF. What the host drives on the ports has no part in any operation or step (10_state.md R12; 45_decode_entry.md R187):
each commutes with driving other inputs.  And what the host's own functions do (70_reset_and_hazards.md R230, R240). -/

namespace Sys2Proof.Machine

/-! ### Driving the ports -/

/-- The state with the inputs `x` driven on the ports. -/
def State.drive (s : State) (x : Inputs) : State := { s with inputs := x }

/-- The end of an operation or a step with the inputs `x` driven on the ports. -/
def driveOutcome (x : Inputs) : Host.Outcome State Fault Refusal → Host.Outcome State Fault Refusal
  | .next t => .next (t.drive x)
  | .fault f => .fault f
  | .refused r => .refused r

/-- What a step finds to do, with the inputs `x` driven on the ports. -/
def Fetched.drive (x : Inputs) : Fetched → Fetched
  | .run i s => .run i (s.drive x)
  | .move o => .move (driveOutcome x o)

@[simp] theorem State.drive_env (s : State) (x : Inputs) : (s.drive x).env = s.env := rfl
@[simp] theorem State.drive_cfg (s : State) (x : Inputs) : (s.drive x).cfg = s.cfg := rfl
@[simp] theorem State.drive_request (s : State) (x : Inputs) : (s.drive x).request = s.request := rfl
@[simp] theorem State.drive_work (s : State) (x : Inputs) : (s.drive x).work = s.work := rfl
@[simp] theorem State.drive_aux (s : State) (x : Inputs) : (s.drive x).aux = s.aux := rfl
@[simp] theorem driveOutcome_next (x : Inputs) (t : State) : driveOutcome x (.next t) = .next (t.drive x) := rfl
@[simp] theorem driveOutcome_refused (x : Inputs) (r : Refusal) : driveOutcome x (.refused r) = .refused r := rfl
@[simp] theorem Fetched.drive_run (x : Inputs) (i : Instr) (s : State) :
    (Fetched.run i s).drive x = .run i (s.drive x) := rfl
@[simp] theorem Fetched.drive_move (x : Inputs) (o : Host.Outcome State Fault Refusal) :
    (Fetched.move o).drive x = .move (driveOutcome x o) := rfl

/-! ### Operations -/

theorem attemptFail_drive (c : Cause) (s : State) (x : Inputs) :
    attemptFail c (s.drive x) = (attemptFail c s).drive x := by
  cases horder : s.work.order with
  | nil =>
    rw [attemptFail_nil horder, attemptFail_nil (s := s.drive x) horder]
    rfl
  | cons k rest =>
    rw [attemptFail_cons horder, attemptFail_cons (s := s.drive x) horder]
    rfl

theorem State.afterExtract_drive (s : State) (x : Inputs) (hi lo : BitVec 5) :
    (s.drive x).afterExtract hi lo = (s.afterExtract hi lo).drive x := by
  unfold State.afterExtract
  split <;> rfl

/-- An operation whose answer does not depend on what is driven, and whose continuation commutes with it. -/
theorem finish_drive {α : Type} {a : Res α} {s : State} {x : Inputs} {k k' : α → State}
    (h : ∀ v, k' v = (k v).drive x) : finish a (s.drive x) k' = driveOutcome x (finish a s k) := by
  cases a with
  | ok v => exact congrArg Host.Outcome.next (h v)
  | fail c => exact congrArg Host.Outcome.next (attemptFail_drive c s x)
  | refuse r => rfl

theorem execField_drive (c : OperandClass) (hi lo : BitVec 5) (s : State) (x : Inputs) :
    execField c hi lo (s.drive x) = driveOutcome x (execField c hi lo s) := by
  unfold execField
  rw [s.afterExtract_drive x]
  exact finish_drive fun _ => rfl

theorem endCall_drive (c : CallEnd) (s : State) (x : Inputs) :
    endCall (s.drive x) c = driveOutcome x (endCall s c) := by
  cases c <;> rfl

theorem execDecode_drive (s : State) (x : Inputs) : execDecode (s.drive x) = driveOutcome x (execDecode s) := by
  unfold execDecode
  rw [s.drive_request x]
  split
  · rfl
  · exact endCall_drive _ ((accept s).withWord (assembled s.cfg s.request)) x

theorem execLeafWord_drive (k : Nat) (l : Leaf) (w : Word) (s : State) (x : Inputs) :
    execLeafWord k l w (s.drive x) = driveOutcome x (execLeafWord k l w s) :=
  endCall_drive _ ((accept s).withWord w) x

theorem execAttempt_drive (k : Nat) (s : State) (x : Inputs) :
    execAttempt k (s.drive x) = driveOutcome x (execAttempt k s) := by
  simp only [execAttempt, State.drive_env, State.drive_work]
  cases attemptTable s.env s.work.word s.work.raw k <;> rfl

theorem execAssemble_drive (s : State) (x : Inputs) : execAssemble (s.drive x) = driveOutcome x (execAssemble s) := by
  unfold execAssemble
  rw [s.drive_request x]
  split <;> rfl

/-- No operation reads what is driven, and none writes it. -/
theorem exec_drive (i : Instr) (s : State) (x : Inputs) : exec i (s.drive x) = driveOutcome x (exec i s) := by
  cases i with
  | gpr | gprz | g64 | fps | fpd | vec | vsxl | vsxh | vsf | cr | crb | pf0 | pf1 | uimm | simm | memri | memrix
  | crbitm => exact execField_drive ..
  | extract | sext | shl | ctz | resolve | policy | opsAppend | opsInsert | matchLeaf | dispatch | leaf =>
    exact finish_drive fun _ => rfl
  | attempt k => exact execAttempt_drive k s x
  | assemble => exact execAssemble_drive s x
  | decode => exact execDecode_drive s x
  | fxAddi | fxLwz | fxLwzu | fxStwu | fxLdu | fxStdu | fxMfocrf | fxFadd | fxVadd | fxOri | fxPfadd =>
    exact execLeafWord_drive ..

/-! ### Steps -/

theorem startCall_drive (s : State) (x : Inputs) : startCall (s.drive x) = (startCall s).drive x := by
  unfold startCall
  rw [s.drive_request x, s.drive_cfg x]
  by_cases h : s.request.avail < Config.ilen
  · rw [if_pos h, if_pos h]
    rfl
  · rw [if_neg h, if_neg h]
    cases tableOrder s.cfg.ext <;> rfl

theorem fetchMatch_drive (s : State) (x : Inputs) : fetchMatch (s.drive x) = (fetchMatch s).drive x := by
  simp only [fetchMatch, State.drive_env, State.drive_work]
  cases lookupLeaf s.env s.work.word s.work.tidx with
  | ok l => rfl
  | fail c => exact congrArg (Fetched.move <| .next ·) (attemptFail_drive c s x)
  | refuse r => rfl

theorem fetchField_drive (s : State) (x : Inputs) : fetchField (s.drive x) = (fetchField s).drive x := by
  have hfd : fetchDescriptor (s.drive x) = fetchDescriptor s := rfl
  simp only [fetchField, State.drive_work, hfd]
  split
  · cases decodeDescriptor (fetchDescriptor s) with
    | some i => rfl
    | none => exact congrArg Fetched.move (finish_drive fun _ => rfl)
  · rfl

theorem fetch_drive (s : State) (x : Inputs) : fetch (s.drive x) = (fetch s).drive x := by
  cases hp : s.work.phase with
  | idle =>
    cases hr : s.request.req with
    | false => simp [fetch, hp, hr]
    | true =>
      cases hg : s.aux.grain with
      | call => simp [fetch, hp, hr, hg]
      | cursor => simp [fetch, hp, hr, hg, startCall_drive]
  | matching =>
    cases hr : s.request.req with
    | false => simp [fetch, hp, hr, fetchMatch_drive]
    | true => simp [fetch, hp, hr]
  | resolving =>
    cases hr : s.request.req with
    | false => simp [fetch, hp, hr, fetchField_drive]
    | true => simp [fetch, hp, hr]

/-- No step reads what is driven, and none writes it. -/
theorem step_drive (s : State) (x : Inputs) : step (s.drive x) = driveOutcome x (step s) := by
  unfold step
  rw [fetch_drive]
  cases fetch s with
  | run i u => exact exec_drive i u x
  | move o => rfl

/-! ### The host's functions -/

theorem hostConfigure_between {s : State} (cfg : Configuration) (h : s.betweenCalls) :
    hostConfigure cfg s = .next { s with inputs := { s.inputs with cfg := cfg } } :=
  if_pos h

theorem hostConfigure_during {s : State} (cfg : Configuration) (h : ¬s.betweenCalls) :
    hostConfigure cfg s = .refused .inputDuringCall :=
  if_neg h

theorem hostRequest_between {s : State} (h : s.betweenCalls) :
    hostRequest s = .next { s with
      cfg := s.inputs.cfg
      request := { req := true, buf := s.inputs.buf, avail := s.inputs.avail, addr := s.inputs.addr }
      response := { s.response with rsp := false } } :=
  if_pos h

theorem hostRequest_during {s : State} (h : ¬s.betweenCalls) : hostRequest s = .refused .requestDuringCall :=
  if_neg h

/-- A request that is taken up has sampled the bytes that are driven. -/
theorem hostRequest_byte {s t : State} (h : hostRequest s = .next t) (i : Nat) :
    t.request.byte i = if i < s.inputs.avail then some (s.inputs.buf.read i) else none := by
  by_cases hb : s.betweenCalls
  · rw [hostRequest_between hb] at h
    obtain rfl := Host.Outcome.next.inj h
    rfl
  · rw [hostRequest_during hb] at h
    exact nomatch h

/-- The bytes written from position 0 on stand at their positions. -/
theorem read_writeBytes_zero {bytes : List Byte} {k : Nat} (h : k < bytes.length) :
    bytes[k]? = some ((Memory.writeBytes [] 0 bytes).read k) := by
  rw [Memory.read_writeBytes 0 k bytes rfl]
  simp [h]

end Sys2Proof.Machine

open Sys2Proof Sys2Proof.Machine

/-- Settles O60: the host's write is accepted between calls only, and `exec` and `step` commute with driving the ports. -/
theorem configurationIsSampled : Obligations.ConfigurationIsSampled := by
  unfold Obligations.ConfigurationIsSampled
  refine ⟨fun cfg s h => ⟨_, hostConfigure_between cfg h, rfl, rfl, rfl, rfl, rfl, rfl, rfl, rfl, rfl, rfl⟩,
    fun cfg s h => hostConfigure_during cfg h, fun i s x => (exec_drive i s x).trans ?_,
    fun s x => (step_drive s x).trans ?_⟩
  · cases exec i s <;> rfl
  · cases step s <;> rfl

/-- Settles O59: the bytes are written from position 0 on, and a request copies what is driven. -/
theorem hostRequestPresentsBytes : Obligations.HostRequestPresentsBytes := by
  unfold Obligations.HostRequestPresentsBytes
  refine ⟨fun bytes addr s => ⟨_, rfl, rfl, rfl, rfl, fun k => read_writeBytes_zero, Memory.writeBytes_wf 0 bytes rfl,
      fun c hc => ?_⟩,
    fun s h => ⟨_, hostRequest_between h, rfl, rfl, rfl, rfl, rfl, rfl, rfl, rfl, rfl, rfl⟩,
    fun bytes addr s t h i => ?_, fun s h => hostRequest_during h⟩
  · obtain ⟨-, hlt⟩ | hnil := Memory.mem_writeBytes hc
    · omega
    · exact nomatch hnil
  · rw [hostRequest_byte h]
    by_cases hi : i < bytes.length
    · exact (if_pos hi).trans (read_writeBytes_zero hi).symm
    · exact (if_neg hi).trans (List.getElem?_eq_none (Nat.not_lt.mp hi)).symm

end

section
/-! PROOF. The operand list as memory (20_memory.md R47, R48, R56): what `OPS_APPEND` and `OPS_INSERT` run by themselves
leave, and what they do to a full list or at a position that the list does not have. -/

namespace Sys2Proof.Machine

/-- An operation that ends in a contract violation meets it, whichever way `CHECK` is set (60_exceptions.md R205). -/
theorem violates_of_exec {α : Type} {i : Instr} {s s' : State} {x : Res α} {k : α → State} {c : Cause} {r : Refusal}
    (hexec : exec i s = finish x s' k) (hx : x = violation s.cfg.check c r) : Violates i s s' c r :=
  ⟨fun hc => by rw [hexec, hx, hc]; rfl, fun hc => by rw [hexec, hx, hc]; rfl⟩

theorem exec_opsAppend (o : Operand) (s : State) :
    exec (.opsAppend o) s = finish (opsAppend s.roms.params s.cfg.check o s.work.record) s s.withRecord := rfl

theorem exec_opsInsert (p : Nat) (o : Operand) (s : State) :
    exec (.opsInsert p o) s = finish (opsInsert s.roms.params s.cfg.check p o s.work.record) s s.withRecord := rfl

/-- The model's insertion is the library's. -/
theorem take_append_cons_drop_eq_insertIdx {α : Type} (a : α) {l : List α} {p : Nat} (h : p ≤ l.length) :
    l.take p ++ a :: l.drop p = l.insertIdx p a := by
  induction p generalizing l with
  | zero => rfl
  | succ p ih =>
    cases l with
    | nil => exact absurd h (Nat.not_succ_le_zero p)
    | cons b l => exact congrArg (b :: ·) (ih (Nat.le_of_succ_le_succ h))

theorem opsInsert_eq_insertIdx {q : Params} {m : CheckMode} {p : Nat} (o : Operand) {rec : Record}
    (h : rec.n < q.maxOps) (hp : p ≤ rec.n) : opsInsert q m p o rec = .ok { rec with ops := rec.ops.insertIdx p o } := by
  rw [opsInsert_ok o h hp, take_append_cons_drop_eq_insertIdx o hp]

/-- Capacity is checked before the position, and no operand stands beyond the end of the list. -/
theorem opsInsert_beyond {q : Params} {m : CheckMode} {p : Nat} (o : Operand) {rec : Record} (h : rec.n < q.maxOps)
    (hp : rec.n < p) : opsInsert q m p o rec = violation m .position .tiedPosition := by
  simp [opsInsert, Nat.not_le.mpr h, hp]

theorem opsInsert_at_end (q : Params) (m : CheckMode) (o : Operand) (rec : Record) :
    opsInsert q m rec.n o rec = opsAppend q m o rec := by
  by_cases h : rec.n < q.maxOps
  · rw [opsInsert_eq_insertIdx o h le_rfl, opsAppend_ok o h, Record.n, List.insertIdx_length_self]
  · rw [opsInsert_full o (Nat.not_lt.mp h), opsAppend_full o (Nat.not_lt.mp h)]

/-- Where the position is one of the list or its end, every index of the new list is fixed. -/
theorem getElem?_insertIdx_of_le {α : Type} (a : α) {l : List α} {p : Nat} (h : p ≤ l.length) (j : Nat) :
    (l.insertIdx p a)[j]? = if j < p then l[j]? else if j = p then some a else l[j - 1]? := by
  rw [List.getElem?_insertIdx]
  split
  · rfl
  · split
    · rename_i hj
      exact if_pos (hj.trans_le h)
    · rfl

end Sys2Proof.Machine

open Sys2Proof Sys2Proof.Machine

/-- Settles O10: the operation ends as the shared append does, which answers exactly when the list has room. -/
theorem opsAppendAddsAtEnd : Obligations.OpsAppendAddsAtEnd := by
  unfold Obligations.OpsAppendAddsAtEnd
  refine fun o s => ⟨fun hroom => ?_, fun hfull =>
    violates_of_exec (exec_opsAppend o s) (opsAppend_full o (Nat.not_lt.mp hfull))⟩
  rw [exec_opsAppend, opsAppend_ok o hroom]
  rfl

/-- Settles O11: within the list the model's insertion is `List.insertIdx`, whose every index the library gives. -/
theorem opsInsertShiftsUp : Obligations.OpsInsertShiftsUp := by
  unfold Obligations.OpsInsertShiftsUp
  refine fun p o s => ⟨fun hroom hp => ⟨s.work.record.ops.insertIdx p o, ?_, List.length_insertIdx_of_le_length hp o,
      getElem?_insertIdx_of_le o hp⟩,
    fun hfull => violates_of_exec (exec_opsInsert p o s) (opsInsert_full o (Nat.not_lt.mp hfull)),
    fun hroom hp => violates_of_exec (exec_opsInsert p o s) (opsInsert_beyond o hroom hp), ?_⟩
  · rw [exec_opsInsert, opsInsert_eq_insertIdx o hroom hp]
    rfl
  · rw [exec_opsInsert, exec_opsAppend, opsInsert_at_end]

end

section
/-! PROOF. What of a request a response depends on (20_memory.md R42, R43, R45): the assembled word, which the first four
bytes and the byte order make, and neither the address nor the bytes after them. -/

namespace Sys2Proof.Machine

/-! ### What the attempts of a call read -/

/-- The part of the environment that matching and resolving read: all but the byte order and the active extension tables,
which only the call itself reads, and the address, which no resolver reads (42_simple_resolvers.md R135). -/
def Env.readPart (e : Env) : Env := { e with addr := 0#64, cfg := { e.cfg with bigEndian := false, ext := [] } }

@[simp] theorem lookupLeaf_readPart (e : Env) (word : Word) (t : Nat) :
    lookupLeaf e.readPart word t = lookupLeaf e word t := rfl

@[simp] theorem descriptorStep_readPart (e : Env) (word fd : Word) (rec : Record) :
    descriptorStep e.readPart word fd rec = descriptorStep e word fd rec := rfl

@[simp] theorem fieldsRecord_readPart (e : Env) (word : Word) (fds : List Word) (rec : Record) :
    fieldsRecord e.readPart word fds rec = fieldsRecord e word fds rec := by
  induction fds generalizing rec with
  | nil => rfl
  | cons fd rest ih => simp only [fieldsRecord_cons, descriptorStep_readPart, ih]

@[simp] theorem leafRecord_readPart (e : Env) (word : Word) : leafRecord e.readPart word = leafRecord e word := by
  funext l
  rw [leafRecord, fieldsRecord_readPart]
  rfl

/-- The tables answer the same in environments that agree in what attempts read. -/
theorem tablesAnswer_readPart (e : Env) (word : Word) (ts : List Nat) :
    tablesAnswer e.readPart word ts = tablesAnswer e word ts := by
  induction ts with
  | nil => rfl
  | cons t rest ih => simp only [tablesAnswer, lookupLeaf_readPart, leafRecord_readPart, ih]

/-! ### What a response depends on -/

theorem State.callAnswer_assembled {s : State} (h : 4 ≤ s.request.avail) :
    s.callAnswer = tablesAnswer s.env.readPart (assembled s.cfg s.request) (tableOrder s.cfg.ext) :=
  (if_neg (Nat.not_lt.mpr h)).trans (tablesAnswer_readPart ..).symm

/-- Two full requests get the same response where their words, their active tables and what attempts read are the same. -/
theorem decodeResponse_congr {s t : State} (hs : 4 ≤ s.request.avail) (ht : 4 ≤ t.request.avail)
    (hread : t.env.readPart = s.env.readPart) (hext : t.cfg.ext = s.cfg.ext)
    (hword : assembled t.cfg t.request = assembled s.cfg s.request) : decodeResponse t = decodeResponse s := by
  rw [decodeResponse_eq, decodeResponse_eq, State.callAnswer_assembled hs, State.callAnswer_assembled ht, hread, hext, hword]

/-- Reversed bytes under the flipped byte order make the same word (45_decode_entry.md R181). -/
theorem assembleWord_reversed (bigEndian : Bool) (b0 b1 b2 b3 : Byte) :
    assembleWord (!bigEndian) b3 b2 b1 b0 = assembleWord bigEndian b0 b1 b2 b3 := by
  cases bigEndian <;> simp [assembleWord]

theorem assembled_reversed {cfg : Configuration} {q q' : Request} (h : ∀ i < 4, q'.buf.read i = q.buf.read (3 - i)) :
    assembled { cfg with bigEndian := !cfg.bigEndian } q' = assembled cfg q := by
  rw [assembled, h 0 (by decide), h 1 (by decide), h 2 (by decide), h 3 (by decide)]
  exact assembleWord_reversed ..

end Sys2Proof.Machine

open Sys2Proof Sys2Proof.Machine

/-- Settles O29: the word is the same, and nothing after it reads the byte order. -/
theorem endiannessRoundTrip : Obligations.EndiannessRoundTrip := by
  unfold Obligations.EndiannessRoundTrip
  intro s t hs ht hroms hcfg hbytes
  refine decodeResponse_congr hs ht ?_ (by rw [hcfg]) (by rw [hcfg, assembled_reversed hbytes])
  rw [State.env, hroms, hcfg]
  rfl

/-- Settles O36: the word is made of the first four bytes, and no attempt reads the address. -/
theorem addressAndLaterBytesIgnored : Obligations.AddressAndLaterBytesIgnored := by
  unfold Obligations.AddressAndLaterBytesIgnored
  intro s t hcfg hroms hs ht hbytes
  refine decodeResponse_congr hs ht ?_ (by rw [hcfg]) (by rw [hcfg, assembled_congr hs ht hbytes])
  rw [State.env, hroms, hcfg]
  rfl

end

section
/-! PROOF. The packed words (30_encoding.md R61, R62, R72, R73; 44_matcher_dispatch.md R169): a word is the encoding of an
operation exactly where it has the operation's fixed bits and its fields are the operands, so that decoding and encoding undo
each other. -/

namespace Sys2Proof

/-! ### Packed words -/

theorem append_eq_append_iff {n m : Nat} {a c : BitVec n} {b d : BitVec m} : a ++ b = c ++ d ↔ a = c ∧ b = d := by
  refine ⟨fun h => ⟨?_, ?_⟩, fun ⟨hl, hr⟩ => hl ▸ hr ▸ rfl⟩
  · simpa only [BitVec.extractLsb'_append_eq_left] using congrArg (BitVec.extractLsb' m n) h
  · simpa only [BitVec.extractLsb'_append_eq_right] using congrArg (BitVec.extractLsb' 0 m) h

/-- The bits `x` are the packed word `e` exactly where they have its fixed bits, `value` under `mask`, and its fields. -/
def ReadsAs {n : Nat} (x e mask value : BitVec n) (fields : Prop) : Prop := x = e ↔ x &&& mask = value ∧ fields

theorem ReadsAs.iff {n : Nat} {x e mask value : BitVec n} {fields : Prop} (h : ReadsAs x e mask value fields) :
    x = e ↔ x &&& mask = value ∧ fields := h

/-- A format begins with an opcode, fixed, and a field below it. -/
theorem readsAs_opcode_field {k s n m : Nat} {x : BitVec k} (op : BitVec n) (a : BitVec m) :
    ReadsAs (x.extractLsb' s (n + m)) (op ++ a) (BitVec.allOnes n ++ 0#m) (op ++ 0#m) (x.extractLsb' s m = a) := by
  rw [ReadsAs, ← BitVec.extractLsb'_append_extractLsb'_eq_extractLsb' rfl, BitVec.and_append, append_eq_append_iff,
    append_eq_append_iff, BitVec.and_allOnes, BitVec.and_zero, and_iff_left rfl]

section
variable {k s n m : Nat} {x : BitVec k} {e mask value : BitVec n} {fields : Prop}

/-- A field more, below the others. -/
theorem ReadsAs.field (h : ReadsAs (x.extractLsb' (s + m) n) e mask value fields) (b : BitVec m) :
    ReadsAs (x.extractLsb' s (n + m)) (e ++ b) (mask ++ 0#m) (value ++ 0#m) (fields ∧ x.extractLsb' s m = b) := by
  rw [ReadsAs, ← BitVec.extractLsb'_append_extractLsb'_eq_extractLsb' rfl, BitVec.and_append, append_eq_append_iff,
    append_eq_append_iff, h.iff, BitVec.and_zero, and_iff_left rfl, and_assoc]

/-- Fixed bits more, below the others. -/
theorem ReadsAs.fixed (h : ReadsAs (x.extractLsb' (s + m) n) e mask value fields) (b : BitVec m) :
    ReadsAs (x.extractLsb' s (n + m)) (e ++ b) (mask ++ BitVec.allOnes m) (value ++ b) fields := by
  rw [ReadsAs, ← BitVec.extractLsb'_append_extractLsb'_eq_extractLsb' rfl, BitVec.and_append, append_eq_append_iff,
    append_eq_append_iff, h.iff, BitVec.and_allOnes, and_right_comm]

end

/-- The lowest field or fixed bits reach down to bit 0. -/
theorem ReadsAs.word {n : Nat} {x e mask value : BitVec n} {fields : Prop}
    (h : ReadsAs (x.extractLsb' 0 n) e mask value fields) : ReadsAs x e mask value fields := by
  rwa [BitVec.extractLsb'_eq_self] at h

/-! ### The words of the fixture leaves -/

section
variable {w : Word} {a b c : BitVec 5} {d : BitVec 16} {ds : BitVec 14}

theorem eq_wordAddi_iff : w = wordAddi a b d ↔ w &&& 0xFC000000#32 = 0x38000000#32 ∧
    (w.extractLsb' 21 5 = a ∧ w.extractLsb' 16 5 = b) ∧ w.extractLsb' 0 16 = d :=
  (((readsAs_opcode_field 14#6 a).field b).field d).word

theorem eq_wordLwz_iff : w = wordLwz a b d ↔ w &&& 0xFC000000#32 = 0x80000000#32 ∧
    (w.extractLsb' 21 5 = a ∧ w.extractLsb' 16 5 = b) ∧ w.extractLsb' 0 16 = d :=
  (((readsAs_opcode_field 32#6 a).field b).field d).word

theorem eq_wordLwzu_iff : w = wordLwzu a b d ↔ w &&& 0xFC000000#32 = 0x84000000#32 ∧
    (w.extractLsb' 21 5 = a ∧ w.extractLsb' 16 5 = b) ∧ w.extractLsb' 0 16 = d :=
  (((readsAs_opcode_field 33#6 a).field b).field d).word

theorem eq_wordStwu_iff : w = wordStwu a b d ↔ w &&& 0xFC000000#32 = 0x94000000#32 ∧
    (w.extractLsb' 21 5 = a ∧ w.extractLsb' 16 5 = b) ∧ w.extractLsb' 0 16 = d :=
  (((readsAs_opcode_field 37#6 a).field b).field d).word

theorem eq_wordOri_iff : w = wordOri a b d ↔ w &&& 0xFC000000#32 = 0x60000000#32 ∧
    (w.extractLsb' 21 5 = a ∧ w.extractLsb' 16 5 = b) ∧ w.extractLsb' 0 16 = d :=
  (((readsAs_opcode_field 24#6 a).field b).field d).word

theorem eq_wordLdu_iff : w = wordLdu a b ds ↔ w &&& 0xFC000003#32 = 0xE8000001#32 ∧
    (w.extractLsb' 21 5 = a ∧ w.extractLsb' 16 5 = b) ∧ w.extractLsb' 2 14 = ds :=
  ((((readsAs_opcode_field 58#6 a).field b).field ds).fixed 1#2).word

theorem eq_wordStdu_iff : w = wordStdu a b ds ↔ w &&& 0xFC000003#32 = 0xF8000001#32 ∧
    (w.extractLsb' 21 5 = a ∧ w.extractLsb' 16 5 = b) ∧ w.extractLsb' 2 14 = ds :=
  ((((readsAs_opcode_field 62#6 a).field b).field ds).fixed 1#2).word

theorem eq_wordMfocrf_iff {fxm : BitVec 8} {bit11 bit0 : BitVec 1} : w = wordMfocrf a fxm bit11 bit0 ↔
    w &&& 0xFC1007FE#32 = 0x7C100026#32 ∧ ((w.extractLsb' 21 5 = a ∧ w.extractLsb' 12 8 = fxm) ∧
      w.extractLsb' 11 1 = bit11) ∧ w.extractLsb' 0 1 = bit0 :=
  ((((((readsAs_opcode_field 31#6 a).fixed 1#1).field fxm).field bit11).fixed 19#10).field bit0).word

theorem eq_wordFadd_iff {bit0 : BitVec 1} : w = wordFadd a b c bit0 ↔ w &&& 0xFC0007FE#32 = 0xFC00002A#32 ∧
    ((w.extractLsb' 21 5 = a ∧ w.extractLsb' 16 5 = b) ∧ w.extractLsb' 11 5 = c) ∧ w.extractLsb' 0 1 = bit0 :=
  (((((readsAs_opcode_field 63#6 a).field b).field c).fixed 21#10).field bit0).word

theorem eq_wordVadd_iff : w = wordVadd a b c ↔ w &&& 0xFC0007FF#32 = 0x10000000#32 ∧
    (w.extractLsb' 21 5 = a ∧ w.extractLsb' 16 5 = b) ∧ w.extractLsb' 11 5 = c :=
  ((((readsAs_opcode_field 4#6 a).field b).field c).fixed 0#11).word

theorem eq_wordPfadd_iff : w = wordPfadd a b c ↔ w &&& 0xFC0007FF#32 = 0x10000000#32 ∧
    (w.extractLsb' 21 5 = a ∧ w.extractLsb' 16 5 = b) ∧ w.extractLsb' 11 5 = c := eq_wordVadd_iff

end

/-! ### The primary table as one list -/

/-- How the decoder reads a word by one leaf of `T_REF0`: where the word has `value` under `mask`, as `instr`. -/
structure LeafReading where
  mask : Word
  value : Word
  instr : Instr

/-- The readings of a word by the leaves of `T_REF0`, in the order that the decoder tries them in. -/
def primaryReadings (w : Word) : List LeafReading :=
  [⟨0xFC000000, 0x38000000, .fxAddi (w.extractLsb' 21 5) (w.extractLsb' 16 5) (w.extractLsb' 0 16)⟩,
   ⟨0xFC000000, 0x80000000, .fxLwz (w.extractLsb' 21 5) (w.extractLsb' 16 5) (w.extractLsb' 0 16)⟩,
   ⟨0xFC000000, 0x84000000, .fxLwzu (w.extractLsb' 21 5) (w.extractLsb' 16 5) (w.extractLsb' 0 16)⟩,
   ⟨0xFC000000, 0x94000000, .fxStwu (w.extractLsb' 21 5) (w.extractLsb' 16 5) (w.extractLsb' 0 16)⟩,
   ⟨0xFC000003, 0xE8000001, .fxLdu (w.extractLsb' 21 5) (w.extractLsb' 16 5) (w.extractLsb' 2 14)⟩,
   ⟨0xFC000003, 0xF8000001, .fxStdu (w.extractLsb' 21 5) (w.extractLsb' 16 5) (w.extractLsb' 2 14)⟩,
   ⟨0xFC1007FE, 0x7C100026,
    .fxMfocrf (w.extractLsb' 21 5) (w.extractLsb' 12 8) (w.extractLsb' 11 1) (w.extractLsb' 0 1)⟩,
   ⟨0xFC0007FE, 0xFC00002A,
    .fxFadd (w.extractLsb' 21 5) (w.extractLsb' 16 5) (w.extractLsb' 11 5) (w.extractLsb' 0 1)⟩,
   ⟨0xFC0007FF, 0x10000000, .fxVadd (w.extractLsb' 21 5) (w.extractLsb' 16 5) (w.extractLsb' 11 5)⟩,
   ⟨0xFC000000, 0x60000000, .fxOri (w.extractLsb' 21 5) (w.extractLsb' 16 5) (w.extractLsb' 0 16)⟩]

/-- The masks and values are those of the fixture. -/
theorem primaryReadings_rows (w : Word) :
    (primaryReadings w).map (fun r => (r.mask, r.value)) = Fixtures.tRef0.map (fun row => (row.mask, row.value)) := rfl

/-- The decoder's answer over a list of readings: that of the first one that the word fits. -/
def firstReading (w : Word) : List LeafReading → Option Instr
  | [] => none
  | r :: rest => if w &&& r.mask = r.value then some r.instr else firstReading w rest

theorem decodePrimary_eq (w : Word) : decodePrimary w = firstReading w (primaryReadings w) := rfl

theorem firstReading_some {w : Word} {i : Instr} {l : List LeafReading} (h : firstReading w l = some i) :
    ∃ r ∈ l, w &&& r.mask = r.value ∧ r.instr = i := by
  induction l with
  | nil => exact nomatch h
  | cons r rest ih =>
    rw [firstReading] at h
    split at h
    · exact ⟨r, .head _, ‹_›, Option.some.inj h⟩
    · obtain ⟨r', hr', hfit⟩ := ih h
      exact ⟨r', .tail _ hr', hfit⟩

/-- Two rows that differ in a bit that both fix. -/
def RowsDiffer (p q : Word × Word) : Prop := p.2 &&& q.1 ≠ q.2 &&& p.1

theorem RowsDiffer.not_both {w : Word} {p q : Word × Word} (h : RowsDiffer p q) (hp : w &&& p.1 = p.2) :
    w &&& q.1 ≠ q.2 := by
  rintro hq
  apply h
  rw [← hp, ← hq, BitVec.and_assoc, BitVec.and_assoc, BitVec.and_comm p.1]

theorem firstReading_of_mem {w : Word} {r : LeafReading} {l : List LeafReading}
    (hl : (l.map fun r => (r.mask, r.value)).Pairwise RowsDiffer) (hr : r ∈ l) (hfit : w &&& r.mask = r.value) :
    firstReading w l = some r.instr := by
  induction l with
  | nil => exact nomatch hr
  | cons r' rest ih =>
    obtain ⟨hhead, htail⟩ := List.pairwise_cons.mp hl
    rw [firstReading]
    obtain rfl | hr := List.mem_cons.mp hr
    · exact if_pos hfit
    · rw [if_neg fun hfit' => (hhead _ (List.mem_map_of_mem hr)).not_both hfit' hfit, ih htail hr]

theorem tRef0_rowsDiffer : (Fixtures.tRef0.map fun row => (row.mask, row.value)).Pairwise RowsDiffer := by
  unfold RowsDiffer
  decide

/-- No word fits two leaves, so the decoder's order does not matter. -/
theorem decodePrimary_eq_some_iff {w : Word} {i : Instr} :
    decodePrimary w = some i ↔ ∃ r ∈ primaryReadings w, w &&& r.mask = r.value ∧ r.instr = i := by
  rw [decodePrimary_eq]
  refine ⟨firstReading_some, ?_⟩
  rintro ⟨r, hr, hfit, rfl⟩
  exact firstReading_of_mem (primaryReadings_rows w ▸ tRef0_rowsDiffer) hr hfit

/-! ### What a word of each place decodes to -/

section
variable {w : Word} {i : Instr}

theorem decodeWord_descriptor_iff : decodeWord .descriptor w = .ok i ↔ decodeDescriptor w = some i := by
  rw [decodeWord]
  cases decodeDescriptor w <;> simp

theorem decodeWord_header_iff : decodeWord .header w = .ok i ↔ decodeHeader w.toNat = i := by
  rw [decodeWord, Except.ok.injEq]

theorem decodeWord_primary_iff : decodeWord .primary w = .ok i ↔ decodePrimary w = some i := by
  rw [decodeWord]
  cases decodePrimary w <;> simp

theorem decodeWord_extension_iff : decodeWord .extension w = .ok i ↔
    w &&& 0xFC0007FF#32 = 0x10000000#32 ∧
      .fxPfadd (w.extractLsb' 21 5) (w.extractLsb' 16 5) (w.extractLsb' 11 5) = i := by
  rw [decodeWord, decodeExtension]
  by_cases h : w &&& 0xFC0007FF#32 = 0x10000000#32 <;> simp [h]

theorem decodeWord_of_reading {r : LeafReading} (k : Nat) (hr : (primaryReadings w)[k]? = some r)
    (hfit : w &&& r.mask = r.value) : decodeWord .primary w = .ok r.instr :=
  decodeWord_primary_iff.mpr (decodePrimary_eq_some_iff.mpr ⟨r, List.mem_of_getElem? hr, hfit, rfl⟩)

end

/-! ### Decoding an encoded operation -/

theorem eq_of_encode_eq {p sp : Space} {e w : Word} (h : some (p, e) = some (sp, w)) : sp = p ∧ w = e := by
  cases h
  exact ⟨rfl, rfl⟩

/-- The hypothesis is what `encode` says of a descriptor's operation. -/
theorem decodeWord_of_encode_field {c : OperandClass} {hi lo : BitVec 5} {fid : BitVec 8} {sp : Space} {w : Word}
    {i : Instr} (h : some (Space.descriptor, fdWord c hi lo fid) = some (sp, w)) (hi : Instr.ofField c hi lo fid = i) :
    decodeWord sp w = .ok i := by
  obtain ⟨rfl, rfl⟩ := eq_of_encode_eq h
  exact decodeWord_descriptor_iff.mpr (hi ▸ decodeDescriptor_fdWord ..)

theorem decodeWord_of_encode_leaf {opcode : OpcId} {nfields : BitVec 4} {sp : Space} {w : Word}
    (h : encode (.leaf opcode nfields) = some (sp, w)) : decodeWord sp w = .ok (.leaf opcode nfields) := by
  rw [encode] at h
  split at h
  · obtain ⟨rfl, rfl⟩ := eq_of_encode_eq h
    rw [decodeWord_header_iff, headerWord_toNat ‹_›, decodeHeader_headerOf]
  · exact nomatch h

/-- For a fixture leaf, the place and the word are named first and the operands are then the word's fields. -/
theorem decodeWord_of_encode {i : Instr} {sp : Space} {w : Word} (h : encode i = some (sp, w)) :
    decodeWord sp w = .ok i := by
  cases i with
  | gpr | gprz | g64 | fps | fpd | vec | vsxl | vsxh | vsf | cr | crb | pf0 | pf1 | uimm | simm | memri | memrix
  | crbitm => exact decodeWord_of_encode_field h rfl
  | extract | sext | shl | ctz | resolve | policy | opsAppend | opsInsert | matchLeaf | dispatch | attempt | assemble
  | decode => exact nomatch h
  | leaf => exact decodeWord_of_encode_leaf h
  | fxAddi =>
    obtain ⟨rfl, hfit, ⟨rfl, rfl⟩, rfl⟩ := (eq_of_encode_eq h).imp_right eq_wordAddi_iff.mp
    exact decodeWord_of_reading 0 rfl hfit
  | fxLwz =>
    obtain ⟨rfl, hfit, ⟨rfl, rfl⟩, rfl⟩ := (eq_of_encode_eq h).imp_right eq_wordLwz_iff.mp
    exact decodeWord_of_reading 1 rfl hfit
  | fxLwzu =>
    obtain ⟨rfl, hfit, ⟨rfl, rfl⟩, rfl⟩ := (eq_of_encode_eq h).imp_right eq_wordLwzu_iff.mp
    exact decodeWord_of_reading 2 rfl hfit
  | fxStwu =>
    obtain ⟨rfl, hfit, ⟨rfl, rfl⟩, rfl⟩ := (eq_of_encode_eq h).imp_right eq_wordStwu_iff.mp
    exact decodeWord_of_reading 3 rfl hfit
  | fxLdu =>
    obtain ⟨rfl, hfit, ⟨rfl, rfl⟩, rfl⟩ := (eq_of_encode_eq h).imp_right eq_wordLdu_iff.mp
    exact decodeWord_of_reading 4 rfl hfit
  | fxStdu =>
    obtain ⟨rfl, hfit, ⟨rfl, rfl⟩, rfl⟩ := (eq_of_encode_eq h).imp_right eq_wordStdu_iff.mp
    exact decodeWord_of_reading 5 rfl hfit
  | fxMfocrf =>
    obtain ⟨rfl, hfit, ⟨⟨rfl, rfl⟩, rfl⟩, rfl⟩ := (eq_of_encode_eq h).imp_right eq_wordMfocrf_iff.mp
    exact decodeWord_of_reading 6 rfl hfit
  | fxFadd =>
    obtain ⟨rfl, hfit, ⟨⟨rfl, rfl⟩, rfl⟩, rfl⟩ := (eq_of_encode_eq h).imp_right eq_wordFadd_iff.mp
    exact decodeWord_of_reading 7 rfl hfit
  | fxVadd =>
    obtain ⟨rfl, hfit, ⟨rfl, rfl⟩, rfl⟩ := (eq_of_encode_eq h).imp_right eq_wordVadd_iff.mp
    exact decodeWord_of_reading 8 rfl hfit
  | fxOri =>
    obtain ⟨rfl, hfit, ⟨rfl, rfl⟩, rfl⟩ := (eq_of_encode_eq h).imp_right eq_wordOri_iff.mp
    exact decodeWord_of_reading 9 rfl hfit
  | fxPfadd =>
    obtain ⟨rfl, hfit, ⟨rfl, rfl⟩, rfl⟩ := (eq_of_encode_eq h).imp_right eq_wordPfadd_iff.mp
    exact decodeWord_extension_iff.mpr ⟨hfit, rfl⟩

/-- The bytes of a word, most significant first, make the word (45_decode_entry.md R181). -/
theorem assembleWord_bytes (w : Word) :
    assembleWord true (w.extractLsb' 24 8) (w.extractLsb' 16 8) (w.extractLsb' 8 8) (w.extractLsb' 0 8) = w := by
  apply BitVec.eq_of_toNat_eq
  have := w.isLt
  simp only [assembleWord_toNat, if_true, BitVec.extractLsb'_toNat, Nat.shiftRight_eq_div_pow]
  omega

theorem decodeBytes_of_decodeWord {bigEndian : Bool} {sp : Space} {b0 b1 b2 b3 : Byte} {i : Instr}
    (h : decodeWord sp (assembleWord bigEndian b0 b1 b2 b3) = .ok i) (rest : List Byte) :
    decodeBytes bigEndian sp (b0 :: b1 :: b2 :: b3 :: rest) = .ok (i, rest) := by
  rw [decodeBytes, h]

theorem decodeBytes_wordBytes {sp : Space} {w : Word} {i : Instr} (h : decodeWord sp w = .ok i) (bigEndian : Bool)
    (rest : List Byte) : decodeBytes bigEndian sp (wordBytes bigEndian w ++ rest) = .ok (i, rest) := by
  cases bigEndian with
  | true => exact decodeBytes_of_decodeWord (by rw [assembleWord_bytes, h]) rest
  | false =>
    exact decodeBytes_of_decodeWord (by rw [← Bool.not_true, assembleWord_reverse, assembleWord_bytes, h]) rest

/-! ### Encoding a decoded word -/

theorem encode_ofField (c : OperandClass) (hi lo : BitVec 5) (fid : BitVec 8) :
    encode (Instr.ofField c hi lo fid) = some (.descriptor, fdWord c hi lo fid) := by
  cases c with
  | reg b => cases b <;> rfl
  | uimm | simm | memri | memrix | crbitm => rfl

theorem code_of_ofCode : ∀ (code : BitVec 5) (c : OperandClass), c ∈ OperandClass.ofCode code → c.code = code := by
  decide

/-- Clearing the low bits of a word leaves the bits above them. -/
theorem and_clear_low {n m : Nat} (x : BitVec (n + m)) :
    x &&& (BitVec.allOnes n ++ 0#m) = x.extractLsb' m n ++ 0#m := by
  conv_lhs => rw [← BitVec.extractLsb'_append_extractLsb' (x := x)]
  rw [BitVec.and_append, BitVec.and_allOnes, BitVec.and_zero]

theorem fdWord_of_fields {c : OperandClass} {fd : Word} (h : c.code = fdClass fd) :
    fdWord c (fdHi fd) (fdLo fd) (fdId fd) = fd &&& 0xFFFFFE00#32 := by
  have hfields : fdClass fd ++ fdHi fd ++ fdLo fd ++ fdId fd = fd.extractLsb' 9 23 := by
    rw [fdClass, fdHi, fdLo, fdId, BitVec.extractLsb'_append_extractLsb'_eq_extractLsb' (show 27 = 22 + 5 from rfl),
      BitVec.extractLsb'_append_extractLsb'_eq_extractLsb' (show 22 = 17 + 5 from rfl),
      BitVec.extractLsb'_append_extractLsb'_eq_extractLsb' (show 17 = 9 + 8 from rfl)]
  rw [fdWord, h, hfields]
  exact (and_clear_low (n := 23) (m := 9) fd).symm

theorem headerWord_of_fields (w : Word) :
    headerWord (headerOpcode w.toNat) (headerNfields w.toNat) = w &&& 0xFFFFF000#32 := by
  have hfields : BitVec.ofNat 16 (headerOpcode w.toNat) ++ headerNfields w.toNat = w.extractLsb' 12 20 := by
    rw [headerOpcode, headerNfields, ← Nat.shiftRight_eq_div_pow, ← Nat.shiftRight_eq_div_pow]
    exact BitVec.extractLsb'_append_extractLsb'_eq_extractLsb' rfl
  rw [headerWord, hfields]
  exact (and_clear_low (n := 20) (m := 12) w).symm

theorem encode_decodeHeader (w : Word) : encode (decodeHeader w.toNat) = some (.header, w &&& 0xFFFFF000#32) := by
  have hopc : headerOpcode w.toNat < 2 ^ 16 := Nat.div_lt_of_lt_mul w.isLt
  rw [decodeHeader, encode, if_pos hopc, headerWord_of_fields]

/-- A leaf that a word fits reads an operation from it whose encoding is the word. -/
theorem encode_reading {w : Word} {r : LeafReading} (hr : r ∈ primaryReadings w) (hfit : w &&& r.mask = r.value) :
    encode r.instr = some (.primary, w) := by
  suffices h : ∃ e, encode r.instr = some (.primary, e) ∧ w = e by
    obtain ⟨e, he, rfl⟩ := h
    exact he
  simp only [primaryReadings, List.mem_cons, List.not_mem_nil, or_false] at hr
  rcases hr with rfl | rfl | rfl | rfl | rfl | rfl | rfl | rfl | rfl | rfl
  · exact ⟨_, rfl, eq_wordAddi_iff.mpr ⟨hfit, ⟨rfl, rfl⟩, rfl⟩⟩
  · exact ⟨_, rfl, eq_wordLwz_iff.mpr ⟨hfit, ⟨rfl, rfl⟩, rfl⟩⟩
  · exact ⟨_, rfl, eq_wordLwzu_iff.mpr ⟨hfit, ⟨rfl, rfl⟩, rfl⟩⟩
  · exact ⟨_, rfl, eq_wordStwu_iff.mpr ⟨hfit, ⟨rfl, rfl⟩, rfl⟩⟩
  · exact ⟨_, rfl, eq_wordLdu_iff.mpr ⟨hfit, ⟨rfl, rfl⟩, rfl⟩⟩
  · exact ⟨_, rfl, eq_wordStdu_iff.mpr ⟨hfit, ⟨rfl, rfl⟩, rfl⟩⟩
  · exact ⟨_, rfl, eq_wordMfocrf_iff.mpr ⟨hfit, ⟨⟨rfl, rfl⟩, rfl⟩, rfl⟩⟩
  · exact ⟨_, rfl, eq_wordFadd_iff.mpr ⟨hfit, ⟨⟨rfl, rfl⟩, rfl⟩, rfl⟩⟩
  · exact ⟨_, rfl, eq_wordVadd_iff.mpr ⟨hfit, ⟨rfl, rfl⟩, rfl⟩⟩
  · exact ⟨_, rfl, eq_wordOri_iff.mpr ⟨hfit, ⟨rfl, rfl⟩, rfl⟩⟩

theorem encode_of_decodeDescriptor {w : Word} {i : Instr} (h : decodeDescriptor w = some i) :
    encode i = some (.descriptor, w &&& 0xFFFFFE00#32) := by
  obtain ⟨c, hc, rfl⟩ := Option.map_eq_some_iff.mp h
  rw [encode_ofField, fdWord_of_fields (code_of_ofCode _ _ hc)]

end Sys2Proof

open Sys2Proof Sys2Proof.Machine

/-- Settles O54: every format's fields are read back, no word fits two leaves, and a word's bytes make the word. -/
theorem decodeEncodeRoundTrip : Obligations.DecodeEncodeRoundTrip := by
  unfold Obligations.DecodeEncodeRoundTrip
  intro i sp w h
  have hdec := decodeWord_of_encode h
  exact ⟨hdec, decodeBytes_wordBytes hdec⟩

/-- Settles O55: in each place the fields that the decoder reads and the bits it requires make up the word, but for the
reserved bits. -/
theorem encodeDecodedWord : Obligations.EncodeDecodedWord := by
  unfold Obligations.EncodeDecodedWord
  intro sp w i h
  cases sp with
  | descriptor => exact encode_of_decodeDescriptor (decodeWord_descriptor_iff.mp h)
  | header =>
    obtain rfl := decodeWord_header_iff.mp h
    exact encode_decodeHeader w
  | primary =>
    obtain ⟨r, hr, hfit, rfl⟩ := decodePrimary_eq_some_iff.mp (decodeWord_primary_iff.mp h)
    exact encode_reading hr hfit
  | extension =>
    obtain ⟨hfit, rfl⟩ := decodeWord_extension_iff.mp h
    exact congrArg (fun e => some (Space.extension, e)) (eq_wordPfadd_iff.mpr ⟨hfit, ⟨rfl, rfl⟩, rfl⟩).symm

end

section
/-! PROOF. The class codes and sample words (30_encoding.md R61 to R63, R72, R76; 95_test_vectors.md section 3). -/

namespace Sys2Proof

theorem fdClass_toNat (fd : Word) : (fdClass fd).toNat = fd.toNat / 2 ^ 27 := by
  have := fd.isLt
  rw [fdClass, BitVec.extractLsb'_toNat, Nat.shiftRight_eq_div_pow]
  omega

/-- The codes that are assigned (R63); every other code is reserved (R72). -/
theorem ofCode_isSome_iff : ∀ code : BitVec 5, (OperandClass.ofCode code).isSome ↔
    (1 ≤ code.toNat ∧ code.toNat ≤ 13) ∨ code.toNat = 16 ∨ code.toNat = 17 ∨
      (24 ≤ code.toNat ∧ code.toNat ≤ 26) := by
  decide

theorem decodes_descriptor_iff (fd : Word) :
    (∃ i, decodeWord .descriptor fd = .ok i) ↔ (OperandClass.ofCode (fdClass fd)).isSome := by
  simp only [decodeWord_descriptor_iff, ← Option.isSome_iff_exists, decodeDescriptor, Option.isSome_map]

end Sys2Proof

open Sys2Proof Sys2Proof.Machine

/-- Settles O56: a class is read back from its code, and a descriptor's class code is its top five bits. -/
theorem classCodes : Obligations.ClassCodes := by
  unfold Obligations.ClassCodes
  refine ⟨by decide, fun b => ofCode_code (.reg b), rfl, rfl, rfl, rfl, rfl, fun fd => ?_⟩
  rw [decodes_descriptor_iff, ofCode_isSome_iff, fdClass_toNat]

/-- Settles O57: seven words are encodings of the operations that they decode to; of the word 0 no leaf has its opcode. -/
theorem sampleWordsDecode : Obligations.SampleWordsDecode := by
  unfold Obligations.SampleWordsDecode
  exact ⟨decodeWord_of_encode rfl, decodeWord_of_encode rfl, decodeWord_of_encode rfl, decodeWord_of_encode rfl,
    decodeWord_of_encode rfl, decodeWord_of_encode rfl, rfl, decodeWord_of_encode rfl⟩

end

section
/-! PROOF. The leaf header as an operation (30_encoding.md R62; 44_matcher_dispatch.md R163). -/

namespace Sys2Proof.Machine

theorem exec_leaf_of_le {opcode : OpcId} {nfields : BitVec 4} {s : State}
    (h : nfields.toNat ≤ s.roms.params.maxFields) :
    exec (.leaf opcode nfields) s = .next { s with
      work := { s.work with
        leaf := { s.work.leaf with header := headerOf opcode nfields }
        record := freshRecord opcode
        fidx := 0
        phase := .resolving } } := by
  change execLeaf opcode nfields s = _
  rw [execLeaf, if_neg (Nat.not_lt.mpr h), finish_ok]

end Sys2Proof.Machine

open Sys2Proof Sys2Proof.Machine

/-- Settles O26: the header's operation answers the state with the fresh record, and its fields are read back from the
latched header. -/
theorem leafHeaderMakesRecordFresh : Obligations.LeafHeaderMakesRecordFresh := by
  unfold Obligations.LeafHeaderMakesRecordFresh
  intro opcode nfields s h
  exact ⟨_, exec_leaf_of_le h, rfl, rfl, rfl, headerOpcode_headerOf opcode nfields,
    congrArg BitVec.toNat (headerNfields_headerOf opcode nfields), rfl, rfl, rfl, rfl, rfl, rfl, rfl, rfl, rfl, rfl, rfl⟩

end

section
/-! PROOF. The output port (30_encoding.md R66, R67, R70; 45_decode_entry.md R187). -/

namespace Sys2Proof.Machine

/-! ### Slots -/

theorem Record.slots_length (p : Params) (r : Record) : (r.slots p).length = p.maxOps := by
  simp [Record.slots]

/-- Every slot below `MAXOPS` is its operand's, and `EMPTY` where there is none. -/
theorem Record.slots_getElem? {p : Params} {i : Nat} (r : Record) (h : i < p.maxOps) :
    (r.slots p)[i]? = some ((r.ops[i]?.map Operand.slot).getD Slot.empty) := by
  rw [Record.slots, List.getElem?_map, List.getElem?_range h]
  cases hop : r.ops[i]? <;> simp [hop]

theorem Operand.slot_reg_toNat {r : RegId} (h : r < 2 ^ 64) : (Operand.slot (.reg r)).2.toNat = r :=
  Nat.mod_eq_of_lt h

/-- The tag 3 is no operand's (R66). -/
theorem Operand.slot_tag_ne_three (o : Operand) : (Operand.slot o).1 ≠ 3#2 := by
  cases o with
  | reg => exact (by decide : 1#2 ≠ 3#2)
  | imm => exact (by decide : 2#2 ≠ 3#2)

/-! ### The other fields -/

/-- The port's count has room for `MAXOPS` (R67). -/
theorem lt_two_pow_countWidth {p : Params} {n : Nat} (h : n ≤ p.maxOps) : n < 2 ^ countWidth p :=
  h.trans_lt Nat.lt_log2_self

theorem Response.port_n_toNat {p : Params} {r : Response} (h : r.outRec.n ≤ p.maxOps) :
    (r.port p).n.toNat = r.outRec.n :=
  Nat.mod_eq_of_lt (lt_two_pow_countWidth h)

theorem Response.port_opcode_toNat {p : Params} {r : Response} (h : r.outRec.opcode < 2 ^ p.opcW) :
    (r.port p).opcode.toNat = r.outRec.opcode :=
  Nat.mod_eq_of_lt h

theorem Response.port_status_success {p : Params} {r : Response} (h : r.status = .success) :
    (r.port p).status = 1#1 :=
  congrArg Status.code h

theorem Response.port_status_fail {p : Params} {r : Response} (h : r.status = .fail) : (r.port p).status = 0#1 :=
  congrArg Status.code h

/-- What the port shows in slot `i`: the operand of that index, and `EMPTY` above the operands. -/
theorem Response.port_slot {p : Params} (r : Response) {i : Nat} (h : i < p.maxOps) :
    ∃ slot, (r.port p).slots[i]? = some slot ∧
      (∀ id, r.outRec.ops[i]? = some (.reg id) → id < 2 ^ 64 → slot.1 = 1#2 ∧ slot.2.toNat = id) ∧
      (∀ v, r.outRec.ops[i]? = some (.imm v) → slot = (2#2, v)) ∧
      (r.outRec.n ≤ i → slot = (0#2, 0#64)) ∧ slot.1 ≠ 3#2 := by
  refine ⟨_, r.outRec.slots_getElem? h, ?_, ?_, ?_, ?_⟩
  · intro id hop hid
    rw [hop]
    exact ⟨rfl, Operand.slot_reg_toNat hid⟩
  · intro v hop
    rw [hop]
    rfl
  · intro hn
    rw [List.getElem?_eq_none hn]
    rfl
  · cases r.outRec.ops[i]? with
    | some o => exact Operand.slot_tag_ne_three o
    | none => decide

/-- A well-formed response shows a success with the length consumed, or a failure with neither length nor operands. -/
theorem Response.wf.port {m : Roms} {r : Response} (h : r.wf m) :
    ((r.port m.params).status = 1#1 ∧ (r.port m.params).consumed = 4#3) ∨
      ((r.port m.params).status = 0#1 ∧ (r.port m.params).consumed = 0#3 ∧ (r.port m.params).n.toNat = 0) := by
  obtain ⟨hstatus, hconsumed, -⟩ | ⟨hstatus, hconsumed, hrec⟩ := h
  · exact .inl ⟨port_status_success hstatus, hconsumed⟩
  · have hn : r.outRec.n = 0 := congrArg Record.n hrec
    exact .inr ⟨port_status_fail hstatus, hconsumed, (port_n_toNat (by omega)).trans hn⟩

end Sys2Proof.Machine

open Sys2Proof Sys2Proof.Machine

/-- Settles O58: the port shows each field at a width that holds it, and slot by slot what the record holds. -/
theorem outputPortMasksUnusedSlots : Obligations.OutputPortMasksUnusedSlots := by
  unfold Obligations.OutputPortMasksUnusedSlots
  refine ⟨fun p r hn hopc => ?_, fun m r h => Response.wf.port h, by decide, by decide⟩
  exact ⟨r.outRec.slots_length p, Response.port_n_toNat hn, Response.port_opcode_toNat hopc, rfl, rfl,
    Response.port_status_success, Response.port_status_fail, rfl, fun _ hi => r.port_slot hi⟩

end

section
/-! PROOF. The bitfield extractor (40_bitfield_extractor.md R90 to R96): what the primitives answer on their domains, how
scaling and extending commute, and what an operation run by itself does outside its domain (log entry 14). -/

namespace Sys2Proof.Machine

/-! ### The values of the primitives -/

/-- The range 31:0 is the whole word (R90). -/
theorem extract_whole_toNat (word : Word) : (extract word 31 0).toNat = word.toNat := by
  rw [extract_toNat word le_rfl]
  exact Nat.mod_eq_of_lt word.isLt

@[simp] theorem shl_zero (value : U64) : shl value 0 = value := by
  simp [shl]

theorem sext_toNat (value : U64) {w : Nat} (h : w ≤ 64) :
    (sext value w).toNat =
      if value.getLsbD (w - 1) then value.toNat % 2 ^ w + (2 ^ 64 - 2 ^ w) else value.toNat % 2 ^ w := by
  have hlow : value.toNat % 2 ^ w < 2 ^ w := Nat.mod_lt _ (Nat.two_pow_pos w)
  have hpow : 2 ^ w ≤ 2 ^ 64 := Nat.pow_le_pow_right (by decide) h
  unfold sext
  split
  · exact Nat.mod_eq_of_lt (by omega)
  · exact Nat.mod_eq_of_lt (by omega)

/-- The sign bit is replicated upward: bit `k` of the result is bit `min k (w - 1)` of the value (R91). -/
theorem getLsbD_sext_min (value : U64) {w k : Nat} (h1 : 1 ≤ w) (h2 : w ≤ 64) (hk : k < 64) :
    (sext value w).getLsbD k = value.getLsbD (min k (w - 1)) := by
  rw [getLsbD_sext value h1 h2]
  by_cases hkw : k < w
  · rw [if_pos hkw, Nat.min_eq_left (by omega)]
  · rw [if_neg hkw, Nat.min_eq_right (by omega), decide_eq_true hk, Bool.true_and]

theorem sext_full (value : U64) : sext value 64 = value :=
  BitVec.eq_of_getLsbD_eq fun k hk => by
    rw [getLsbD_sext_min value (by decide) le_rfl hk, Nat.min_eq_left (by omega)]

/-! ### Signed readings -/

theorem signed_eq_toInt (v : U64) : signed v = v.toInt := by
  rw [BitVec.toInt_eq_msb_cond, BitVec.msb_eq_getLsbD_last]
  rfl

/-- `SEXT` is the library's sign extension of the low `w` bits. -/
theorem sext_eq_signExtend (value : U64) {w : Nat} (h1 : 1 ≤ w) (h2 : w ≤ 64) :
    sext value w = (value.setWidth w).signExtend 64 := by
  apply BitVec.eq_of_getLsbD_eq
  intro k hk
  rw [getLsbD_sext value h1 h2, BitVec.getLsbD_signExtend, BitVec.msb_eq_getLsbD_last]
  by_cases hkw : k < w
  · simp [hk, hkw]
  · simp [hk, hkw, Nat.sub_lt h1]

/-- The result reads as the number that the low `w` bits read as. -/
theorem signed_sext_eq_toInt (value : U64) {w : Nat} (h1 : 1 ≤ w) (h2 : w ≤ 64) :
    signed (sext value w) = (value.setWidth w).toInt := by
  rw [signed_eq_toInt, sext_eq_signExtend value h1 h2, BitVec.toInt_signExtend_of_le h2]

theorem signed_sext (value : U64) {w : Nat} (h1 : 1 ≤ w) (h2 : w ≤ 64) :
    signed (sext value w) = if value.getLsbD (w - 1) then ((value.toNat % 2 ^ w : Nat) : Int) - 2 ^ w
      else ((value.toNat % 2 ^ w : Nat) : Int) := by
  rw [signed_sext_eq_toInt value h1 h2, BitVec.toInt_eq_msb_cond, BitVec.msb_eq_getLsbD_last, BitVec.getLsbD_setWidth,
    decide_eq_true (Nat.sub_lt h1 Nat.one_pos), Bool.true_and, BitVec.toNat_setWidth, Nat.cast_pow, Nat.cast_ofNat]

theorem signed_sext_bounds (value : U64) {w : Nat} (h1 : 1 ≤ w) (h2 : w ≤ 64) :
    -2 ^ (w - 1) ≤ signed (sext value w) ∧ signed (sext value w) < 2 ^ (w - 1) := by
  rw [signed_sext_eq_toInt value h1 h2]
  exact ⟨BitVec.le_toInt _, BitVec.toInt_lt⟩

/-! ### Scaling and extending (R96) -/

section
variable {w n : Nat} (hw : 1 ≤ w) (hwn : w + n ≤ 64)
include hw hwn

/-- The sign bit of the scaled value is that of the value. -/
theorem getLsbD_shl_sign (value : U64) : (shl value n).getLsbD (w + n - 1) = value.getLsbD (w - 1) := by
  rw [getLsbD_shl, decide_eq_true (show w + n - 1 < 64 by omega), decide_eq_true (show n ≤ w + n - 1 by omega),
    show w + n - 1 - n = w - 1 by omega]
  rfl

/-- Scaling by `2 ^ n` commutes with extending, the width growing by `n`, as long as the scaled width fits. -/
theorem sext_shl (value : U64) : sext (shl value n) (w + n) = shl (sext value w) n := by
  apply BitVec.eq_of_getLsbD_eq
  intro k hk
  rw [getLsbD_sext_min _ (by omega) hwn hk, getLsbD_shl _ n k, decide_eq_true hk]
  by_cases hkn : n ≤ k
  · rw [getLsbD_sext_min value hw (by omega) (by omega), getLsbD_shl,
      decide_eq_true (show min k (w + n - 1) < 64 by omega), decide_eq_true (show n ≤ min k (w + n - 1) by omega),
      decide_eq_true hkn, show min k (w + n - 1) - n = min (k - n) (w - 1) by omega]
  · rw [getLsbD_shl, decide_eq_false (show ¬n ≤ min k (w + n - 1) by omega), decide_eq_false hkn]
    simp

/-- No bit of the number is lost: scaled and then extended, it reads as `2 ^ n` times the number. -/
theorem signed_sext_shl (value : U64) : signed (sext (shl value n) (w + n)) = 2 ^ n * signed (sext value w) := by
  have hmod : (shl value n).toNat % 2 ^ (w + n) = value.toNat % 2 ^ w * 2 ^ n := by
    rw [shl, BitVec.toNat_ofNat, Nat.mod_mod_of_dvd _ (Nat.pow_dvd_pow 2 hwn), Nat.pow_add, Nat.mul_mod_mul_right]
  rw [signed_sext _ (by omega) hwn, signed_sext value hw (by omega), getLsbD_shl_sign hw hwn, hmod, pow_add]
  push_cast
  split <;> ring

end

/-! ### The operations run by themselves -/

theorem exec_extract (word : Word) (hi lo : Nat) (s : State) :
    exec (.extract word hi lo) s =
      finish (if lo ≤ hi ∧ hi ≤ 31 then .ok (extract word hi lo) else violation s.cfg.check .field .fieldRange) s
        fun v => s.withResult (.bits v) := rfl

theorem exec_sext (value : U64) (w : Nat) (s : State) :
    exec (.sext value w) s =
      finish (if 1 ≤ w ∧ w ≤ 64 then .ok (sext value w) else violation s.cfg.check .field .fieldRange) s
        fun v => s.withResult (.bits v) := rfl

theorem exec_shl (value : U64) (n : Nat) (s : State) :
    exec (.shl value n) s =
      finish (if n ≤ 63 then .ok (shl value n) else violation s.cfg.check .field .fieldRange) s
        fun v => s.withResult (.bits v) := rfl

theorem exec_ctz {value : U64} {i : Nat} (s : State) (h : ctz value = some i) :
    exec (.ctz value) s = .next (s.withResult (.bits (BitVec.ofNat 64 i))) := by
  change execCtz value s = _
  simp [execCtz, h]

theorem exec_ctz_zero (s : State) : exec (.ctz 0#64) s =
    finish (violation s.cfg.check .onehot .maskPosition) s fun i => s.withResult (.bits (BitVec.ofNat 64 i)) := by
  change execCtz 0#64 s = _
  simp [execCtz, ctz_eq_none.mpr]

/-- An operation that ends in a violation returns no value. -/
theorem finish_violation_result {α : Type} {m : CheckMode} {c : Cause} {r : Refusal} {s t : State} {k : α → State}
    (h : finish (violation m c r) s k = .next t) : t.aux.result = s.aux.result := by
  obtain ⟨a, ha, -⟩ | ⟨x, -, rfl⟩ := finish_next h
  · exact absurd ha (violation_ne_ok m c r a)
  · exact attemptFail_aux_result x s

/-! ### A table that does not exist -/

theorem exec_matchLeaf_beyond {t : Nat} {s : State} (h : s.roms.tables.length ≤ t) (word : Word)
    (features : FeatureSet) :
    exec (.matchLeaf t word features) s =
      finish (violation s.cfg.check .index .indexRange) s fun m => s.withResult (.leaf m) := by
  change execMatch t word features s = _
  simp [execMatch, List.getElem?_eq_none h]

theorem attemptTable_beyond {e : Env} {t : Nat} (h : e.roms.tables.length ≤ t) (word : Word) (raw : U64) :
    attemptTable e word raw t = violation e.cfg.check .index .indexRange := by
  rw [attemptTable, lookupLeaf, List.getElem?_eq_none h]
  cases e.cfg.check <;> rfl

theorem attemptFails_of_attemptTable {t : Nat} {s : State} {c : Cause}
    (h : attemptTable s.env s.work.word s.work.raw t = .fail c) : AttemptFails t s := by
  change ∃ u, execAttempt t s = .next u ∧ _
  rw [execAttempt, h]
  exact ⟨_, rfl, rfl⟩

theorem exec_attempt_refused {t : Nat} {s : State} {r : Refusal}
    (h : attemptTable s.env s.work.word s.work.raw t = .refuse r) : exec (.attempt t) s = .refused r := by
  change execAttempt t s = _
  rw [execAttempt, h]

end Sys2Proof.Machine

open Sys2Proof Sys2Proof.Machine

/-- Settles O1: on the domain the operation returns the shared primitive's value, whose bits are the word's from `lo`. -/
theorem extractYieldsFieldBits : Obligations.ExtractYieldsFieldBits := by
  unfold Obligations.ExtractYieldsFieldBits
  intro word hi lo s hle hhi
  refine ⟨extract word hi lo, ?_, extract_toNat word hhi, getLsbD_extract word hhi, ?_⟩
  · rw [exec_extract, if_pos ⟨hle, hhi⟩]
    rfl
  · rintro rfl rfl
    exact extract_whole_toNat word

/-- Settles O2: the result is the library's sign extension of the low `w` bits, which keeps their signed reading. -/
theorem sextReplicatesSignBit : Obligations.SextReplicatesSignBit := by
  unfold Obligations.SextReplicatesSignBit
  intro value w s h1 h2
  refine ⟨sext value w, ?_, sext_toNat value h2, fun k hk => getLsbD_sext_min value h1 h2 hk, signed_sext value h1 h2, ?_⟩
  · rw [exec_sext, if_pos ⟨h1, h2⟩]
    rfl
  · rintro rfl
    exact sext_full value

/-- Settles O4: a value other than 0 has a least position with a 1, and for 0 the operation ends in a violation. -/
theorem ctzCountsTrailingZeros : Obligations.CtzCountsTrailingZeros := by
  unfold Obligations.CtzCountsTrailingZeros
  refine ⟨fun value s hne => ?_, fun s t h => finish_violation_result ((exec_ctz_zero s).symm.trans h)⟩
  obtain ⟨i, hctz⟩ := Option.ne_none_iff_exists'.mp (mt ctz_eq_none.mp hne)
  obtain ⟨hbit, hbelow⟩ := ctz_eq_some.mp hctz
  exact ⟨i, BitVec.lt_of_getLsbD hbit, exec_ctz s hctz, hbit, hbelow⟩

/-- Settles O6: the widths 14 and 16 of the law that scaling by `2 ^ n` turns an extension from `w` bits into one from
`w + n`. -/
theorem scalingAndExtendingCommute : Obligations.ScalingAndExtendingCommute := by
  unfold Obligations.ScalingAndExtendingCommute
  intro d _
  have hscale : signed (sext (shl (BitVec.ofNat 64 d) 2) 16) = 4 * signed (sext (BitVec.ofNat 64 d) 14) :=
    signed_sext_shl (w := 14) (n := 2) (by decide) (by decide) _
  have hbounds := signed_sext_bounds (w := 14) (BitVec.ofNat 64 d) (by decide) (by decide)
  refine ⟨sext_shl (w := 14) (n := 2) (by decide) (by decide) _, hscale, ?_, ?_⟩
  · omega
  · omega

/-- Settles O3: the shift multiplies modulo `2 ^ 64`, so that zeros enter below bit `n`. -/
theorem shlDropsHighBits : Obligations.ShlDropsHighBits := by
  unfold Obligations.ShlDropsHighBits
  intro value n s hn
  refine ⟨shl value n, ?_, BitVec.toNat_ofNat .., fun k hk => ?_, ?_⟩
  · rw [exec_shl, if_pos hn]
    rfl
  · rw [getLsbD_shl, decide_eq_true hk, Bool.true_and]
  · rintro rfl
    exact shl_zero value

/-- Settles O5: outside its domain each operation ends in a violation, a short buffer in a failed call. -/
theorem operationsOutsideDomain : Obligations.OperationsOutsideDomain := by
  unfold Obligations.OperationsOutsideDomain
  intro word value hi lo w n t features s
  refine ⟨fun h => ?extract, fun h => ?sext, fun h => ?shl, violates_of_exec (exec_ctz_zero s) rfl, fun h => ?table,
    fun h => if_pos h⟩
  case extract => exact violates_of_exec (exec_extract word hi lo s) (if_neg (by omega))
  case sext => exact violates_of_exec (exec_sext value w s) (if_neg (by omega))
  case shl => exact violates_of_exec (exec_shl value n s) (if_neg (by omega))
  case table =>
    have hattempt := attemptTable_beyond (e := s.env) h s.work.word s.work.raw
    refine ⟨violates_of_exec (exec_matchLeaf_beyond h word features) rfl, fun hc => ?_, fun hc => ?_⟩
    · exact attemptFails_of_attemptTable (hattempt.trans (congrArg (violation · _ _) hc))
    · exact exec_attempt_refused (hattempt.trans (congrArg (violation · _ _) hc))

end

section
/-! PROOF. The register translator (41_register_translator.md R101 to R103): what `RESOLVE` run by itself answers, how a
field of a register class uses it, and what the contract of the bank tables says of `GPR` and `GPRZ`. -/

namespace Sys2Proof.Machine

/-! ### RESOLVE run by itself -/

/-- The bank number makes no difference to `RESOLVE` but by the table's entry for the index. -/
theorem resolve_congr {m : CheckMode} {rom : BankRom} {b b' i : Nat}
    (h : (numberedTable rom b)[i]? = (numberedTable rom b')[i]?) : resolve m rom b i = resolve m rom b' i := by
  rw [resolve, resolve, h]

theorem exec_resolve (b i : Nat) (s : State) :
    exec (.resolve b i) s =
      finish (resolve s.cfg.check s.roms.bank b i) s fun r => s.withResult (.register r) := rfl

theorem exec_resolve_of_getElem? {b i : Nat} {s : State} {r : RegId}
    (h : (numberedTable s.roms.bank b)[i]? = some r) :
    exec (.resolve b i) s = .next (s.withResult (.register r)) := by
  rw [exec_resolve, resolve_eq_ok.mpr h, finish_ok]

theorem violates_resolve_of_length_le {b i : Nat} {s : State} (h : (numberedTable s.roms.bank b).length ≤ i) :
    Violates (.resolve b i) s s .index .indexRange :=
  violates_of_exec (exec_resolve b i s) (resolve_out_of_range h)

/-- Inside the table of its bank number `RESOLVE` answers no identifier that the table does not hold. -/
theorem exec_resolve_ne_of_not_mem {b i : Nat} {s : State} {r : RegId} (hi : i < (numberedTable s.roms.bank b).length)
    (hr : r ∉ numberedTable s.roms.bank b) : exec (.resolve b i) s ≠ .next (s.withResult (.register r)) := by
  rw [exec_resolve_of_getElem? (List.getElem?_eq_getElem hi)]
  intro h
  have hresult := congrArg (·.aux.result) (Host.Outcome.next.inj h)
  exact hr (OpResult.register.inj hresult ▸ List.getElem_mem hi)

/-! ### A field of a register class -/

theorem fieldStep_of_le {e : Env} {word : Word} {c : OperandClass} {hi lo : BitVec 5} {rec : Record} (h : lo ≤ hi) :
    fieldStep e word c hi lo rec = (resolveClass e c hi lo (extract word hi.toNat lo.toNat) rec).map fun rec' =>
      (extract word hi.toNat lo.toNat, rec') :=
  if_neg (BitVec.not_lt.mpr h)

/-- `RES_REG` appends the entry that the bank's table has for the raw field. -/
theorem resReg_ok {e : Env} {b : Bank} {raw : U64} {rec : Record} {r : RegId}
    (hr : (bankTable e.roms.bank b)[raw.toNat]? = some r) (hroom : rec.n < e.roms.params.maxOps) :
    resReg e b raw rec = .ok { rec with ops := rec.ops ++ [.reg r] } := by
  rw [resReg, resolve_eq_ok.mpr hr, Res.bind_ok, opsAppend_ok _ hroom]

/-- The bank makes no difference to `RES_REG` but by the table's entry for the raw field. -/
theorem resReg_congr {e : Env} {b b' : Bank} {raw : U64}
    (h : (bankTable e.roms.bank b)[raw.toNat]? = (bankTable e.roms.bank b')[raw.toNat]?) :
    resReg e b raw = resReg e b' raw := by
  funext rec
  rw [resReg, resReg, resolve_congr h]

theorem execField_reg_done {b : Bank} {hi lo : BitVec 5} {s : State} {raw : U64} {r : RegId} (h : lo ≤ hi)
    (hraw : extract s.work.word hi.toNat lo.toNat = raw) (hr : (bankTable s.roms.bank b)[raw.toNat]? = some r)
    (hroom : s.hasRoom 1) :
    execField (.reg b) hi lo s = .next (s.fieldDone raw (s.work.record.ops ++ [.reg r])) := by
  rw [execField, fieldStep_of_le h, hraw, resolveClass, resReg_ok (e := s.env) hr hroom, Res.map_ok, finish_ok,
    State.afterField_eq_fieldDone s raw _ _ rfl]

theorem execField_reg_congr {b b' : Bank} {hi lo : BitVec 5} {s : State} (h : lo ≤ hi)
    (htable : (bankTable s.roms.bank b)[(extract s.work.word hi.toNat lo.toNat).toNat]? =
      (bankTable s.roms.bank b')[(extract s.work.word hi.toNat lo.toNat).toNat]?) :
    execField (.reg b) hi lo s = execField (.reg b') hi lo s := by
  rw [execField, execField, fieldStep_of_le h, fieldStep_of_le h, resolveClass, resolveClass,
    resReg_congr (e := s.env) htable]

/-! ### The contract of GPR and GPRZ (R101 d) -/

theorem BankContract.gprz_getElem?_eq {p : Params} {rom : BankRom} (h : BankContract p rom) {i : Nat} (hi : i ≠ 0) :
    (bankTable rom .gprz)[i]? = (bankTable rom .gpr)[i]? := by
  obtain ⟨-, htail, -⟩ := h
  obtain ⟨k, rfl⟩ := Nat.exists_eq_succ_of_ne_zero hi
  rw [← List.getElem?_tail, htail, List.getElem?_tail]

theorem BankContract.zero_constant_not_mem {p : Params} {rom : BankRom} (h : BankContract p rom) {z : RegId}
    (hz : (bankTable rom .gprz)[0]? = some z) : z ∉ bankTable rom .gpr := by
  obtain ⟨-, -, hzero, -⟩ := h
  have hmem : ((bankTable rom .gprz).take 1)[0]? = some z := (List.getElem?_take_of_lt Nat.one_pos).trans hz
  exact hzero z (List.mem_of_getElem? hmem)

end Sys2Proof.Machine

open Sys2Proof Sys2Proof.Machine

/-- Settles O9: from index 1 on the two tables are the same list, and the first entry of `GPRZ` is none of `GPR`'s. -/
theorem gprzAliasesGprExceptZero : Obligations.GprzAliasesGprExceptZero := by
  unfold Obligations.GprzAliasesGprExceptZero
  intro hi lo fid s hbank hle
  have hgprz : exec (.gprz hi lo fid) s = execField (.reg .gprz) hi lo s := exec_ofField (.reg .gprz) hi lo fid s
  have hgpr : exec (.gpr hi lo fid) s = execField (.reg .gpr) hi lo s := exec_ofField (.reg .gpr) hi lo fid s
  rw [hgprz, hgpr]
  refine ⟨fun hraw => ?nonzero, fun hraw hroom z g hz hg => ?zero⟩
  case nonzero =>
    exact execField_reg_congr hle (hbank.gprz_getElem?_eq (BitVec.toNat_ne_iff_ne.mpr hraw))
  case zero =>
    have hnotmem : z ∉ bankTable s.roms.bank .gpr := hbank.zero_constant_not_mem hz
    refine ⟨execField_reg_done hle hraw hz hroom, execField_reg_done hle hraw hg hroom, ?_, fun i hi => ?_⟩
    · rintro rfl
      exact hnotmem (List.mem_of_getElem? hg)
    · exact exec_resolve_ne_of_not_mem hi hnotmem

/-- Settles O7: a bank number stands for its table, and a number that names no bank for an empty one, which has an entry
for no index. -/
theorem resolveReadsBankRom : Obligations.ResolveReadsBankRom := by
  unfold Obligations.ResolveReadsBankRom
  refine fun b i s => ⟨fun r bank hb hbank hr => ?entry, fun bank hb hbank hi => ?beyond, fun hb => ?noBank⟩
  case entry => exact exec_resolve_of_getElem? (by rwa [numberedTable_eq hb hbank])
  case beyond => exact violates_resolve_of_length_le (by rwa [numberedTable_eq hb hbank])
  case noBank => exact violates_resolve_of_length_le (by simp [numberedTable_none hb])

end

section
/-! PROOF. The simple resolvers (42_simple_resolvers.md R120 to R134): a field of a class that appends one operand, from its
resolver's answer to the state that the operation ends in, and what the register and immediate classes append. -/

namespace Sys2Proof.Machine

@[simp] theorem Res.map_violation {α β : Type} (m : CheckMode) (c : Cause) (r : Refusal) (f : α → β) :
    (violation m c r : Res α).map f = violation m c r := by
  cases m <;> rfl

@[simp] theorem Res.bind_violation {α β : Type} (m : CheckMode) (c : Cause) (r : Refusal) (f : α → Res β) :
    (violation m c r : Res α).bind f = violation m c r := by
  cases m <;> rfl

/-! ### One field with `lo ≤ hi` -/

section
variable {c : OperandClass} {hi lo : BitVec 5} {s : State} {raw : U64} (hle : lo ≤ hi)
  (hraw : raw = extract s.work.word hi.toNat lo.toNat)
include hle hraw

/-- Where `lo ≤ hi` the operation ends as the resolver does on the raw field, which is then in `RAW`. -/
theorem exec_ofField_of_le (fid : BitVec 8) :
    exec (Instr.ofField c hi lo fid) s =
      finish ((resolveClass s.env c hi lo raw s.work.record).map (raw, ·)) (s.withRaw raw) s.afterField := by
  rw [exec_ofField, execField, fieldStep_of_le hle, s.afterExtract_eq_withRaw hle, ← hraw]

theorem violates_ofField {cause : Cause} {r : Refusal} (fid : BitVec 8)
    (hres : resolveClass s.env c hi lo raw s.work.record = violation s.cfg.check cause r) :
    Violates (Instr.ofField c hi lo fid) s (s.withRaw raw) cause r :=
  violates_of_exec (exec_ofField_of_le hle hraw fid) (by rw [hres, Res.map_violation])

section
variable {o : Operand}
  (hres : resolveClass s.env c hi lo raw s.work.record = opsAppend s.env.roms.params s.env.cfg.check o s.work.record)
include hres

theorem exec_ofField_append (fid : BitVec 8) (hroom : s.hasRoom 1) :
    exec (Instr.ofField c hi lo fid) s = .next (s.fieldDone raw (s.work.record.ops ++ [o])) := by
  rw [exec_ofField_of_le hle hraw, hres.trans (opsAppend_ok o hroom), Res.map_ok, finish_ok,
    s.afterField_eq_fieldDone raw _ _ rfl]

theorem violates_ofField_full (fid : BitVec 8) (hfull : ¬s.hasRoom 1) :
    Violates (Instr.ofField c hi lo fid) s (s.withRaw raw) .capacity .listFull :=
  violates_ofField hle hraw fid (hres.trans (opsAppend_full o (Nat.not_lt.mp hfull)))

end

end

/-! ### The register classes -/

/-- An index in the bank's table leaves nothing but the append of its entry. -/
theorem resolveClass_reg_of_getElem? {e : Env} {b : Bank} {hi lo : BitVec 5} {raw : U64} {rec : Record} {r : RegId}
    (hr : (bankTable e.roms.bank b)[raw.toNat]? = some r) :
    resolveClass e (.reg b) hi lo raw rec = opsAppend e.roms.params e.cfg.check (.reg r) rec := by
  rw [resolveClass, resReg, resolve_eq_ok.mpr hr, Res.bind_ok]

/-- The index is checked before the capacity (60_exceptions.md R206). -/
theorem resolveClass_reg_beyond {e : Env} {b : Bank} {hi lo : BitVec 5} {raw : U64} {rec : Record}
    (h : (bankTable e.roms.bank b).length ≤ raw.toNat) :
    resolveClass e (.reg b) hi lo raw rec = violation e.cfg.check .index .indexRange := by
  rw [resolveClass, resReg, resolve_out_of_range h, Res.bind_violation]

/-- `RES_REG` at the cursor, for every bank. -/
theorem exec_ofField_reg (b : Bank) {hi lo : BitVec 5} (fid : BitVec 8) {s : State} {raw : U64} (hle : lo ≤ hi)
    (hraw : raw = extract s.work.word hi.toNat lo.toNat) :
    (∀ r, (bankTable s.roms.bank b)[raw.toNat]? = some r → s.hasRoom 1 →
      exec (Instr.ofField (.reg b) hi lo fid) s = .next (s.fieldDone raw (s.work.record.ops ++ [.reg r]))) ∧
    ((bankTable s.roms.bank b).length ≤ raw.toNat →
      Violates (Instr.ofField (.reg b) hi lo fid) s (s.withRaw raw) .index .indexRange) ∧
    (raw.toNat < (bankTable s.roms.bank b).length → ¬s.hasRoom 1 →
      Violates (Instr.ofField (.reg b) hi lo fid) s (s.withRaw raw) .capacity .listFull) := by
  refine ⟨fun r hr => ?entry, fun hbeyond => ?beyond, fun hin => ?full⟩
  case entry => exact exec_ofField_append hle hraw (resolveClass_reg_of_getElem? (e := s.env) hr) fid
  case beyond => exact violates_ofField hle hraw fid (resolveClass_reg_beyond (e := s.env) hbeyond)
  case full =>
    have hr := List.getElem?_eq_getElem hin
    exact violates_ofField_full hle hraw (resolveClass_reg_of_getElem? (e := s.env) hr) fid

/-! ### The signed immediate -/

/-- Where `lo ≤ hi`, `SIMM` has a width to extend from, and only the append is left. -/
theorem resolveClass_simm_of_le {hi lo : BitVec 5} (h : lo ≤ hi) (e : Env) (raw : U64) (rec : Record) :
    resolveClass e .simm hi lo raw rec =
      opsAppend e.roms.params e.cfg.check (.imm (sext raw (hi.toNat - lo.toNat + 1))) rec :=
  if_neg (BitVec.not_lt.mpr h)

/-- A value of `w` bits reads, sign-extended, as a two's-complement number of that width. -/
theorem signed_sext_of_lt {value : U64} {w : Nat} (h1 : 1 ≤ w) (h2 : w ≤ 64) (h : value.toNat < 2 ^ w) :
    signed (sext value w) = if value.toNat < 2 ^ (w - 1) then (value.toNat : Int) else value.toNat - 2 ^ w := by
  have hhalf : 2 * value.toNat < 2 ^ w ↔ value.toNat < 2 ^ (w - 1) := by
    rw [← Nat.two_pow_pred_mul_two h1]
    omega
  rw [signed_sext_eq_toInt value h1 h2, BitVec.toInt_eq_toNat_cond, BitVec.toNat_setWidth, Nat.mod_eq_of_lt h]
  simp only [hhalf, Nat.cast_pow, Nat.cast_ofNat]

end Sys2Proof.Machine

open Sys2Proof Sys2Proof.Machine

/-- Settles O12: each operation is the field of its bank's class, and `RES_REG` is one rule for every bank. -/
theorem scalarAndFloatRegisterResolvers : Obligations.ScalarAndFloatRegisterResolvers := by
  unfold Obligations.ScalarAndFloatRegisterResolvers
  intro hi lo fid s hle p hp raw hraw
  change p ∈ [Bank.gpr, .gprz, .g64, .fps, .fpd, .vec].map fun b => (Instr.ofField (.reg b) hi lo fid, b) at hp
  obtain ⟨b, -, rfl⟩ := List.mem_map.mp hp
  exact exec_ofField_reg b fid hle hraw

/-- Settles O13, by the same rule. -/
theorem vectorScalarConditionPairedResolvers : Obligations.VectorScalarConditionPairedResolvers := by
  unfold Obligations.VectorScalarConditionPairedResolvers
  intro hi lo fid s hle p hp raw hraw
  change p ∈ [Bank.vsxl, .vsxh, .vsf, .cr, .crb, .pf0, .pf1].map fun b => (Instr.ofField (.reg b) hi lo fid, b) at hp
  obtain ⟨b, -, rfl⟩ := List.mem_map.mp hp
  exact exec_ofField_reg b fid hle hraw

/-- Settles O14: the resolver is the append of the raw field, which the extraction has zero-extended. -/
theorem uimmAppendsRawField : Obligations.UimmAppendsRawField := by
  unfold Obligations.UimmAppendsRawField
  intro hi lo fid s hle raw hraw
  have hlt : raw.toNat < 2 ^ (hi.toNat - lo.toNat + 1) := hraw ▸ extract_lt s.work.word (Nat.le_of_lt_succ hi.isLt)
  have hres : resolveClass s.env .uimm hi lo raw s.work.record =
      opsAppend s.env.roms.params s.env.cfg.check (.imm raw) s.work.record := rfl
  exact ⟨hlt, exec_ofField_append hle hraw hres fid, violates_ofField_full hle hraw hres fid⟩

/-- Settles O15: the resolver is the append of the raw field extended from its width `w`, and the raw field has no bit
beyond `w`. -/
theorem simmSignExtendsField : Obligations.SimmSignExtendsField := by
  unfold Obligations.SimmSignExtendsField
  rintro hi lo fid s hle raw w hraw rfl
  have hhi : hi.toNat ≤ 31 := Nat.le_of_lt_succ hi.isLt
  have hlt : raw.toNat < 2 ^ (hi.toNat - lo.toNat + 1) := hraw ▸ extract_lt s.work.word hhi
  have h1 : 1 ≤ hi.toNat - lo.toNat + 1 := Nat.le_add_left ..
  have h64 : hi.toNat - lo.toNat + 1 ≤ 64 := by omega
  have hres := resolveClass_simm_of_le hle s.env raw s.work.record
  obtain ⟨hlower, hupper⟩ := signed_sext_bounds raw h1 h64
  exact ⟨fun hroom => ⟨_, exec_ofField_append hle hraw hres fid hroom, signed_sext_of_lt h1 h64 hlt, hlower,
    Int.le_sub_one_of_lt hupper⟩, violates_ofField_full hle hraw hres fid⟩

end

section
/-! PROOF. The composite resolvers (43_composite_resolvers.md R140 to R152): the policy of an opcode id, the operands of a
packed memory field under each policy, and the condition group that a mask selects. -/

namespace Sys2Proof.Machine

/-! ### A field whose resolver raises -/

section
variable {c : OperandClass} {hi lo : BitVec 5} {s : State} {raw : U64} (hle : lo ≤ hi)
  (hraw : raw = extract s.work.word hi.toNat lo.toNat)
include hle hraw

theorem exec_ofField_fail {cause : Cause} (fid : BitVec 8)
    (hres : resolveClass s.env c hi lo raw s.work.record = .fail cause) :
    exec (Instr.ofField c hi lo fid) s = .next (attemptFail cause (s.withRaw raw)) := by
  rw [exec_ofField_of_le hle hraw, hres, Res.map_fail, finish_fail]

theorem exec_ofField_refuse {r : Refusal} (fid : BitVec 8)
    (hres : resolveClass s.env c hi lo raw s.work.record = .refuse r) :
    exec (Instr.ofField c hi lo fid) s = .refused r := by
  rw [exec_ofField_of_le hle hraw, hres, Res.map_refuse, finish_refuse]

end

/-! ### The policy of an opcode id (R140) -/

theorem exec_policy (opc : OpcId) (s : State) :
    exec (.policy opc) s =
      finish (policyOf s.cfg.check s.roms.policy opc) s fun p => s.withResult (.policy p) := rfl

theorem exec_policy_of_ok {opc : OpcId} {s : State} {p : Policy}
    (h : policyOf s.cfg.check s.roms.policy opc = .ok p) : exec (.policy opc) s = .next (s.withResult (.policy p)) := by
  rw [exec_policy, h, finish_ok]

theorem policyCode_of_not_listed {rom : List (OpcId × BitVec 2)} {opc : OpcId} (h : ∀ e ∈ rom, e.1 ≠ opc) :
    policyCode rom opc = 0#2 := by
  induction rom with
  | nil => rfl
  | cons e rest ih =>
    obtain ⟨hhead, hrest⟩ := List.forall_mem_cons.mp h
    exact (if_neg hhead).trans (ih hrest)

/-- The first entry of an opcode id is the one that counts. -/
theorem policyCode_of_first {before after : List (OpcId × BitVec 2)} {opc : OpcId} {code : BitVec 2}
    (h : ∀ e ∈ before, e.1 ≠ opc) : policyCode (before ++ (opc, code) :: after) opc = code := by
  induction before with
  | nil => exact if_pos rfl
  | cons e rest ih =>
    obtain ⟨hhead, hrest⟩ := List.forall_mem_cons.mp h
    exact (if_neg hhead).trans (ih hrest)

/-! ### The packed memory field (R141 to R147) -/

/-- The classes of packed memory fields, each with the width and the scale of its displacement (R141, R142). -/
def memoryClasses : List (OperandClass × Nat × Nat) := [(.memri, 16, 0), (.memrix, 14, 2)]

theorem resolveClass_memory {c : OperandClass} {dw sc : Nat} (hc : (c, dw, sc) ∈ memoryClasses) (e : Env)
    (hi lo : BitVec 5) (raw : U64) (rec : Record) : resolveClass e c hi lo raw rec = resMem dw sc e raw rec := by
  obtain hc | hc : (c, dw, sc) = (.memri, 16, 0) ∨ (c, dw, sc) = (.memrix, 14, 2) := by
    simpa [memoryClasses] using hc
  · cases hc
    rfl
  · cases hc
    rfl

/-- The scaled displacement has the 16 bits that are extended from. -/
theorem memoryClasses_width {c : OperandClass} {dw sc : Nat} (hc : (c, dw, sc) ∈ memoryClasses) :
    1 ≤ dw ∧ dw + sc = 16 := by
  have h : ∀ m ∈ memoryClasses, 1 ≤ m.2.1 ∧ m.2.1 + m.2.2 = 16 := by decide
  exact h _ hc

theorem memBase_eq_div (dw : Nat) (raw : U64) : memBase dw raw = raw.toNat / 2 ^ dw := Nat.shiftRight_eq_div_pow ..

/-- The displacement operand reads as the field's low `dw` bits, a two's-complement number, times `2 ^ sc`. -/
theorem signed_memDisp {dw sc : Nat} (hdw : 1 ≤ dw) (hsum : dw + sc = 16) (raw : U64) :
    signed (memDisp dw sc raw) = 2 ^ sc * (if raw.toNat % 2 ^ dw < 2 ^ (dw - 1) then ((raw.toNat % 2 ^ dw : Nat) : Int)
      else ((raw.toNat % 2 ^ dw : Nat) : Int) - 2 ^ dw) := by
  have hlow : raw.toNat % 2 ^ dw < 2 ^ dw := Nat.mod_lt _ (Nat.two_pow_pos dw)
  have hvalue : (BitVec.ofNat 64 (raw.toNat % 2 ^ dw)).toNat = raw.toNat % 2 ^ dw :=
    Nat.mod_eq_of_lt (hlow.trans_le (Nat.pow_le_pow_right (by decide) (by omega)))
  rw [memDisp, ← hsum, signed_sext_shl hdw (by omega), signed_sext_of_lt hdw (by omega) (hvalue.trans_lt hlow), hvalue]

theorem signed_injective {v w : U64} (h : signed v = signed w) : v = w :=
  BitVec.eq_of_toInt_eq (by rw [← signed_eq_toInt, ← signed_eq_toInt, h])

section
variable {e : Env} {r : RegId} {rec : Record}

theorem insertTied_tiedOut (hroom : rec.n < e.roms.params.maxOps) :
    insertTied e .tiedOut r rec = .ok { rec with ops := .reg r :: rec.ops } :=
  opsInsert_ok (.reg r) hroom (Nat.zero_le _)

/-- At its position the tied operand of a store is appended, the list being as long as the position says. -/
theorem insertTied_tiedStore (hpos : rec.n = e.roms.params.tiedStorePos) (hroom : rec.n < e.roms.params.maxOps) :
    insertTied e .tiedStore r rec = .ok { rec with ops := rec.ops ++ [.reg r] } := by
  rw [insertTied, if_neg (not_not_intro hpos), ← hpos, opsInsert_at_end, opsAppend_ok _ hroom]

theorem insertTied_tiedStore_elsewhere (hpos : rec.n ≠ e.roms.params.tiedStorePos) :
    insertTied e .tiedStore r rec = violation e.cfg.check .position .tiedPosition :=
  if_pos hpos

theorem opsAppend_twice {q : Params} {m : CheckMode} (a b : Operand) (hroom : rec.n + 2 ≤ q.maxOps) :
    (opsAppend q m a rec).bind (opsAppend q m b) = .ok { rec with ops := rec.ops ++ [a, b] } := by
  have hfirst : rec.n < q.maxOps := by omega
  have hsecond : ({ rec with ops := rec.ops ++ [a] } : Record).n < q.maxOps := by
    simp only [Record.n, List.length_append, List.length_singleton] at hroom ⊢
    omega
  rw [opsAppend_ok a hfirst, Res.bind_ok, opsAppend_ok b hsecond, List.append_assoc]
  rfl

section
variable {dw sc : Nat} {raw : U64} {pol : Policy} (hr : (bankTable e.roms.bank .gprz)[raw.toNat / 2 ^ dw]? = some r)
  (hpol : policyOf e.cfg.check e.roms.policy rec.opcode = .ok pol)
include hr hpol

/-- Past the checks of the base and the policy there remain the tied operand and the two appends. -/
theorem resMem_of_accepted (hbase : ¬(pol ≠ .none ∧ e.cfg.chkBase0 = true ∧ raw.toNat / 2 ^ dw = 0)) :
    resMem dw sc e raw rec = (insertTied e pol r rec).bind fun rec1 =>
      (opsAppend e.roms.params e.cfg.check (.imm (memDisp dw sc raw)) rec1).bind
        (opsAppend e.roms.params e.cfg.check (.reg r)) := by
  rw [← memBase_eq_div] at hr hbase
  rw [resMem, resolve_eq_ok.mpr hr, Res.bind_ok, hpol, Res.bind_ok, if_neg hbase]

/-- The check of R147 fails the attempt whatever `CHECK` is. -/
theorem resMem_base0 (hbase : pol ≠ .none ∧ e.cfg.chkBase0 = true ∧ raw.toNat / 2 ^ dw = 0) :
    resMem dw sc e raw rec = .fail .base0 := by
  rw [← memBase_eq_div] at hr hbase
  rw [resMem, resolve_eq_ok.mpr hr, Res.bind_ok, hpol, Res.bind_ok, if_pos hbase]

end

end

section
variable {c : OperandClass} {dw sc : Nat} (hc : (c, dw, sc) ∈ memoryClasses) {hi lo : BitVec 5} {s : State} {raw : U64}
  (hle : lo ≤ hi) (hraw : raw = extract s.work.word hi.toNat lo.toNat) {r : RegId}
  (hr : (bankTable s.roms.bank .gprz)[raw.toNat / 2 ^ dw]? = some r)
include hc hle hraw hr

/-- A memory field that is accepted and whose tied operand has left the operands `ops`, with room for two more. -/
theorem exec_memory_of_tied {pol : Policy} {ops : List Operand} (fid : BitVec 8)
    (hpol : policyOf s.cfg.check s.roms.policy s.work.record.opcode = .ok pol)
    (hbase : ¬(pol ≠ .none ∧ s.cfg.chkBase0 = true ∧ raw.toNat / 2 ^ dw = 0))
    (htied : insertTied s.env pol r s.work.record = .ok { s.work.record with ops := ops })
    (hroom : ops.length + 2 ≤ s.roms.params.maxOps) :
    exec (Instr.ofField c hi lo fid) s = .next (s.fieldDone raw (ops ++ [.imm (memDisp dw sc raw), .reg r])) := by
  have hres : resMem dw sc s.env raw s.work.record =
      .ok { s.work.record with ops := ops ++ [.imm (memDisp dw sc raw), .reg r] } := by
    rw [resMem_of_accepted (e := s.env) hr hpol hbase, htied, Res.bind_ok]
    exact opsAppend_twice _ _ hroom
  rw [exec_ofField_of_le hle hraw, resolveClass_memory hc, hres, Res.map_ok, finish_ok,
    s.afterField_eq_fieldDone raw _ _ rfl]

theorem exec_memory_none (fid : BitVec 8) (hcode : policyCode s.roms.policy s.work.record.opcode = 0#2)
    (hroom : s.hasRoom 2) :
    exec (Instr.ofField c hi lo fid) s =
      .next (s.fieldDone raw (s.work.record.ops ++ [.imm (memDisp dw sc raw), .reg r])) :=
  exec_memory_of_tied hc hle hraw hr fid (policyOf_none hcode) (fun h => h.1 rfl) rfl hroom

theorem exec_memory_base0 {pol : Policy} (fid : BitVec 8)
    (hpol : policyOf s.cfg.check s.roms.policy s.work.record.opcode = .ok pol)
    (hbase : pol ≠ .none ∧ s.cfg.chkBase0 = true ∧ raw.toNat / 2 ^ dw = 0) :
    exec (Instr.ofField c hi lo fid) s = .next (attemptFail .base0 (s.withRaw raw)) :=
  exec_ofField_fail hle hraw fid ((resolveClass_memory hc ..).trans (resMem_base0 (e := s.env) hr hpol hbase))

section
variable (hbase : ¬(s.cfg.chkBase0 = true ∧ raw.toNat / 2 ^ dw = 0))
include hbase

theorem exec_memory_tiedOut (fid : BitVec 8) (hcode : policyCode s.roms.policy s.work.record.opcode = 1#2)
    (hroom : s.hasRoom 3) :
    exec (Instr.ofField c hi lo fid) s =
      .next (s.fieldDone raw (.reg r :: s.work.record.ops ++ [.imm (memDisp dw sc raw), .reg r])) := by
  have htied := insertTied_tiedOut (e := s.env) (r := r) (Nat.lt_of_add_right_lt (Nat.lt_of_succ_le hroom))
  exact exec_memory_of_tied hc hle hraw hr fid (policyOf_tiedOut hcode) (fun h => hbase h.2) htied hroom

section
variable (hcode : policyCode s.roms.policy s.work.record.opcode = 2#2)
include hcode

theorem exec_memory_tiedStore (fid : BitVec 8) (hpos : s.work.record.n = s.roms.params.tiedStorePos)
    (hroom : s.hasRoom 3) :
    exec (Instr.ofField c hi lo fid) s =
      .next (s.fieldDone raw (s.work.record.ops ++ [.reg r, .imm (memDisp dw sc raw), .reg r])) := by
  have htied := insertTied_tiedStore (e := s.env) (r := r) hpos (Nat.lt_of_add_right_lt (Nat.lt_of_succ_le hroom))
  have hlength : (s.work.record.ops ++ [Operand.reg r]).length + 2 ≤ s.roms.params.maxOps := by
    rwa [List.length_append]
  rw [exec_memory_of_tied hc hle hraw hr fid (policyOf_tiedStore hcode) (fun h => hbase h.2) htied hlength,
    List.append_assoc]
  rfl

theorem violates_memory_tiedStore_elsewhere (fid : BitVec 8)
    (hpos : s.work.record.n ≠ s.roms.params.tiedStorePos) :
    Violates (Instr.ofField c hi lo fid) s (s.withRaw raw) .position .tiedPosition :=
  violates_ofField hle hraw fid (by
    rw [resolveClass_memory hc, resMem_of_accepted (e := s.env) hr (policyOf_tiedStore hcode) fun h => hbase h.2,
      insertTied_tiedStore_elsewhere hpos, Res.bind_violation]
    rfl)

end

end

end

/-! ### The condition group of a mask (R150, R151) -/

/-- The lowest set bit decides: under `FAIL_CLOSED` as the only one, under `TRUST` whatever stands above it. -/
theorem crGroup_of_lowest {m : CheckMode} {mask : U64} {p : Nat} (hp : p ≤ 7) (hbit : mask.getLsbD p = true)
    (hbelow : ∀ j < p, mask.getLsbD j = false) (hone : mask.toNat = 2 ^ p ∨ m = .trust) :
    crGroup m mask = .ok (7 - p) := by
  have hctz : ctz mask = some p := ctz_eq_some.mpr ⟨hbit, hbelow⟩
  have hne : mask ≠ 0#64 := fun h => by simp [ctz_eq_none.mpr h] at hctz
  have hchecked : ¬(m = .failClosed ∧ onehot8 mask = false) := by
    rintro ⟨rfl, hnot⟩
    have hpow : mask.toNat = 2 ^ p := hone.resolve_right (by decide)
    exact Bool.eq_false_iff.mp hnot (onehot8_iff.mpr ⟨p, Nat.lt_succ_of_le hp, hpow⟩)
  simp only [crGroup, if_neg hne, if_neg hchecked, hctz, if_pos hp]

theorem crGroup_failClosed_of_not_onehot {mask : U64} (h : ∀ p ≤ 7, mask.toNat ≠ 2 ^ p) :
    crGroup .failClosed mask = .fail .onehot := by
  have hnot : onehot8 mask = false := Bool.eq_false_iff.mpr fun hone => by
    obtain ⟨p, hp, hpow⟩ := onehot8_iff.mp hone
    exact h p (Nat.le_of_lt_succ hp) hpow
  rw [crGroup]
  by_cases hzero : mask = 0#64
  · exact if_pos hzero
  · rw [if_neg hzero, if_pos ⟨rfl, hnot⟩]

theorem crGroup_trust_of_no_position {mask : U64} (h : ∀ p ≤ 7, mask.getLsbD p = false) :
    crGroup .trust mask = .refuse .maskPosition := by
  rw [crGroup]
  by_cases hzero : mask = 0#64
  · exact if_pos hzero
  · obtain ⟨p, hctz⟩ := Option.ne_none_iff_exists'.mp (mt ctz_eq_none.mp hzero)
    obtain ⟨hbit, -⟩ := ctz_eq_some.mp hctz
    have hp : ¬p ≤ 7 := fun hp => Bool.false_ne_true ((h p hp).symm.trans hbit)
    rw [if_neg hzero, if_neg fun hchecked => absurd hchecked.1 (by decide)]
    simp only [hctz, if_neg hp, violation_trust]

section
variable {e : Env} {hi lo : BitVec 5} {raw : U64} {rec : Record} {g : Nat} (hg : crGroup e.cfg.check raw = .ok g)
include hg

/-- A group in the table of bank `CR` leaves nothing but the append of its register. -/
theorem resolveClass_crbitm_of_getElem? {r : RegId} (hr : (bankTable e.roms.bank .cr)[g]? = some r) :
    resolveClass e .crbitm hi lo raw rec = opsAppend e.roms.params e.cfg.check (.reg r) rec := by
  rw [resolveClass, resCrbitm, hg, Res.bind_ok, resolve_eq_ok.mpr hr, Res.bind_ok]

/-- The index is checked before the capacity (60_exceptions.md R206). -/
theorem resolveClass_crbitm_beyond (h : (bankTable e.roms.bank .cr).length ≤ g) :
    resolveClass e .crbitm hi lo raw rec = violation e.cfg.check .index .indexRange := by
  rw [resolveClass, resCrbitm, hg, Res.bind_ok, resolve_out_of_range h, Res.bind_violation]

end

end Sys2Proof.Machine

open Sys2Proof Sys2Proof.Machine

/-- Settles O16: the tied operand is put in by the policy, and the displacement operand is the one pattern that reads as
`d`. -/
theorem memoryOperandShapes : Obligations.MemoryOperandShapes := by
  unfold Obligations.MemoryOperandShapes
  intro hi lo fid s hle m hm raw r d hraw hr hd
  change m ∈ memoryClasses.map fun c => (Instr.ofField c.1 hi lo fid, c.2) at hm
  obtain ⟨⟨c, dw, sc⟩, hc, rfl⟩ := List.mem_map.mp hm
  obtain ⟨hdw, hsum⟩ := memoryClasses_width hc
  obtain rfl : d = memDisp dw sc raw := signed_injective (hd.trans (signed_memDisp hdw hsum raw).symm)
  exact ⟨exec_memory_none hc hle hraw hr fid,
    fun hcode hroom hbase => exec_memory_tiedOut hc hle hraw hr hbase fid hcode hroom,
    fun hcode hpos hroom hbase => exec_memory_tiedStore hc hle hraw hr hbase hcode fid hpos hroom⟩

/-- Settles O18: the position is checked once the base and the policy are accepted, before the list is touched. -/
theorem tiedStoreNeedsOnePrefixOperand : Obligations.TiedStoreNeedsOnePrefixOperand := by
  unfold Obligations.TiedStoreNeedsOnePrefixOperand
  intro hi lo fid s hle m hm raw hraw hin hcode hbase hpos
  change m ∈ memoryClasses.map fun c => (Instr.ofField c.1 hi lo fid, c.2.1) at hm
  obtain ⟨⟨c, dw, sc⟩, hc, rfl⟩ := List.mem_map.mp hm
  exact violates_memory_tiedStore_elsewhere hc hle hraw (List.getElem?_eq_getElem hin) hbase hcode fid hpos

/-- Settles O19: a raw field of displacement bits alone has base index 0, which the check rejects on an update opcode and
which is else an index as any other. -/
theorem baseIndexZeroCheck : Obligations.BaseIndexZeroCheck := by
  unfold Obligations.BaseIndexZeroCheck
  intro hi lo fid s hle m hm raw z hraw hlt hz
  change m ∈ memoryClasses.map fun c => (Instr.ofField c.1 hi lo fid, c.2.1) at hm
  obtain ⟨⟨c, dw, sc⟩, hc, rfl⟩ := List.mem_map.mp hm
  have hzero : raw.toNat / 2 ^ dw = 0 := Nat.div_eq_of_lt hlt
  rw [← hzero] at hz
  have hunchecked (hchk : s.cfg.chkBase0 = false) : ¬(s.cfg.chkBase0 = true ∧ raw.toNat / 2 ^ dw = 0) :=
    fun h => Bool.false_ne_true (hchk.symm.trans h.1)
  refine ⟨fun hcode hroom => ?none, fun hchk hcode => ?checked, fun hchk hcode hroom => ?tiedOut,
    fun hchk hcode hpos hroom => ?tiedStore⟩
  case none => exact ⟨_, exec_memory_none hc hle hraw hz fid hcode hroom⟩
  case checked =>
    obtain hcode | hcode := hcode
    · exact exec_memory_base0 hc hle hraw hz fid (policyOf_tiedOut hcode) ⟨by decide, hchk, hzero⟩
    · exact exec_memory_base0 hc hle hraw hz fid (policyOf_tiedStore hcode) ⟨by decide, hchk, hzero⟩
  case tiedOut => exact ⟨_, exec_memory_tiedOut hc hle hraw hz (hunchecked hchk) fid hcode hroom⟩
  case tiedStore => exact ⟨_, exec_memory_tiedStore hc hle hraw hz (hunchecked hchk) hcode fid hpos hroom⟩

/-- Settles O20: a mask ends in a group, in a failed attempt or in no meaning, and a group is an index of bank `CR`. -/
theorem crbitmSelectsGroup : Obligations.CrbitmSelectsGroup := by
  unfold Obligations.CrbitmSelectsGroup
  intro hi lo fid s hle raw hraw
  refine ⟨fun p hp hbit hbelow hone => ?group, fun hnot hcheck => ?notOnehot, fun hnone hcheck => ?noPosition⟩
  case group =>
    have hg : crGroup s.env.cfg.check raw = .ok (7 - p) := crGroup_of_lowest hp hbit hbelow hone
    refine ⟨fun r hr => ?entry, fun hbeyond => ?beyond, fun hin => ?full⟩
    case entry => exact exec_ofField_append hle hraw (resolveClass_crbitm_of_getElem? hg hr) fid
    case beyond => exact violates_ofField hle hraw fid (resolveClass_crbitm_beyond hg hbeyond)
    case full =>
      have hr := List.getElem?_eq_getElem hin
      exact violates_ofField_full hle hraw (resolveClass_crbitm_of_getElem? hg hr) fid
  case notOnehot =>
    have hg : crGroup s.env.cfg.check raw = .fail .onehot :=
      (congrArg (crGroup · raw) hcheck).trans (crGroup_failClosed_of_not_onehot hnot)
    exact exec_ofField_fail (c := .crbitm) hle hraw fid (by rw [resolveClass, resCrbitm, hg, Res.bind_fail])
  case noPosition =>
    have hg : crGroup s.env.cfg.check raw = .refuse .maskPosition :=
      (congrArg (crGroup · raw) hcheck).trans (crGroup_trust_of_no_position hnone)
    exact exec_ofField_refuse (c := .crbitm) hle hraw fid (by rw [resolveClass, resCrbitm, hg, Res.bind_refuse])

/-- Settles O8: the first entry of the number gives the code, no entry the code 0, and the code the policy. -/
theorem policyReadsPolicyRom : Obligations.PolicyReadsPolicyRom := by
  unfold Obligations.PolicyReadsPolicyRom
  refine fun opc s => ⟨fun hnone => exec_policy_of_ok (policyOf_none (policyCode_of_not_listed hnone)), ?_⟩
  intro before after code hrom hbefore
  have hcode : policyCode s.roms.policy opc = code := hrom ▸ policyCode_of_first hbefore
  refine ⟨?_, ?_, ?_, ?_⟩
  · rintro rfl
    exact exec_policy_of_ok (policyOf_none hcode)
  · rintro rfl
    exact exec_policy_of_ok (policyOf_tiedOut hcode)
  · rintro rfl
    exact exec_policy_of_ok (policyOf_tiedStore hcode)
  · rintro rfl
    exact violates_of_exec (exec_policy opc s) (policyOf_reserved hcode)

end

section
/-! PROOF. The decode tables (44_matcher_dispatch.md R160, R162, R169): when a list of rows answers and what, that such lists
stand for every table, and that no word fits two rows of the primary fixture table. -/

namespace Sys2Proof.Machine

/-! ### The answer of a list of rows -/

theorem rowApplies_iff {word : Word} {features : FeatureSet} {row : TableRow} :
    rowApplies word features row = true ↔
      word &&& row.mask = row.value ∧ ∀ f ∈ row.features, features.enabled f.1 = f.2 := by
  simp only [rowApplies, Bool.and_eq_true, beq_iff_eq, List.all_eq_true]

theorem matchRows_eq_none_iff {rows : List TableRow} {word : Word} {features : FeatureSet} :
    matchRows rows word features = none ↔ ∀ row ∈ rows, ¬rowApplies word features row = true := by
  rw [matchRows, Option.map_eq_none_iff, List.find?_eq_none]

theorem exists_row_of_matchRows {rows : List TableRow} {word : Word} {features : FeatureSet} {l : Leaf}
    (h : matchRows rows word features = some l) :
    ∃ row ∈ rows, row.leaf = l ∧ rowApplies word features row = true := by
  obtain ⟨row, hfind, hl⟩ := Option.map_eq_some_iff.mp h
  exact ⟨row, List.mem_of_find?_eq_some hfind, hl, List.find?_some hfind⟩

/-- Where all rows that apply have one leaf, their order makes no difference. -/
theorem matchRows_eq_some {rows : List TableRow} {word : Word} {features : FeatureSet} {row : TableRow}
    (hrow : row ∈ rows) (happlies : rowApplies word features row = true)
    (hsame : ∀ row' ∈ rows, rowApplies word features row' = true → row'.leaf = row.leaf) :
    matchRows rows word features = some row.leaf := by
  obtain ⟨l, hl⟩ := Option.ne_none_iff_exists'.mp fun hnone => matchRows_eq_none_iff.mp hnone row hrow happlies
  obtain ⟨row', hrow', rfl, happlies'⟩ := exists_row_of_matchRows hl
  rw [hl, hsame row' hrow' happlies']

theorem exec_matchLeaf {t : Nat} {s : State} {rows : List TableRow} (h : s.roms.tables[t]? = some rows) (word : Word)
    (features : FeatureSet) :
    exec (.matchLeaf t word features) s = .next (s.withResult (.leaf (matchRows rows word features))) := by
  change execMatch t word features s = _
  rw [execMatch, h, finish_ok]

/-! ### A list of rows for every table (log entry 6) -/

/-- The row for one word and one setting of the first `n` feature bits. -/
def exactRow {n : Nat} (word : Word) (bits : Fin n → Bool) (l : Leaf) : TableRow where
  mask := BitVec.allOnes 32
  value := word
  features := List.ofFn fun i => (i.val, bits i)
  leaf := l

/-- The first `n` bits of a feature set. -/
def featureBits (n : Nat) (features : FeatureSet) (i : Fin n) : Bool := features.enabled i

theorem ofFn_featureBits (n : Nat) (features : FeatureSet) :
    List.ofFn (featureBits n features) = (List.range n).map features.enabled := by
  rw [List.ofFn_eq_map, ← List.map_coe_finRange_eq_range, List.map_map]
  rfl

theorem rowApplies_exactRow_iff {n : Nat} {word word' : Word} {features : FeatureSet} {bits : Fin n → Bool} {l : Leaf} :
    rowApplies word features (exactRow word' bits l) = true ↔ word' = word ∧ bits = featureBits n features := by
  rw [rowApplies_iff, exactRow, BitVec.and_allOnes, List.forall_mem_ofFn_iff, funext_iff, eq_comm (a := word)]
  simp only [featureBits, eq_comm]

/-- The rows of a function: one for each word and each setting of `n` feature bits for which it has a leaf. -/
noncomputable def tableRows (n : Nat) (f : Word → List Bool → Option Leaf) : List TableRow :=
  (Finset.univ : Finset (Word × (Fin n → Bool))).toList.filterMap fun p =>
    (f p.1 (List.ofFn p.2)).map (exactRow p.1 p.2)

theorem mem_tableRows {n : Nat} {f : Word → List Bool → Option Leaf} {row : TableRow} :
    row ∈ tableRows n f ↔
      ∃ (word : Word) (bits : Fin n → Bool), ∃ l ∈ f word (List.ofFn bits), exactRow word bits l = row := by
  simp [tableRows]

theorem matchRows_tableRows (n : Nat) (f : Word → List Bool → Option Leaf) (word : Word) (features : FeatureSet) :
    matchRows (tableRows n f) word features = f word (List.ofFn (featureBits n features)) := by
  cases hf : f word (List.ofFn (featureBits n features)) with
  | none =>
    refine matchRows_eq_none_iff.mpr fun row hrow happlies => ?_
    obtain ⟨word', bits, l, hl, rfl⟩ := mem_tableRows.mp hrow
    obtain ⟨rfl, rfl⟩ := rowApplies_exactRow_iff.mp happlies
    exact Option.some_ne_none l (hl.symm.trans hf)
  | some l =>
    have hrow : exactRow word (featureBits n features) l ∈ tableRows n f := mem_tableRows.mpr ⟨_, _, l, hf, rfl⟩
    refine matchRows_eq_some hrow (rowApplies_exactRow_iff.mpr ⟨rfl, rfl⟩) fun row' hrow' happlies => ?_
    obtain ⟨word', bits, l', hl', rfl⟩ := mem_tableRows.mp hrow'
    obtain ⟨rfl, rfl⟩ := rowApplies_exactRow_iff.mp happlies
    exact Option.some.inj (hl'.symm.trans hf)

/-! ### The primary fixture table (R169) -/

theorem tRef0_not_both {word : Word} {i j : Nat} {a b : TableRow} (hij : i < j) (ha : Fixtures.tRef0[i]? = some a)
    (hb : Fixtures.tRef0[j]? = some b) (hfit : word &&& a.mask = a.value) : word &&& b.mask ≠ b.value := by
  obtain ⟨hi, rfl⟩ := List.getElem?_eq_some_iff.mp ha
  obtain ⟨hj, rfl⟩ := List.getElem?_eq_some_iff.mp hb
  have hdiffer := List.pairwise_iff_getElem.mp (List.pairwise_map.mp tRef0_rowsDiffer) i j hi hj hij
  exact hdiffer.not_both hfit

theorem tRef0_index_eq {word : Word} {i j : Nat} {a b : TableRow} (ha : Fixtures.tRef0[i]? = some a)
    (hb : Fixtures.tRef0[j]? = some b) (hfita : word &&& a.mask = a.value) (hfitb : word &&& b.mask = b.value) :
    i = j := by
  obtain hij | hij | hij := lt_trichotomy i j
  · exact absurd hfitb (tRef0_not_both hij ha hb hfita)
  · exact hij
  · exact absurd hfita (tRef0_not_both hij hb ha hfitb)

end Sys2Proof.Machine

open Sys2Proof Sys2Proof.Machine

/-- Settles O22: the answer is the leaf of the first row that applies, and the operation reads the table alone. -/
theorem matchAnswersFromTheTable : Obligations.MatchAnswersFromTheTable := by
  unfold Obligations.MatchAnswersFromTheTable
  intro t word features s rows hrows
  refine ⟨matchRows rows word features, fun s' hroms => ?_, ?_, fun l hl => ?_⟩
  · exact exec_matchLeaf (hroms ▸ hrows) word features
  · simp only [matchRows_eq_none_iff, rowApplies_iff]
  · obtain ⟨row, hrow, hleaf, happlies⟩ := exists_row_of_matchRows hl
    exact ⟨row, hrow, hleaf, rowApplies_iff.mp happlies⟩

/-- Settles O23: words and settings of `n` bits are finitely many, and each has a row that applies to it alone. -/
theorem rowsRepresentEveryTable : Obligations.RowsRepresentEveryTable := by
  unfold Obligations.RowsRepresentEveryTable
  refine fun n f => ⟨tableRows n f, fun word features => ?_⟩
  rw [matchRows_tableRows, ofFn_featureBits]

/-- Settles O27: any two rows of the table fix some bit at different values. -/
theorem fixtureLeavesAreDisjoint : Obligations.FixtureLeavesAreDisjoint := by
  unfold Obligations.FixtureLeavesAreDisjoint
  exact fun word i j a b => tRef0_index_eq

end

section
/-! PROOF. The dispatch engine and the attempt (44_matcher_dispatch.md R163 to R167): the checks of a descriptor, the resolver
that `DISPATCH` runs, what an attempt against one table ends in, and that a failed attempt leaves nothing to the next. -/

namespace Sys2Proof.Machine

/-! ### The checks of a descriptor (R165) -/

/-- A range that is none is found before anything is extracted, whatever the class. -/
theorem violates_ofField_of_lt (c : OperandClass) {hi lo : BitVec 5} (fid : BitVec 8) {s : State} (h : hi < lo) :
    Violates (Instr.ofField c hi lo fid) s s .field .fieldRange := by
  have hfield : execField c hi lo s = finish (fieldStep s.env s.work.word c hi lo s.work.record) s s.afterField := by
    rw [execField, State.afterExtract, if_pos h]
  exact violates_of_exec ((exec_ofField c hi lo fid s).trans hfield) (if_pos h)

theorem violates_leaf_of_lt {opcode : OpcId} {nfields : BitVec 4} {s : State}
    (h : s.roms.params.maxFields < nfields.toNat) : Violates (.leaf opcode nfields) s s .field .reservedCode :=
  violates_of_exec (show exec (.leaf opcode nfields) s = execLeaf opcode nfields s from rfl) (if_pos h)

theorem step_reservedClass {s : State} (hp : s.work.phase = .resolving) (hr : s.request.req = false)
    (hf : s.work.fidx < s.work.leaf.nfields) (hc : OperandClass.ofCode (fdClass (fetchDescriptor s)) = none) :
    step s = finish (violation s.cfg.check .field .reservedCode) s fun (_ : Unit) => s := by
  rw [step_resolving hp hr hf, hc]

/-! ### DISPATCH (R164) -/

theorem exec_dispatch {fd : Word} {c : OperandClass} (hc : OperandClass.ofCode (fdClass fd) = some c) (s : State) :
    exec (.dispatch fd) s =
      finish (resolveClass s.env c (fdHi fd) (fdLo fd) s.work.raw s.work.record) s s.withRecord := by
  change execDispatch fd s = _
  rw [execDispatch, hc]

theorem violates_dispatch_reserved {fd : Word} {s : State} (hc : OperandClass.ofCode (fdClass fd) = none) :
    Violates (.dispatch fd) s s .field .reservedCode := by
  refine violates_of_exec (show exec (.dispatch fd) s = execDispatch fd s from rfl) ?_
  rw [hc]

/-- Where the resolver is an append, `DISPATCH` leaves the operand at the end of the list and writes nothing else. -/
theorem exec_dispatch_append {fd : Word} {c : OperandClass} {s : State} {o : Operand}
    (hc : OperandClass.ofCode (fdClass fd) = some c)
    (hres : resolveClass s.env c (fdHi fd) (fdLo fd) s.work.raw s.work.record =
      opsAppend s.env.roms.params s.env.cfg.check o s.work.record)
    (hroom : s.hasRoom 1) :
    exec (.dispatch fd) s =
      .next (s.withRecord { s.work.record with ops := s.work.record.ops ++ [o] }) := by
  rw [exec_dispatch hc, hres.trans (opsAppend_ok o hroom), finish_ok]

theorem ofCode_of_toNat_eq {code : BitVec 5} {c : OperandClass} (h : code.toNat = c.code.toNat) :
    OperandClass.ofCode code = some c := by
  rw [BitVec.eq_of_toNat_eq h, ofCode_code]

theorem code_reg_toNat (b : Bank) : (OperandClass.code (.reg b)).toNat = b.number := by
  cases b <;> rfl

/-! ### ATTEMPT (R163) -/

section
variable {t : Nat} {s : State}

theorem exec_attempt_of_ok {a : AttemptEnd} (h : attemptTable s.env s.work.word s.work.raw t = .ok a) :
    exec (.attempt t) s = .next { s with
      work := { s.work with leaf := a.leaf, raw := a.raw, record := a.record, tidx := t, fidx := a.leaf.nfields }
      aux := { s.aux with result := .attempt (some a.record), attemptCause := none } } := by
  change execAttempt t s = _
  rw [execAttempt, h]

theorem exec_attempt_of_fail {c : Cause} (h : attemptTable s.env s.work.word s.work.raw t = .fail c) :
    exec (.attempt t) s = .next { s with
      work := { s.work with record := Record.empty, tidx := t, fidx := 0 }
      aux := { s.aux with result := .attempt none, attemptCause := some c } } := by
  change execAttempt t s = _
  rw [execAttempt, h]

/-- The only attempts that end in a failure are those that a table or a field fails. -/
theorem attemptTable_of_attemptFails (h : AttemptFails t s) :
    ∃ c, attemptTable s.env s.work.word s.work.raw t = .fail c := by
  obtain ⟨u, hu, hresult⟩ := h
  cases ha : attemptTable s.env s.work.word s.work.raw t with
  | ok a =>
    obtain rfl := Host.Outcome.next.inj ((exec_attempt_of_ok ha).symm.trans hu)
    exact nomatch hresult
  | fail c => exact ⟨c, rfl⟩
  | refuse r => exact nomatch (exec_attempt_refused ha).symm.trans hu

end

theorem lookupLeaf_noMatch {e : Env} {word : Word} {t : Nat} {rows : List TableRow} (ht : e.roms.tables[t]? = some rows)
    (hm : matchRows rows word e.cfg.features = none) : lookupLeaf e word t = .fail .noMatch := by
  rw [lookupLeaf, ht]
  simp only [hm]

theorem attemptTable_of_lookup {e : Env} {word : Word} {raw : U64} {t : Nat} {l : Leaf}
    (h : lookupLeaf e word t = .ok l) : attemptTable e word raw t = attemptLeaf e word raw l := by
  rw [attemptTable, h, Res.bind_ok]

theorem attemptLeaf_of_lt {e : Env} {l : Leaf} (h : e.roms.params.maxFields < l.nfields) (word : Word) (raw : U64) :
    attemptLeaf e word raw l = violation e.cfg.check .field .reservedCode :=
  if_pos h

theorem attemptLeaf_of_le {e : Env} {l : Leaf} (h : l.nfields ≤ e.roms.params.maxFields) (word : Word) (raw : U64) :
    attemptLeaf e word raw l =
      (runFields e word (leafFields l) raw (freshRecord l.opcode)).map fun p => ⟨l, p.1, p.2⟩ :=
  if_neg (Nat.not_lt.mpr h)

theorem runFields_of_nfields_eq_zero {e : Env} {l : Leaf} (h : l.nfields = 0) (word : Word) (raw : U64) (rec : Record) :
    runFields e word (leafFields l) raw rec = .ok (raw, rec) := by
  rw [leafFields, h]
  rfl

/-! ### Fallback (R167) -/

theorem tablesAnswer_append_of_failed {e : Env} {word : Word} {ts : List Nat} (rest : List Nat)
    (h : ∀ t ∈ ts, ∃ c, (lookupLeaf e word t).bind (leafRecord e word) = .fail c) :
    tablesAnswer e word (ts ++ rest) = tablesAnswer e word rest := by
  induction ts with
  | nil => rfl
  | cons t ts ih =>
    obtain ⟨⟨c, hc⟩, hts⟩ := List.forall_mem_cons.mp h
    rw [List.cons_append, tablesAnswer, hc, Res.answerOr_fail, ih hts]

/-- The extension tables that are active, in ascending number (45_decode_entry.md R182). -/
def activeExtensions (ext : List Bool) : List Nat :=
  ((List.range ext.length).filter fun k => ext.getD k false).map (· + 1)

theorem tableOrder_eq (ext : List Bool) : tableOrder ext = activeExtensions ext ++ [0] := rfl

theorem ne_zero_of_mem_activeExtensions {ext : List Bool} {t : Nat} (h : t ∈ activeExtensions ext) : t ≠ 0 := by
  obtain ⟨k, -, rfl⟩ := List.mem_map.mp h
  exact Nat.succ_ne_zero k

/-- With all extension modes off only the primary table is tried. -/
theorem tableOrder_off (ext : List Bool) : tableOrder (ext.map fun _ => false) = [0] := by
  simp [tableOrder]

/-- A failed attempt in the state in which a call's attempts run, as the answers of the tables see it. -/
theorem lookupLeaf_bind_of_attemptFails {s : State} {t : Nat} (h : AttemptFails t s.assembledCall) :
    ∃ c, (lookupLeaf s.env (assembled s.cfg s.request) t).bind (leafRecord s.env (assembled s.cfg s.request)) =
      .fail c := by
  obtain ⟨c, hc⟩ := attemptTable_of_attemptFails h
  exact ⟨c, (attemptTable_record ..).symm.trans (congrArg (Res.map AttemptEnd.record) hc)⟩

/-- The same request with all extension modes off. -/
def State.extensionsOff (s : State) : State := { s with cfg := { s.cfg with ext := s.cfg.ext.map fun _ => false } }

theorem callAnswer_extensionsOff {s : State}
    (h : ∀ t ∈ activeExtensions s.cfg.ext, AttemptFails t s.assembledCall) :
    s.extensionsOff.callAnswer = s.callAnswer := by
  by_cases hlen : s.request.avail < Config.ilen
  · exact (if_pos hlen).trans (if_pos hlen).symm
  · have hfull : 4 ≤ s.request.avail := Nat.not_lt.mp hlen
    calc s.extensionsOff.callAnswer
        = tablesAnswer s.env.readPart (assembled s.cfg s.request) (tableOrder s.extensionsOff.cfg.ext) :=
          State.callAnswer_assembled (s := s.extensionsOff) hfull
      _ = tablesAnswer s.env (assembled s.cfg s.request) [0] := by
          rw [tablesAnswer_readPart, State.extensionsOff, tableOrder_off]
      _ = tablesAnswer s.env (assembled s.cfg s.request) (tableOrder s.cfg.ext) :=
          (tablesAnswer_append_of_failed [0] fun t ht => lookupLeaf_bind_of_attemptFails (h t ht)).symm
      _ = s.callAnswer := (if_neg hlen).symm

end Sys2Proof.Machine

open Sys2Proof Sys2Proof.Machine

/-- Settles O21: each check comes before any other work of its operation. -/
theorem descriptorChecks : Obligations.DescriptorChecks := by
  unfold Obligations.DescriptorChecks
  refine ⟨fun c hi lo fid s => violates_ofField_of_lt c fid, fun opcode nfields s => violates_leaf_of_lt,
    fun s hp hr hf hc => ?_⟩
  rw [step_reservedClass hp hr hf hc]
  exact ⟨fun hcheck => by rw [hcheck]; rfl, fun hcheck => by rw [hcheck]; rfl⟩

/-- Settles O24: both operations end as the class's resolver does on the raw field. -/
theorem dispatchSelectsByClass : Obligations.DispatchSelectsByClass := by
  unfold Obligations.DispatchSelectsByClass
  refine ⟨fun fd c s hc hle hraw => ?sameEnd, fun fd b s r hclass hr hroom => ?register,
    fun fd s hclass hroom => ?immediate, fun fd s => violates_dispatch_reserved⟩
  case sameEnd =>
    rw [exec_ofField_of_le hle hraw, exec_dispatch hc]
    cases resolveClass s.env c (fdHi fd) (fdLo fd) s.work.raw s.work.record with
    | ok rec => exact ⟨_, rfl, rfl, rfl, rfl, rfl, rfl, rfl, rfl⟩
    | fail cause => exact ⟨_, rfl, rfl, rfl, rfl, by simp, by simp, by simp, by simp⟩
    | refuse r => rfl
  case register =>
    have hc : OperandClass.ofCode (fdClass fd) = some (.reg b) :=
      ofCode_of_toNat_eq (hclass.trans (code_reg_toNat b).symm)
    exact exec_dispatch_append hc (resolveClass_reg_of_getElem? (e := s.env) hr) hroom
  case immediate =>
    have hc : OperandClass.ofCode (fdClass fd) = some .uimm := ofCode_of_toNat_eq hclass
    exact exec_dispatch_append hc rfl hroom

/-- Settles O25: the attempt is the run of the answered leaf's fields, and the fields decide how it ends. -/
theorem attemptRunsTheLeaf : Obligations.AttemptRunsTheLeaf := by
  unfold Obligations.AttemptRunsTheLeaf
  intro t s rows hrows
  refine ⟨fun hnone => ?_, fun l hl => ?_⟩
  · have hlookup := lookupLeaf_noMatch (e := s.env) hrows hnone
    exact exec_attempt_of_fail (by rw [attemptTable, hlookup, Res.bind_fail])
  have hattempt : attemptTable s.env s.work.word s.work.raw t = attemptLeaf s.env s.work.word s.work.raw l :=
    attemptTable_of_lookup (lookupLeaf_eq_ok.mpr ⟨rows, hrows, hl⟩)
  refine ⟨fun hmany => ?tooMany, fun hle => ?_⟩
  case tooMany =>
    rw [attemptLeaf_of_lt (e := s.env) hmany] at hattempt
    exact ⟨fun hc => attemptFails_of_attemptTable (hattempt.trans (congrArg (violation · _ _) hc)),
      fun hc => exec_attempt_refused (hattempt.trans (congrArg (violation · _ _) hc))⟩
  rw [attemptLeaf_of_le (e := s.env) hle] at hattempt
  have hok {raw : U64} {rec : Record}
      (hrun : runFields s.env s.work.word (leafFields l) s.work.raw (freshRecord l.opcode) = .ok (raw, rec)) :
      attemptTable s.env s.work.word s.work.raw t = .ok ⟨l, raw, rec⟩ := by rw [hattempt, hrun, Res.map_ok]
  refine ⟨fun raw rec hrun => ?resolved, fun c hrun => ?failed, fun r hrun => ?refused, fun hzero => ?noFields⟩
  case resolved =>
    have hgrown := runFields_grown (Nat.zero_le _) hrun
    exact ⟨hgrown.opcode, hgrown.len, hgrown.bounded, exec_attempt_of_ok (hok hrun)⟩
  case failed =>
    refine ⟨_, exec_attempt_of_fail (c := c) ?_, rfl, rfl, rfl, rfl, rfl, ⟨rfl, rfl, rfl, rfl, rfl, rfl⟩, rfl⟩
    rw [hattempt, freshRecord, hrun, Res.map_fail]
  case refused => exact exec_attempt_refused (by rw [hattempt, freshRecord, hrun, Res.map_refuse])
  case noFields => exact ⟨_, exec_attempt_of_ok (hok (runFields_of_nfields_eq_zero hzero ..)), rfl⟩

/-- Settles O34: an attempt starts from a fresh record, so a failed one hands the next table nothing. -/
theorem fallbackLeavesNoResidue : Obligations.FallbackLeavesNoResidue := by
  unfold Obligations.FallbackLeavesNoResidue
  intro s h
  change decodeResponse s = decodeResponse s.extensionsOff
  rw [decodeResponse_eq, decodeResponse_eq, callAnswer_extensionsOff fun t ht =>
    h t (List.mem_append_left _ ht) (ne_zero_of_mem_activeExtensions ht)]

end

section
/-! PROOF. The calls on the words of the fixture leaves (44_matcher_dispatch.md R169; log entry 12): how the call ends by the
record that its leaf leaves, what the descriptors read from a word, and the record of each leaf. -/

namespace Sys2Proof.Machine

/-! ### The end of the call on a leaf's word -/

theorem execLeafWord_endsWith (t : Nat) (l : Leaf) (w : Word) (s : State) :
    EndsWith (accept s) (execLeafWord t l w s)
      ((leafRecord s.env w l).answerOr (tablesAnswer s.env w (tablesAfter t (tableOrder s.cfg.ext)))) := by
  rw [← attemptLeaf_record s.env w s.work.raw l]
  unfold execLeafWord
  refine EndsWith.of_sameFrame (t := (accept s).withWord w) ⟨rfl, rfl, rfl, rfl⟩ ?_
  cases attemptLeaf s.env w s.work.raw l with
  | ok a => exact endCall_endsWith _ (.done t a)
  | fail c =>
    rw [Res.map_fail, Res.answerOr_fail, ← callTables_answer s.env w s.work.raw _ (t, c)]
    exact endCall_endsWith ..
  | refuse r => exact endCall_endsWith _ (.refused r)

/-- The primary table is the last of `ORDER`. -/
theorem tablesAfter_zero (ext : List Bool) : tablesAfter 0 (tableOrder ext) = [] := by
  have hdrop : (activeExtensions ext).dropWhile (fun k => k != 0) = [] :=
    List.dropWhile_eq_nil_iff.mpr fun t ht => bne_iff_ne.mpr (ne_zero_of_mem_activeExtensions ht)
  rw [tablesAfter, tableOrder_eq, List.dropWhile_append, hdrop]
  rfl

/-- The call from `s` whose outcome is `o` is over, with the response `r` and the inputs as they were. -/
def CallEnds (s : State) (o : Host.Outcome State Fault Refusal) (r : Response) : Prop :=
  ∃ t, o = .next t ∧ SameInputs s t ∧ t.work.phase = .idle ∧ t.response = r

theorem EndsWith.callEnds {s : State} {o : Host.Outcome State Fault Refusal} {r : Response}
    (h : EndsWith (accept s) o (.ok r)) : CallEnds s o r := by
  obtain ⟨t, ht, hresp, hphase, hrequest, hinputs, hcfg, hroms⟩ := h
  have hsame : SameInputs (accept s) t := ⟨hinputs, hcfg, hroms, congrArg Request.buf hrequest,
    congrArg Request.avail hrequest, congrArg Request.addr hrequest⟩
  exact ⟨t, ht, hsame, hphase, hresp⟩

section
variable {l : Leaf} {w : Word} {s : State}

/-- A leaf that resolves ends the call with its record. -/
theorem execLeafWord_success {rec : Record} (t : Nat) (h : leafRecord s.env w l = .ok rec) :
    CallEnds s (execLeafWord t l w s) (successResponse rec) := by
  have hend := execLeafWord_endsWith t l w s
  rw [h] at hend
  exact hend.callEnds

/-- After the primary table there is none to try (45_decode_entry.md R182). -/
theorem execLeafWord_primary_fail {c : Cause} (h : leafRecord s.env w l = .fail c) :
    CallEnds s (execLeafWord 0 l w s) failResponse := by
  have hend := execLeafWord_endsWith 0 l w s
  rw [h, tablesAfter_zero] at hend
  exact hend.callEnds

theorem execLeafWord_refused {r : Refusal} (t : Nat) (h : leafRecord s.env w l = .refuse r) :
    execLeafWord t l w s = .refused r := by
  have hend := execLeafWord_endsWith t l w s
  rwa [h] at hend

end

/-! ### The fields of a leaf -/

/-- The raw field is the word's field, zero-extended (40_bitfield_extractor.md R90). -/
theorem extract_eq_setWidth (word : Word) (hi lo : Nat) :
    extract word hi lo = (word.extractLsb' lo (hi - lo + 1)).setWidth 64 := by
  apply BitVec.eq_of_toNat_eq
  rw [extract, BitVec.toNat_ofNat, BitVec.toNat_setWidth, BitVec.extractLsb'_toNat]

/-- The raw field of a descriptor is the field that a format gives the word at its place. -/
theorem extract_of_field (hi lo : Nat) {word : Word} {x : BitVec (hi - lo + 1)}
    (h : word.extractLsb' lo (hi - lo + 1) = x) : extract word hi lo = x.setWidth 64 := by
  rw [extract_eq_setWidth, h]

theorem descriptorStep_fdWord {e : Env} {word : Word} {c : OperandClass} {hi lo : BitVec 5} (fid : BitVec 8)
    (hle : lo ≤ hi) (rec : Record) :
    (descriptorStep e word (fdWord c hi lo fid) rec).map Prod.snd =
      resolveClass e c hi lo (extract word hi.toNat lo.toNat) rec := by
  have hstep : descriptorStep e word (fdWord c hi lo fid) rec = fieldStep e word c hi lo rec := by
    simp only [descriptorStep, fdClass_fdWord, ofCode_code, fdHi_fdWord, fdLo_fdWord]
  rw [hstep, fieldStep_of_le hle]
  cases resolveClass e c hi lo (extract word hi.toNat lo.toNat) rec <;> rfl

/-- The resolver of a field's record, then the fields after it. -/
theorem fieldsRecord_cons_bind (e : Env) (word fd : Word) (rest : List Word) (rec : Record) :
    fieldsRecord e word (fd :: rest) rec =
      ((descriptorStep e word fd rec).map Prod.snd).bind (fieldsRecord e word rest) := by
  rw [fieldsRecord_cons]
  cases descriptorStep e word fd rec <;> rfl

theorem bind_fieldsRecord_nil (e : Env) (word : Word) (x : Res Record) : x.bind (fieldsRecord e word []) = x := by
  cases x <;> rfl

/-- The descriptor `fd` does nothing to a record but append the operand `o` (20_memory.md R47). -/
def FieldAppends (e : Env) (word fd : Word) (o : Operand) : Prop :=
  ∀ rec, (descriptorStep e word fd rec).map Prod.snd = opsAppend e.roms.params e.cfg.check o rec

section
variable {e : Env} {word : Word} {hi lo : BitVec 5} {fid : BitVec 8}

theorem fieldAppends_reg {b : Bank} {i : BitVec 5} {r : RegId} (hle : lo ≤ hi)
    (hraw : extract word hi.toNat lo.toNat = i.setWidth 64) (hr : (bankTable e.roms.bank b)[i.toNat]? = some r) :
    FieldAppends e word (fdWord (.reg b) hi lo fid) (.reg r) := by
  have hindex : (i.setWidth 64).toNat = i.toNat := BitVec.toNat_setWidth_of_le (by decide)
  intro rec
  rw [descriptorStep_fdWord fid hle, hraw, resolveClass_reg_of_getElem? (hindex.symm ▸ hr)]

theorem fieldAppends_uimm {v : U64} (hle : lo ≤ hi) (hraw : extract word hi.toNat lo.toNat = v) :
    FieldAppends e word (fdWord .uimm hi lo fid) (.imm v) := by
  intro rec
  rw [descriptorStep_fdWord fid hle, hraw]
  rfl

theorem fieldAppends_simm {v : U64} (hle : lo ≤ hi)
    (hv : sext (extract word hi.toNat lo.toNat) (hi.toNat - lo.toNat + 1) = v) :
    FieldAppends e word (fdWord .simm hi lo fid) (.imm v) := by
  intro rec
  rw [descriptorStep_fdWord fid hle, resolveClass_simm_of_le hle, hv]

end

section
variable {e : Env} {word : Word}

theorem fieldsRecord_of_appends {fds : List Word} {ops : List Operand} (h : List.Forall₂ (FieldAppends e word) fds ops)
    {rec : Record} (hroom : rec.n + ops.length ≤ e.roms.params.maxOps) :
    fieldsRecord e word fds rec = .ok { rec with ops := rec.ops ++ ops } := by
  induction h generalizing rec with
  | nil => rw [List.append_nil]; rfl
  | @cons fd o fds ops hfd _ ih =>
    rw [List.length_cons] at hroom
    have hn : ({ rec with ops := rec.ops ++ [o] } : Record).n = rec.n + 1 := by simp [Record.n]
    rw [fieldsRecord_cons_bind, hfd, opsAppend_ok o (by omega), Res.bind_ok, ih (by omega), List.append_assoc]
    rfl

section
variable (hparams : e.roms.params = Config.params) {l : Leaf}
include hparams

/-- A leaf whose every field appends one operand leaves the list of them; `MAXFIELDS` and `MAXOPS` are both 8. -/
theorem leafRecord_of_appends {ops : List Operand} (hn : l.nfields ≤ 8)
    (h : List.Forall₂ (FieldAppends e word) (leafFields l) ops) : leafRecord e word l = .ok ⟨l.opcode, ops, 0#3⟩ := by
  have hfields : ¬e.roms.params.maxFields < l.nfields := by rw [hparams]; exact Nat.not_lt.mpr hn
  have hroom : (freshRecord l.opcode).n + ops.length ≤ e.roms.params.maxOps := by
    rw [hparams, ← h.length_eq, leafFields, List.length_map, List.length_range, Record.n_freshRecord, Nat.zero_add]
    exact hn
  rw [leafRecord, if_neg hfields, fieldsRecord_of_appends h hroom]
  rfl

/-- Of two fields the first of which appends one operand, the second decides on the record. -/
theorem leafRecord_of_last {fd : Word} {c : OperandClass} {hi lo : BitVec 5} {fid : BitVec 8} {o : Operand}
    (hl : leafFields l = [fd, fdWord c hi lo fid]) (hfd : FieldAppends e word fd o) (hle : lo ≤ hi) :
    leafRecord e word l = resolveClass e c hi lo (extract word hi.toNat lo.toNat) ⟨l.opcode, [o], 0#3⟩ := by
  have hn : l.nfields = 2 := by simpa [leafFields] using congrArg List.length hl
  have hfields : ¬e.roms.params.maxFields < l.nfields := by rw [hparams, hn]; decide
  have hroom : (freshRecord l.opcode).n < e.roms.params.maxOps := by rw [hparams]; exact (by decide : 0 < 8)
  rw [leafRecord, if_neg hfields, hl, fieldsRecord_cons_bind, hfd, opsAppend_ok o hroom, Res.bind_ok,
    fieldsRecord_cons_bind, bind_fieldsRecord_nil, descriptorStep_fdWord fid hle]
  rfl

end

end

/-! ### Immediates, three registers and the mask -/

theorem sext_setWidth {w : Nat} (v : BitVec w) (h1 : 1 ≤ w) (h2 : w ≤ 64) :
    sext (v.setWidth 64) w = v.signExtend 64 := by
  rw [sext_eq_signExtend _ h1 h2, BitVec.setWidth_setWidth_of_le v h2, BitVec.setWidth_eq]

section
variable {e : Env} (hparams : e.roms.params = Config.params)
include hparams

theorem leafRecord_addi {r a : BitVec 5} (v : BitVec 16) {g z : RegId}
    (hg : (bankTable e.roms.bank .gpr)[r.toNat]? = some g) (hz : (bankTable e.roms.bank .gprz)[a.toNat]? = some z) :
    leafRecord e (wordAddi r a v) Fixtures.leafAddi = .ok ⟨1, [.reg g, .reg z, .imm (v.signExtend 64)], 0#3⟩ := by
  obtain ⟨-, ⟨hr, ha⟩, hv⟩ := eq_wordAddi_iff.mp (Eq.refl (wordAddi r a v))
  have hl : leafFields Fixtures.leafAddi =
      [fdWord (.reg .gpr) 25 21 0, fdWord (.reg .gprz) 20 16 1, fdWord .simm 15 0 2] := by decide
  refine leafRecord_of_appends hparams (by decide) (hl ▸ .cons ?_ (.cons ?_ (.cons ?_ .nil)))
  · exact fieldAppends_reg (by decide) (extract_of_field 25 21 hr) hg
  · exact fieldAppends_reg (by decide) (extract_of_field 20 16 ha) hz
  · exact fieldAppends_simm (by decide)
      ((congrArg (sext · 16) (extract_of_field 15 0 hv)).trans (sext_setWidth v (by decide) (by decide)))

theorem leafRecord_ori {r a : BitVec 5} (v : BitVec 16) {g h : RegId}
    (hg : (bankTable e.roms.bank .gpr)[r.toNat]? = some g) (hh : (bankTable e.roms.bank .gpr)[a.toNat]? = some h) :
    leafRecord e (wordOri r a v) Fixtures.leafOri = .ok ⟨10, [.reg h, .reg g, .imm (v.setWidth 64)], 0#3⟩ := by
  obtain ⟨-, ⟨hr, ha⟩, hv⟩ := eq_wordOri_iff.mp (Eq.refl (wordOri r a v))
  have hl : leafFields Fixtures.leafOri =
      [fdWord (.reg .gpr) 20 16 0, fdWord (.reg .gpr) 25 21 1, fdWord .uimm 15 0 2] := by decide
  refine leafRecord_of_appends hparams (by decide) (hl ▸ .cons ?_ (.cons ?_ (.cons ?_ .nil)))
  · exact fieldAppends_reg (by decide) (extract_of_field 20 16 ha) hh
  · exact fieldAppends_reg (by decide) (extract_of_field 25 21 hr) hg
  · exact fieldAppends_uimm (by decide) (extract_of_field 15 0 hv)

/-- Three registers of one bank, in the order of their fields. -/
theorem leafRecord_three {l : Leaf} {w : Word} {bank : Bank} {x y z : BitVec 5} {a b c : RegId}
    (hl : leafFields l = [fdWord (.reg bank) 25 21 0, fdWord (.reg bank) 20 16 1, fdWord (.reg bank) 15 11 2])
    (hx : w.extractLsb' 21 5 = x) (hy : w.extractLsb' 16 5 = y) (hz : w.extractLsb' 11 5 = z)
    (ha : (bankTable e.roms.bank bank)[x.toNat]? = some a) (hb : (bankTable e.roms.bank bank)[y.toNat]? = some b)
    (hc : (bankTable e.roms.bank bank)[z.toNat]? = some c) :
    leafRecord e w l = .ok ⟨l.opcode, [.reg a, .reg b, .reg c], 0#3⟩ := by
  have hn : l.nfields = 3 := by simpa [leafFields] using congrArg List.length hl
  refine leafRecord_of_appends hparams (by omega) (hl ▸ .cons ?_ (.cons ?_ (.cons ?_ .nil)))
  · exact fieldAppends_reg (by decide) (extract_of_field 25 21 hx) ha
  · exact fieldAppends_reg (by decide) (extract_of_field 20 16 hy) hb
  · exact fieldAppends_reg (by decide) (extract_of_field 15 11 hz) hc

section
variable {r : BitVec 5} {m : BitVec 8} {g : RegId} (hg : (bankTable e.roms.bank .gpr)[r.toNat]? = some g)
include hg

/-- Past its register `FX_MFOCRF` is its mask. -/
theorem leafRecord_mfocrf (m : BitVec 8) (x y : BitVec 1) :
    leafRecord e (wordMfocrf r m x y) Fixtures.leafMfocrf =
      resolveClass e .crbitm 19 12 (m.setWidth 64) ⟨7, [.reg g], 0#3⟩ := by
  obtain ⟨-, ⟨⟨hr, hm⟩, -⟩, -⟩ := eq_wordMfocrf_iff.mp (Eq.refl (wordMfocrf r m x y))
  have hl : leafFields Fixtures.leafMfocrf = [fdWord (.reg .gpr) 25 21 0, fdWord .crbitm 19 12 1] := by decide
  have hreg := fieldAppends_reg (hi := 25) (lo := 21) (fid := 0) (by decide) (extract_of_field 25 21 hr) hg
  rw [leafRecord_of_last hparams hl hreg (by decide)]
  exact congrArg (resolveClass e .crbitm 19 12 · ⟨7, [.reg g], 0#3⟩) (extract_of_field 19 12 hm)

theorem leafRecord_mfocrf_group {p : Nat} {c : RegId} (x y : BitVec 1) (hp : p ≤ 7) (hbit : m.getLsbD p = true)
    (hbelow : ∀ j < p, m.getLsbD j = false) (hone : m.toNat = 2 ^ p ∨ e.cfg.check = .trust)
    (hc : (bankTable e.roms.bank .cr)[7 - p]? = some c) :
    leafRecord e (wordMfocrf r m x y) Fixtures.leafMfocrf = .ok ⟨7, [.reg g, .reg c], 0#3⟩ := by
  have hgroup : crGroup e.cfg.check (m.setWidth 64) = .ok (7 - p) := by
    refine crGroup_of_lowest hp ?_ (fun j hj => ?_) ?_
    · rw [BitVec.getLsbD_setWidth, hbit, decide_eq_true (by omega), Bool.true_and]
    · rw [BitVec.getLsbD_setWidth, hbelow j hj, Bool.and_false]
    · rwa [BitVec.toNat_setWidth_of_le (by decide)]
  have hroom : 1 < e.roms.params.maxOps := by rw [hparams]; decide
  rw [leafRecord_mfocrf hparams hg, resolveClass_crbitm_of_getElem? hgroup hc]
  exact opsAppend_ok (rec := ⟨7, [.reg g], 0#3⟩) (.reg c) hroom

theorem leafRecord_mfocrf_not_onehot (x y : BitVec 1) (hnot : ∀ p ≤ 7, m.toNat ≠ 2 ^ p)
    (hcheck : e.cfg.check = .failClosed) :
    leafRecord e (wordMfocrf r m x y) Fixtures.leafMfocrf = .fail .onehot := by
  have hgroup : crGroup e.cfg.check (m.setWidth 64) = .fail .onehot := by
    rw [hcheck]
    refine crGroup_failClosed_of_not_onehot ?_
    rwa [BitVec.toNat_setWidth_of_le (by decide)]
  rw [leafRecord_mfocrf hparams hg, resolveClass, resCrbitm, hgroup, Res.bind_fail]

theorem leafRecord_mfocrf_zero (x y : BitVec 1) (hcheck : e.cfg.check = .trust) :
    leafRecord e (wordMfocrf r 0#8 x y) Fixtures.leafMfocrf = .refuse .maskPosition := by
  have hgroup : crGroup e.cfg.check ((0#8).setWidth 64) = .refuse .maskPosition := by rw [hcheck]; rfl
  rw [leafRecord_mfocrf hparams hg, resolveClass, resCrbitm, hgroup, Res.bind_refuse]

end

end

/-! ### The memory forms -/

/-- A packed memory field (30_encoding.md R64, R65): the base index above the displacement, zero-extended. -/
def packedField {dw : Nat} (a : BitVec 5) (d : BitVec dw) : U64 := (a ++ d).setWidth 64

section
variable {dw sc : Nat} (hsum : dw + sc = 16)
include hsum

theorem packedField_toNat (a : BitVec 5) (d : BitVec dw) : (packedField a d).toNat = a.toNat * 2 ^ dw + d.toNat := by
  rw [packedField, BitVec.toNat_setWidth_of_le (by omega), append_toNat]

theorem packedField_base (a : BitVec 5) (d : BitVec dw) : (packedField a d).toNat / 2 ^ dw = a.toNat := by
  rw [packedField_toNat hsum, Nat.mul_comm, Nat.mul_add_div (Nat.two_pow_pos dw), Nat.div_eq_of_lt d.isLt, Nat.add_zero]

/-- The displacement operand is the displacement with the scale's zeros below it, sign-extended (30_encoding.md R71). -/
theorem memDisp_packedField (a : BitVec 5) (d : BitVec dw) :
    memDisp dw sc (packedField a d) = (d ++ 0#sc).signExtend 64 := by
  have hlow : (packedField a d).toNat % 2 ^ dw = d.toNat := by
    rw [packedField_toNat hsum, Nat.mul_add_mod', Nat.mod_eq_of_lt d.isLt]
  have hscaled : shl (BitVec.ofNat 64 d.toNat) sc = (d ++ 0#sc).setWidth 64 := by
    apply BitVec.eq_of_toNat_eq
    rw [shl, BitVec.toNat_setWidth, append_toNat]
    simp
  rw [memDisp, hlow, hscaled, ← hsum, sext_setWidth _ (by omega) (by omega)]

section
variable {e : Env} {a : BitVec 5} {z : RegId} (hz : (bankTable e.roms.bank .gprz)[a.toNat]? = some z)
include hz

/-- An accepted memory field whose tied operand has left the operands `ops`, with room for two more. -/
theorem resMem_of_tied (d : BitVec dw) {rec : Record} {pol : Policy} {ops : List Operand}
    (hpol : policyOf e.cfg.check e.roms.policy rec.opcode = .ok pol)
    (hbase : pol = .none ∨ e.cfg.chkBase0 = false ∨ a ≠ 0#5)
    (htied : insertTied e pol z rec = .ok { rec with ops := ops }) (hroom : ops.length + 2 ≤ e.roms.params.maxOps) :
    resMem dw sc e (packedField a d) rec =
      .ok { rec with ops := ops ++ [.imm ((d ++ 0#sc).signExtend 64), .reg z] } := by
  rw [← packedField_base hsum a d] at hz
  have haccepted : ¬(pol ≠ .none ∧ e.cfg.chkBase0 = true ∧ (packedField a d).toNat / 2 ^ dw = 0) := by
    rw [packedField_base hsum]
    rintro ⟨hpolicy, hcheck, hzero⟩
    obtain h | h | h := hbase
    · exact hpolicy h
    · exact Bool.false_ne_true (h.symm.trans hcheck)
    · exact h (BitVec.eq_of_toNat_eq hzero)
  rw [resMem_of_accepted hz hpol haccepted, htied, Res.bind_ok, memDisp_packedField hsum]
  exact opsAppend_twice _ _ hroom

section
variable (hroom : 4 ≤ e.roms.params.maxOps) (d : BitVec dw) {opc : OpcId} (o : Operand)
include hroom

theorem resMem_none (hcode : policyCode e.roms.policy opc = 0#2) :
    resMem dw sc e (packedField a d) ⟨opc, [o], 0#3⟩ =
      .ok ⟨opc, [o, .imm ((d ++ 0#sc).signExtend 64), .reg z], 0#3⟩ :=
  resMem_of_tied hsum hz d (ops := [o]) (policyOf_none hcode) (.inl rfl) rfl (Nat.le_of_succ_le hroom)

theorem resMem_tiedOut (hcode : policyCode e.roms.policy opc = 1#2) (hbase : e.cfg.chkBase0 = false ∨ a ≠ 0#5) :
    resMem dw sc e (packedField a d) ⟨opc, [o], 0#3⟩ =
      .ok ⟨opc, [.reg z, o, .imm ((d ++ 0#sc).signExtend 64), .reg z], 0#3⟩ := by
  have htied := insertTied_tiedOut (e := e) (r := z) (rec := ⟨opc, [o], 0#3⟩)
    ((by decide : 1 < 4).trans_le hroom)
  exact resMem_of_tied hsum hz d (policyOf_tiedOut hcode) (.inr hbase) htied hroom

theorem resMem_tiedStore (hpos : e.roms.params.tiedStorePos = 1) (hcode : policyCode e.roms.policy opc = 2#2)
    (hbase : e.cfg.chkBase0 = false ∨ a ≠ 0#5) :
    resMem dw sc e (packedField a d) ⟨opc, [o], 0#3⟩ =
      .ok ⟨opc, [o, .reg z, .imm ((d ++ 0#sc).signExtend 64), .reg z], 0#3⟩ := by
  have htied := insertTied_tiedStore (e := e) (r := z) (rec := ⟨opc, [o], 0#3⟩) hpos.symm
    ((by decide : 1 < 4).trans_le hroom)
  exact resMem_of_tied hsum hz d (policyOf_tiedStore hcode) (.inr hbase) htied hroom

end

/-- With `CHK_BASE0` = 1 the base index 0 fails an update opcode (R147). -/
theorem resMem_update_base0 (d : BitVec dw) {rec : Record}
    (hcode : policyCode e.roms.policy rec.opcode = 1#2 ∨ policyCode e.roms.policy rec.opcode = 2#2)
    (hcheck : e.cfg.chkBase0 = true) (ha : a = 0#5) : resMem dw sc e (packedField a d) rec = .fail .base0 := by
  rw [← packedField_base hsum a d] at hz
  have hzero : (packedField a d).toNat / 2 ^ dw = 0 := (packedField_base hsum a d).trans (congrArg BitVec.toNat ha)
  obtain hcode | hcode := hcode
  · exact resMem_base0 hz (policyOf_tiedOut hcode) ⟨by decide, hcheck, hzero⟩
  · exact resMem_base0 hz (policyOf_tiedStore hcode) ⟨by decide, hcheck, hzero⟩

end

end

/-- A leaf of a register and a packed memory field whose format is the word's: its class decides on the record of the
register. -/
theorem leafRecord_memory {e : Env} (hparams : e.roms.params = Config.params) {l : Leaf} {w : Word} {bank : Bank}
    {c : OperandClass} {dw sc : Nat} {lo : BitVec 5} {r a : BitVec 5} {d : BitVec dw} {g : RegId}
    (hc : (c, dw, sc) ∈ memoryClasses) (hl : leafFields l = [fdWord (.reg bank) 25 21 0, fdWord c 20 lo 1])
    (hlo : lo.toNat + dw = 16) (hr : w.extractLsb' 21 5 = r) (ha : w.extractLsb' 16 5 = a)
    (hd : w.extractLsb' lo.toNat dw = d) (hg : (bankTable e.roms.bank bank)[r.toNat]? = some g) :
    leafRecord e w l = resMem dw sc e (packedField a d) ⟨l.opcode, [.reg g], 0#3⟩ := by
  have hreg := fieldAppends_reg (hi := 25) (lo := 21) (fid := 0) (by decide) (extract_of_field 25 21 hr) hg
  have hle : lo ≤ 20 := BitVec.le_def.mpr (show lo.toNat ≤ 20 by omega)
  have hraw : extract w 20 lo.toNat = packedField a d := by
    rw [extract_eq_setWidth, show 20 - lo.toNat + 1 = 5 + dw by omega, packedField, ← ha, ← hd,
      BitVec.extractLsb'_append_extractLsb'_eq_extractLsb' hlo.symm]
  rw [leafRecord_of_last hparams hl hreg hle, resolveClass_memory hc]
  exact congrArg (resMem dw sc e · ⟨l.opcode, [.reg g], 0#3⟩) hraw

section
variable {s : State} {dw sc : Nat} {a : BitVec 5} {d : BitVec dw} {g z : RegId} (hparams : s.roms.params = Config.params)
  (hsum : dw + sc = 16) (hz : (bankTable s.roms.bank .gprz)[a.toNat]? = some z) {l l' : Leaf} {w w' : Word}
include hparams hsum hz

/-- The call on a form that is no update form. -/
theorem callEnds_plainForm
    (hrec : leafRecord s.env w l = resMem dw sc s.env (packedField a d) ⟨l.opcode, [.reg g], 0#3⟩)
    (hcode : policyCode s.roms.policy l.opcode = 0#2) :
    CallEnds s (execLeafWord 0 l w s)
      (successResponse ⟨l.opcode, [.reg g, .imm ((d ++ 0#sc).signExtend 64), .reg z], 0#3⟩) := by
  have hroom : 4 ≤ s.roms.params.maxOps := by rw [hparams]; decide
  exact execLeafWord_success 0 (hrec.trans (resMem_none (e := s.env) hsum hz hroom d _ hcode))

/-- The calls on the update forms of a load and of a store (R145, R147). -/
theorem callEnds_updateForms
    (hload : leafRecord s.env w l = resMem dw sc s.env (packedField a d) ⟨l.opcode, [.reg g], 0#3⟩)
    (hstore : leafRecord s.env w' l' = resMem dw sc s.env (packedField a d) ⟨l'.opcode, [.reg g], 0#3⟩)
    (hcode : policyCode s.roms.policy l.opcode = 1#2) (hcode' : policyCode s.roms.policy l'.opcode = 2#2) :
    (s.cfg.chkBase0 = false ∨ a ≠ 0#5 →
      CallEnds s (execLeafWord 0 l w s)
        (successResponse ⟨l.opcode, [.reg z, .reg g, .imm ((d ++ 0#sc).signExtend 64), .reg z], 0#3⟩) ∧
      CallEnds s (execLeafWord 0 l' w' s)
        (successResponse ⟨l'.opcode, [.reg g, .reg z, .imm ((d ++ 0#sc).signExtend 64), .reg z], 0#3⟩)) ∧
    (s.cfg.chkBase0 = true → a = 0#5 →
      CallEnds s (execLeafWord 0 l w s) failResponse ∧ CallEnds s (execLeafWord 0 l' w' s) failResponse) := by
  have hroom : 4 ≤ s.roms.params.maxOps := by rw [hparams]; decide
  have hpos : s.roms.params.tiedStorePos = 1 := by rw [hparams]; rfl
  refine ⟨fun hbase => ⟨?tiedOut, ?tiedStore⟩, fun hcheck ha => ⟨?loadFails, ?storeFails⟩⟩
  case tiedOut =>
    exact execLeafWord_success 0 (hload.trans (resMem_tiedOut (e := s.env) hsum hz hroom d _ hcode hbase))
  case tiedStore =>
    exact execLeafWord_success 0 (hstore.trans (resMem_tiedStore (e := s.env) hsum hz hroom d _ hpos hcode' hbase))
  case loadFails =>
    exact execLeafWord_primary_fail (hload.trans (resMem_update_base0 (e := s.env) hsum hz d (.inl hcode) hcheck ha))
  case storeFails =>
    exact execLeafWord_primary_fail (hstore.trans (resMem_update_base0 (e := s.env) hsum hz d (.inr hcode') hcheck ha))

end

end Sys2Proof.Machine

open Sys2Proof Sys2Proof.Machine

/-- Settles O37: each of the three fields appends its operand. -/
theorem fixtureImmediateForms : Obligations.FixtureImmediateForms := by
  unfold Obligations.FixtureImmediateForms
  intro r a v s g h z hparams hg hh hz
  exact ⟨execLeafWord_success 0 (leafRecord_addi (e := s.env) hparams v hg hz),
    execLeafWord_success 0 (leafRecord_ori (e := s.env) hparams v hg hh)⟩

/-- Settles O41: the three descriptors of each leaf name one bank. -/
theorem fixtureThreeRegisterForms : Obligations.FixtureThreeRegisterForms := by
  unfold Obligations.FixtureThreeRegisterForms
  intro x y z bit0 s a b c hparams
  refine ⟨fun ha hb hc => ?fadd, fun ha hb hc => ?vadd, fun ha hb hc => ?pfadd⟩
  case fadd =>
    obtain ⟨-, ⟨⟨hx, hy⟩, hz⟩, -⟩ := eq_wordFadd_iff.mp (Eq.refl (wordFadd x y z bit0))
    exact execLeafWord_success 0 (leafRecord_three (e := s.env) hparams (by decide) hx hy hz ha hb hc)
  case vadd =>
    obtain ⟨-, ⟨hx, hy⟩, hz⟩ := eq_wordVadd_iff.mp (Eq.refl (wordVadd x y z))
    exact execLeafWord_success 0 (leafRecord_three (e := s.env) hparams (by decide) hx hy hz ha hb hc)
  case pfadd =>
    obtain ⟨-, ⟨hx, hy⟩, hz⟩ := eq_wordPfadd_iff.mp (Eq.refl (wordPfadd x y z))
    exact execLeafWord_success 1 (leafRecord_three (e := s.env) hparams (by decide) hx hy hz ha hb hc)

/-- Settles O40: past the register the mask selects a group, fails the attempt of the last table, or has no meaning. -/
theorem fixtureMaskForm : Obligations.FixtureMaskForm := by
  unfold Obligations.FixtureMaskForm
  intro r m x y s g hparams hg
  refine ⟨fun p hp hbit hbelow hone c hc => ?group, fun hnot hcheck => ?notOnehot, fun hzero hcheck => ?zero⟩
  case group =>
    exact execLeafWord_success 0 (leafRecord_mfocrf_group (e := s.env) hparams hg x y hp hbit hbelow hone hc)
  case notOnehot =>
    exact execLeafWord_primary_fail (leafRecord_mfocrf_not_onehot (e := s.env) hparams hg x y hnot hcheck)
  case zero =>
    obtain rfl := hzero
    exact execLeafWord_refused 0 (leafRecord_mfocrf_zero (e := s.env) hparams hg x y hcheck)

/-- Settles O38: the field is the base index above the displacement, and the policy of the leaf's opcode id puts the tied
operand in. -/
theorem fixtureMemoryForms : Obligations.FixtureMemoryForms := by
  unfold Obligations.FixtureMemoryForms
  intro r a d s g z hparams hpolicy hg hz
  have hc : (OperandClass.memri, 16, 0) ∈ memoryClasses := by decide
  have hcode (opc : OpcId) : policyCode s.roms.policy opc = policyCode Fixtures.policyRef opc := by rw [hpolicy]
  obtain ⟨-, ⟨hr, ha⟩, hd⟩ := eq_wordLwz_iff.mp (Eq.refl (wordLwz r a d))
  have hlwz := leafRecord_memory (e := s.env) (lo := 0) hparams hc (l := Fixtures.leafLwz) (by decide) rfl hr ha hd hg
  obtain ⟨-, ⟨hr, ha⟩, hd⟩ := eq_wordLwzu_iff.mp (Eq.refl (wordLwzu r a d))
  have hlwzu := leafRecord_memory (e := s.env) (lo := 0) hparams hc (l := Fixtures.leafLwzu) (by decide) rfl hr ha hd hg
  obtain ⟨-, ⟨hr, ha⟩, hd⟩ := eq_wordStwu_iff.mp (Eq.refl (wordStwu r a d))
  have hstwu := leafRecord_memory (e := s.env) (lo := 0) hparams hc (l := Fixtures.leafStwu) (by decide) rfl hr ha hd hg
  have himm : (d ++ 0#0).signExtend 64 = d.signExtend 64 := by rw [BitVec.append_zero_width]
  rw [← himm]
  exact ⟨callEnds_plainForm hparams rfl hz hlwz (hcode 2),
    callEnds_updateForms hparams rfl hz hlwzu hstwu (hcode 3) (hcode 4)⟩

/-- Settles O39, by the same rule: the displacement has 14 bits and is scaled by 4. -/
theorem fixtureScaledMemoryForms : Obligations.FixtureScaledMemoryForms := by
  unfold Obligations.FixtureScaledMemoryForms
  intro r a ds s g z hparams hpolicy hg hz
  have hc : (OperandClass.memrix, 14, 2) ∈ memoryClasses := by decide
  have hcode (opc : OpcId) : policyCode s.roms.policy opc = policyCode Fixtures.policyRef opc := by rw [hpolicy]
  obtain ⟨-, ⟨hr, ha⟩, hd⟩ := eq_wordLdu_iff.mp (Eq.refl (wordLdu r a ds))
  have hldu := leafRecord_memory (e := s.env) (lo := 2) hparams hc (l := Fixtures.leafLdu) (by decide) rfl hr ha hd hg
  obtain ⟨-, ⟨hr, ha⟩, hd⟩ := eq_wordStdu_iff.mp (Eq.refl (wordStdu r a ds))
  have hstdu := leafRecord_memory (e := s.env) (lo := 2) hparams hc (l := Fixtures.leafStdu) (by decide) rfl hr ha hd hg
  exact callEnds_updateForms hparams rfl hz hldu hstdu (hcode 5) (hcode 6)

end

section
/-! PROOF. The call on a word that the fixture tables answer is the operation that the word decodes to (44_matcher_dispatch.md
R169; 45_decode_entry.md R180; log entries 10, 12). -/

namespace Sys2Proof.Machine

/-! ### The leaf that answers for an instruction's word -/

/-- A row of the primary fixture table fits the word `w`, and `i` is the call on `w` from the answer of its leaf on. -/
def RunsPrimaryRow (i : Instr) (w : Word) : Prop :=
  ∃ row ∈ Fixtures.tRef0, w &&& row.mask = row.value ∧ ∀ s, exec i s = execLeafWord 0 row.leaf w s

/-- The hypothesis on the encoding is what `encode` says of a fixture leaf's operation. -/
theorem runsPrimaryRow_of_getElem? {i : Instr} {row : TableRow} {e w : Word} (k : Nat)
    (h : some (Space.primary, e) = some (.primary, w)) (hk : Fixtures.tRef0[k]? = some row)
    (hfit : e &&& row.mask = row.value) (hexec : ∀ s, exec i s = execLeafWord 0 row.leaf e s) : RunsPrimaryRow i w := by
  obtain ⟨-, rfl⟩ := eq_of_encode_eq h
  exact ⟨row, List.mem_of_getElem? hk, hfit, hexec⟩

theorem encode_leaf_ne_primary (opcode : OpcId) (nfields : BitVec 4) (w : Word) :
    encode (.leaf opcode nfields) ≠ some (.primary, w) := by
  rw [encode]
  split
  · exact nofun
  · exact nofun

theorem runsPrimaryRow_of_encode {i : Instr} {w : Word} (h : encode i = some (.primary, w)) : RunsPrimaryRow i w := by
  cases i with
  | fxAddi => exact runsPrimaryRow_of_getElem? 0 h rfl (wordAddi_and_mask ..) fun _ => rfl
  | fxLwz => exact runsPrimaryRow_of_getElem? 1 h rfl (wordLwz_and_mask ..) fun _ => rfl
  | fxLwzu => exact runsPrimaryRow_of_getElem? 2 h rfl (wordLwzu_and_mask ..) fun _ => rfl
  | fxStwu => exact runsPrimaryRow_of_getElem? 3 h rfl (wordStwu_and_mask ..) fun _ => rfl
  | fxLdu => exact runsPrimaryRow_of_getElem? 4 h rfl (wordLdu_and_mask ..) fun _ => rfl
  | fxStdu => exact runsPrimaryRow_of_getElem? 5 h rfl (wordStdu_and_mask ..) fun _ => rfl
  | fxMfocrf => exact runsPrimaryRow_of_getElem? 6 h rfl (wordMfocrf_and_mask ..) fun _ => rfl
  | fxFadd => exact runsPrimaryRow_of_getElem? 7 h rfl (wordFadd_and_mask ..) fun _ => rfl
  | fxVadd => exact runsPrimaryRow_of_getElem? 8 h rfl (wordVadd_and_mask ..) fun _ => rfl
  | fxOri => exact runsPrimaryRow_of_getElem? 9 h rfl (wordOri_and_mask ..) fun _ => rfl
  | leaf => exact absurd h (encode_leaf_ne_primary _ _ _)
  | gpr | gprz | g64 | fps | fpd | vec | vsxl | vsxh | vsf | cr | crb | pf0 | pf1 | uimm | simm | memri | memrix | crbitm
  | extract | sext | shl | ctz | resolve | policy | opsAppend | opsInsert | matchLeaf | dispatch | attempt | assemble
  | decode | fxPfadd => exact nomatch h

/-- No row of the fixture tables asks for a feature. -/
theorem rowApplies_of_noFeatures {word : Word} {features : FeatureSet} {row : TableRow} (h : row.features = []) :
    rowApplies word features row = true ↔ word &&& row.mask = row.value := by
  rw [rowApplies_iff, h]
  simp

theorem tRef0_noFeatures : ∀ row ∈ Fixtures.tRef0, row.features = [] := by decide

/-- The row of the primary table that a word fits answers for it, there being no other. -/
theorem matchRows_tRef0 {word : Word} {row : TableRow} (features : FeatureSet) (hrow : row ∈ Fixtures.tRef0)
    (hfit : word &&& row.mask = row.value) : matchRows Fixtures.tRef0 word features = some row.leaf := by
  have hiff {row' : TableRow} (hrow' : row' ∈ Fixtures.tRef0) :
      rowApplies word features row' = true ↔ word &&& row'.mask = row'.value :=
    rowApplies_of_noFeatures (tRef0_noFeatures row' hrow')
  refine matchRows_eq_some hrow ((hiff hrow).mpr hfit) fun row' hrow' happlies => ?_
  obtain ⟨i, hi⟩ := List.mem_iff_getElem?.mp hrow
  obtain ⟨j, hj⟩ := List.mem_iff_getElem?.mp hrow'
  obtain rfl := tRef0_index_eq hi hj hfit ((hiff hrow').mp happlies)
  rw [Option.some.inj (hi.symm.trans hj)]

/-- The extension table answers with its one leaf, for the words that decode by it. -/
theorem matchRows_tRef1 {word : Word} (features : FeatureSet) (hfit : word &&& 0xFC0007FF#32 = 0x10000000#32) :
    matchRows Fixtures.tRef1 word features = some Fixtures.leafPfadd :=
  matchRows_eq_some (List.mem_singleton_self _) ((rowApplies_of_noFeatures rfl).mpr hfit) fun row' hrow' _ => by
    rw [List.mem_singleton.mp hrow']

theorem matchRows_tRef1_none {word : Word} (features : FeatureSet) (h : decodeExtension word = none) :
    matchRows Fixtures.tRef1 word features = none := by
  refine matchRows_eq_none_iff.mpr fun row hrow happlies => ?_
  obtain rfl := List.mem_singleton.mp hrow
  rw [decodeExtension, if_pos ((rowApplies_of_noFeatures rfl).mp happlies)] at h
  exact nomatch h

/-! ### The call from the table that answers on -/

section
variable {e : Env} {word : Word} {raw : U64} {t : Nat} (rest : List Nat) (last : Nat × Cause)

theorem callTables_of_ok {a : AttemptEnd} (h : attemptTable e word raw t = .ok a) :
    callTables e word raw (t :: rest) last = .done t a := by
  simp only [callTables, h]

theorem callTables_of_fail {c : Cause} (h : attemptTable e word raw t = .fail c) :
    callTables e word raw (t :: rest) last = callTables e word raw rest (t, c) := by
  simp only [callTables, h]

theorem callTables_of_refuse {r : Refusal} (h : attemptTable e word raw t = .refuse r) :
    callTables e word raw (t :: rest) last = .refused r := by
  simp only [callTables, h]

end

/-- The call on a leaf's word is the run over its table and those after it, where the table answers the leaf. -/
theorem execLeafWord_eq_endCall {s : State} {t : Nat} {l : Leaf} {w : Word} (last : Nat × Cause)
    (hlookup : lookupLeaf s.env w t = .ok l) :
    execLeafWord t l w s = endCall ((accept s).withWord w)
      (callTables s.env w s.work.raw (t :: tablesAfter t (tableOrder s.cfg.ext)) last) := by
  have hattempt := attemptTable_of_lookup (raw := s.work.raw) hlookup
  cases ha : attemptLeaf s.env w s.work.raw l with
  | ok a => simp only [execLeafWord, ha, callTables_of_ok _ last (hattempt.trans ha)]
  | fail c => simp only [execLeafWord, ha, callTables_of_fail _ last (hattempt.trans ha)]
  | refuse r => simp only [execLeafWord, ha, callTables_of_refuse _ last (hattempt.trans ha)]

/-- `DECODE` is the call on a leaf's word where the table that answers the leaf is reached in `ORDER`. -/
theorem execDecode_eq_execLeafWord {s : State} {t : Nat} {l : Leaf} {last : Nat × Cause} (hfull : 4 ≤ s.request.avail)
    (hlookup : lookupLeaf s.env (assembled s.cfg s.request) t = .ok l)
    (hreach : callTables s.env (assembled s.cfg s.request) s.work.raw (tableOrder s.cfg.ext) (0, .noMatch) =
      callTables s.env (assembled s.cfg s.request) s.work.raw (t :: tablesAfter t (tableOrder s.cfg.ext)) last) :
    execDecode s = execLeafWord t l (assembled s.cfg s.request) s := by
  rw [execLeafWord_eq_endCall last hlookup, ← hreach]
  exact if_neg (Nat.not_lt.mpr hfull)

section
variable {s : State} (hfull : 4 ≤ s.request.avail) (htables : s.roms.tables = [Fixtures.tRef0, Fixtures.tRef1])
include hfull htables

/-- A word of the primary table where no extension table answers. -/
theorem execDecode_primary {row : TableRow} (hrow : row ∈ Fixtures.tRef0)
    (hfit : assembled s.cfg s.request &&& row.mask = row.value)
    (hext : s.cfg.ext = [false] ∨
      s.cfg.ext = [true] ∧ decodeExtension (assembled s.cfg s.request) = none) :
    execDecode s = execLeafWord 0 row.leaf (assembled s.cfg s.request) s := by
  have htable : s.env.roms.tables[0]? = some Fixtures.tRef0 := congrArg (·[0]?) htables
  have hlookup : lookupLeaf s.env (assembled s.cfg s.request) 0 = .ok row.leaf :=
    lookupLeaf_eq_ok.mpr ⟨_, htable, matchRows_tRef0 _ hrow hfit⟩
  obtain hoff | ⟨hon, hnone⟩ := hext
  · refine execDecode_eq_execLeafWord (last := (0, .noMatch)) hfull hlookup ?_
    rw [hoff]
    rfl
  · have htable1 : s.env.roms.tables[1]? = some Fixtures.tRef1 := congrArg (·[1]?) htables
    have hlookup1 := lookupLeaf_noMatch htable1 (matchRows_tRef1_none s.env.cfg.features hnone)
    refine execDecode_eq_execLeafWord (last := (1, .noMatch)) hfull hlookup ?_
    rw [hon]
    exact callTables_of_fail _ _ (by rw [attemptTable, hlookup1, Res.bind_fail])

/-- A word of the extension table with the mode on. -/
theorem execDecode_extension (hfit : assembled s.cfg s.request &&& 0xFC0007FF#32 = 0x10000000#32)
    (hext : s.cfg.ext = [true]) :
    execDecode s = execLeafWord 1 Fixtures.leafPfadd (assembled s.cfg s.request) s := by
  have htable : s.env.roms.tables[1]? = some Fixtures.tRef1 := congrArg (·[1]?) htables
  have hlookup : lookupLeaf s.env (assembled s.cfg s.request) 1 = .ok Fixtures.leafPfadd :=
    lookupLeaf_eq_ok.mpr ⟨_, htable, matchRows_tRef1 _ hfit⟩
  refine execDecode_eq_execLeafWord (last := (0, .noMatch)) hfull hlookup ?_
  rw [hext]
  rfl

end

theorem decodeWord_of_decodeBytes {bigEndian : Bool} {sp : Space} {b0 b1 b2 b3 : Byte} {i : Instr} {rest : List Byte}
    (h : decodeBytes bigEndian sp ([b0, b1, b2, b3] ++ rest) = .ok (i, rest)) :
    decodeWord sp (assembleWord bigEndian b0 b1 b2 b3) = .ok i := by
  change decodeBytes bigEndian sp (b0 :: b1 :: b2 :: b3 :: rest) = _ at h
  rw [decodeBytes] at h
  cases hword : decodeWord sp (assembleWord bigEndian b0 b1 b2 b3) with
  | ok j => simpa [hword] using h
  | error e => simp [hword] at h

end Sys2Proof.Machine

open Sys2Proof Sys2Proof.Machine

/-- Settles O43: the word is the instruction's encoding, its table answers the instruction's leaf, and no table before it
answers any. -/
theorem stepRunsTheInstructionWord : Obligations.StepRunsTheInstructionWord := by
  unfold Obligations.StepRunsTheInstructionWord
  intro s sp i rest hp hr hg hfull htables hbytes hspace
  have hword : decodeWord sp (assembled s.cfg s.request) = .ok i := decodeWord_of_decodeBytes hbytes
  have hprimary (hsp : sp = .primary) (hext : s.cfg.ext = [false] ∨
      s.cfg.ext = [true] ∧ decodeExtension (assembled s.cfg s.request) = none) : execDecode s = exec i s := by
    obtain rfl := hsp
    obtain ⟨row, hrow, hfit, hexec⟩ := runsPrimaryRow_of_encode (encodeDecodedWord _ _ _ hword)
    rw [execDecode_primary hfull htables hrow hfit hext, hexec]
  refine (step_call hp hr hg).trans ?_
  change execDecode s = exec i s
  obtain ⟨hsp, hoff⟩ | ⟨hsp, hon, hnone⟩ | ⟨rfl, hon⟩ := hspace
  · exact hprimary hsp (.inl hoff)
  · exact hprimary hsp (.inr ⟨hon, hnone⟩)
  · obtain ⟨hfit, rfl⟩ := decodeWord_extension_iff.mp hword
    rw [execDecode_extension hfull htables hfit hon]
    have hencoded := eq_wordPfadd_iff.mpr ⟨hfit, ⟨rfl, rfl⟩, rfl⟩
    exact congrArg (execLeafWord 1 Fixtures.leafPfadd · s) hencoded

end

section
/-! PROOF. The decode entry point (45_decode_entry.md R180 to R188): the word that is assembled, the order of the tables, how
the run over them ends the call, and that every call under `FAIL_CLOSED` ends. -/

namespace Sys2Proof.Machine

/-! ### ASSEMBLE (R181) -/

theorem assembleWord_eq_append (bigEndian : Bool) (b0 b1 b2 b3 : Byte) :
    assembleWord bigEndian b0 b1 b2 b3 = if bigEndian then b0 ++ b1 ++ b2 ++ b3 else b3 ++ b2 ++ b1 ++ b0 := by
  apply BitVec.eq_of_toNat_eq
  rw [assembleWord_toNat]
  split
  · simp only [append_toNat]
    omega
  · simp only [append_toNat]
    omega

theorem exec_assemble {s : State} (h : 4 ≤ s.request.avail) :
    exec .assemble s = .next (s.withWord (assembled s.cfg s.request)) :=
  if_neg (Nat.not_lt.mpr h)

/-! ### ORDER (R182) -/

theorem activeExtensions_rising (ext : List Bool) : (activeExtensions ext).Pairwise (· < ·) :=
  List.pairwise_map.mpr ((List.pairwise_lt_range.filter _).imp Nat.succ_lt_succ)

theorem lt_length_and_getD_iff {ext : List Bool} {k : Nat} :
    k < ext.length ∧ ext.getD k false = true ↔ ext[k]? = some true := by
  have hmode : ext.getD k false = true ↔ ext[k]? = some true := by
    rw [List.getD_eq_getElem?_getD]
    cases ext[k]? <;> simp
  rw [hmode]
  exact and_iff_right_of_imp fun h => (List.getElem?_eq_some_iff.mp h).1

theorem mem_activeExtensions_iff {ext : List Bool} {t : Nat} :
    t ∈ activeExtensions ext ↔ 1 ≤ t ∧ ext[t - 1]? = some true := by
  cases t with
  | zero => exact iff_of_false (fun h => ne_zero_of_mem_activeExtensions h rfl) (by omega)
  | succ k => simp [activeExtensions, ← lt_length_and_getD_iff]

/-! ### DECODE (R180) -/

section
variable {s : State}

theorem exec_decode_short (h : s.request.avail < 4) : exec .decode s = .next (callFail .short (accept s)) :=
  if_pos h

theorem exec_decode_full (h : 4 ≤ s.request.avail) :
    exec .decode s = endCall ((accept s).withWord (assembled s.cfg s.request))
      (callTables s.env (assembled s.cfg s.request) s.work.raw (tableOrder s.cfg.ext) (0, .noMatch)) :=
  if_neg (Nat.not_lt.mpr h)

end

/-- Tables that fail hand the run on to those after them, with nothing but the last of them and its cause. -/
theorem callTables_append_of_failed {e : Env} {word : Word} {raw : U64} {ts : List Nat}
    (h : ∀ t ∈ ts, ∃ c, attemptTable e word raw t = .fail c) (rest : List Nat) (last : Nat × Cause) :
    ∃ last', callTables e word raw (ts ++ rest) last = callTables e word raw rest last' := by
  induction ts generalizing last with
  | nil => exact ⟨last, rfl⟩
  | cons t ts ih =>
    obtain ⟨⟨c, hc⟩, hts⟩ := List.forall_mem_cons.mp h
    rw [List.cons_append, callTables_of_fail _ _ hc]
    exact ih hts (t, c)

/-- The first table whose attempt succeeds ends the call (R183). -/
theorem exec_decode_of_success {s : State} {before after : List Nat} {t : Nat} {a : AttemptEnd}
    (hfull : 4 ≤ s.request.avail) (horder : tableOrder s.cfg.ext = before ++ t :: after)
    (hbefore : ∀ k ∈ before, ∃ c, attemptTable s.env (assembled s.cfg s.request) s.work.raw k = .fail c)
    (ht : attemptTable s.env (assembled s.cfg s.request) s.work.raw t = .ok a) :
    exec .decode s = endCall ((accept s).withWord (assembled s.cfg s.request)) (.done t a) := by
  obtain ⟨last, hlast⟩ := callTables_append_of_failed hbefore (t :: after) (0, .noMatch)
  rw [exec_decode_full hfull, horder, hlast, callTables_of_ok after last ht]

/-- With no table left the call fails (R184). -/
theorem exec_decode_of_failed {s : State} (hfull : 4 ≤ s.request.avail)
    (h : ∀ k ∈ tableOrder s.cfg.ext, ∃ c, attemptTable s.env (assembled s.cfg s.request) s.work.raw k = .fail c) :
    ∃ t c, exec .decode s = endCall ((accept s).withWord (assembled s.cfg s.request)) (.failed t c) := by
  obtain ⟨⟨t, c⟩, hlast⟩ := callTables_append_of_failed h [] (0, .noMatch)
  rw [List.append_nil] at hlast
  exact ⟨t, c, by rw [exec_decode_full hfull, hlast, callTables]⟩

theorem attemptTable_of_attemptSucceeds {t : Nat} {s : State} {rec : Record} (h : AttemptSucceeds t s rec) :
    ∃ a, attemptTable s.env s.work.word s.work.raw t = .ok a ∧ a.record = rec := by
  obtain ⟨u, hu, hresult⟩ := h
  cases ha : attemptTable s.env s.work.word s.work.raw t with
  | ok a =>
    obtain rfl := Host.Outcome.next.inj ((exec_attempt_of_ok ha).symm.trans hu)
    exact ⟨a, rfl, Option.some.inj (OpResult.attempt.inj hresult)⟩
  | fail c =>
    obtain rfl := Host.Outcome.next.inj ((exec_attempt_of_fail ha).symm.trans hu)
    exact nomatch hresult
  | refuse r => exact nomatch (exec_attempt_refused ha).symm.trans hu

/-- A table whose leaf's fields resolve from the fresh record succeeds with what they leave (44_matcher_dispatch.md R163). -/
theorem attemptTable_of_runFields {e : Env} {word : Word} {raw raw' : U64} {t : Nat} {rows : List TableRow} {l : Leaf}
    {rec : Record} (hrows : e.roms.tables[t]? = some rows) (hmatch : matchRows rows word e.cfg.features = some l)
    (hmax : l.nfields ≤ e.roms.params.maxFields)
    (hrun : runFields e word (leafFields l) raw (freshRecord l.opcode) = .ok (raw', rec)) :
    attemptTable e word raw t = .ok ⟨l, raw', rec⟩ := by
  rw [attemptTable_of_lookup (lookupLeaf_eq_ok.mpr ⟨rows, hrows, hmatch⟩), attemptLeaf_of_le hmax, hrun, Res.map_ok]

/-! ### Every call ends (R188) -/

/-- The answer is a response that the host sees. -/
def Published (a : Answer) : Prop := ∃ r : Response, a = .ok r ∧ r.rsp = true

section
variable {e : Env} (hcheck : e.cfg.check = .failClosed)
include hcheck

theorem tablesAnswer_published (word : Word) (ts : List Nat) : Published (tablesAnswer e word ts) := by
  rw [← callTables_answer e word 0#64 ts (0, .noMatch)]
  cases hend : callTables e word 0#64 ts (0, .noMatch) with
  | done t a => exact ⟨successResponse a.record, rfl, rfl⟩
  | failed t c => exact ⟨failResponse, rfl, rfl⟩
  | refused r => exact absurd hend (callTables_defined hcheck _ _ _ _ r)

theorem fieldsRecord_answerOr_published (word : Word) (fds : List Word) (rec : Record) {rest : Answer}
    (hrest : Published rest) : Published ((fieldsRecord e word fds rec).answerOr rest) := by
  cases hfields : fieldsRecord e word fds rec with
  | ok rec' => exact ⟨successResponse rec', rfl, rfl⟩
  | fail c => exact hrest
  | refuse r => exact absurd hfields ((runFields_defined hcheck ..).map.not_refused r)

end

/-- A call in progress is answered, whatever place it stands at. -/
theorem State.answer_published {s : State} (hp : s.work.phase ≠ .idle) (hcheck : s.cfg.check = .failClosed) :
    Published s.answer := by
  cases hphase : s.work.phase with
  | idle => exact absurd hphase hp
  | matching =>
    rw [State.answer_matching hphase]
    exact tablesAnswer_published (e := s.env) hcheck ..
  | resolving =>
    rw [State.answer_resolving hphase]
    exact fieldsRecord_answerOr_published (e := s.env) hcheck _ _ _ (tablesAnswer_published (e := s.env) hcheck ..)

/-- The tables that are left of `ORDER` are at most the extension tables. -/
theorem InCall.order_length_le {s : State} (h : InCall s) : s.work.order.length ≤ s.cfg.ext.length :=
  Nat.le_of_succ_le_succ (h.order.length_le.trans (tableOrder_length_le s.cfg.ext))

/-- The current table and each one left of `ORDER` take at most `MAXFIELDS` + 2 moves. -/
theorem State.moves_le_of_wf {s : State} (h : s.wf) (hp : s.work.phase ≠ .idle) (hr : s.request.req = false) :
    s.moves ≤ (s.roms.params.maxFields + 2) * (s.cfg.ext.length + 2) := by
  have hcurrent : s.moves ≤ s.orderMoves + (s.roms.params.maxFields + 2) := by
    cases hphase : s.work.phase with
    | idle => exact absurd hphase hp
    | matching => simp [State.moves, hphase]
    | resolving =>
      obtain ⟨-, -, -, -, -, -, -, hresolving⟩ := h
      obtain ⟨hmax, -⟩ := hresolving hphase
      simp only [State.moves, hphase]
      omega
  calc s.moves
      ≤ s.orderMoves + (s.roms.params.maxFields + 2) := hcurrent
    _ = (s.roms.params.maxFields + 2) * (s.work.order.length + 1) := (Nat.mul_succ ..).symm
    _ ≤ (s.roms.params.maxFields + 2) * (s.cfg.ext.length + 2) :=
        Nat.mul_le_mul_left _ (Nat.add_le_add (inCall_of_wf h hp hr).order_length_le (by decide))

end Sys2Proof.Machine

open Sys2Proof Sys2Proof.Machine

/-- Settles O28: the sum of the shifted bytes is the bytes put side by side. -/
theorem assembleFormsTheWord : Obligations.AssembleFormsTheWord := by
  unfold Obligations.AssembleFormsTheWord
  rintro s b0 b1 b2 b3 hfull rfl rfl rfl rfl
  refine ⟨assembled s.cfg s.request, exec_assemble hfull, assembleWord_toNat .., fun hbig => ?_, fun hlittle => ?_⟩
  · rw [assembled, assembleWord_eq_append, if_pos hbig]
  · rw [assembled, assembleWord_eq_append, hlittle, if_neg Bool.false_ne_true]

/-- Settles O31: the tables before the primary one are those whose mode is on, in the order of their numbers. -/
theorem orderOfTables : Obligations.OrderOfTables := by
  unfold Obligations.OrderOfTables
  exact fun ext => ⟨activeExtensions ext, tableOrder_eq ext, activeExtensions_rising ext,
    fun _ => mem_activeExtensions_iff⟩

/-- Settles O32: the run over the tables passes those that fail and stops at the first that succeeds. -/
theorem firstSuccessEndsTheCall : Obligations.FirstSuccessEndsTheCall := by
  unfold Obligations.FirstSuccessEndsTheCall
  refine ⟨fun s before after t rec hfull horder hbefore ht => ?attempts,
    fun s before after t rows l word raw rec hfull hword horder hbefore hrows hmatch hmax hrun => ?state⟩
  case attempts =>
    obtain ⟨a, ha, rfl⟩ := attemptTable_of_attemptSucceeds ht
    have hdecode := exec_decode_of_success hfull horder (fun k hk => attemptTable_of_attemptFails (hbefore k hk)) ha
    exact ⟨_, hdecode, rfl, rfl, rfl, rfl, rfl, rfl, rfl, rfl⟩
  case state =>
    obtain rfl := hword
    have hdecode := exec_decode_of_success hfull horder hbefore
      (attemptTable_of_runFields (e := s.env) hrows hmatch hmax hrun)
    have hgrown := runFields_grown (Nat.zero_le _) hrun
    exact ⟨_, hdecode, ⟨rfl, rfl, rfl, rfl, rfl, rfl⟩, rfl, rfl, rfl, rfl, rfl, rfl, rfl, rfl, rfl, rfl, hgrown.opcode,
      hgrown.bounded⟩

/-- Settles O33: the run over the tables comes to its end. -/
theorem allTablesFailed : Obligations.AllTablesFailed := by
  unfold Obligations.AllTablesFailed
  intro s hfull h
  obtain ⟨t, c, hdecode⟩ := exec_decode_of_failed hfull fun k hk => attemptTable_of_attemptFails (h k hk)
  exact ⟨_, hdecode, rfl, rfl, rfl, rfl, rfl, rfl, rfl⟩

/-- Settles O53: the moves that are left are bounded and the call's answer, which they end with, is a response. -/
theorem everyCallEnds : Obligations.EveryCallEnds := by
  unfold Obligations.EveryCallEnds
  intro s hwf hp hr hcheck
  have hends := runSteps_endsWith hr (State.moves_le_of_wf hwf hp hr)
  obtain ⟨r, hanswer, hrsp⟩ := State.answer_published hp hcheck
  rw [hanswer] at hends
  obtain ⟨t, ht, rfl, hphase, -⟩ := hends
  exact ⟨t, ht, hphase, hrsp⟩

/-- Settles O30: the test of the buffer's length comes before anything else. -/
theorem shortBufferFails : Obligations.ShortBufferFails := by
  unfold Obligations.ShortBufferFails
  intro s h
  exact ⟨_, exec_decode_short h, rfl, rfl, rfl, rfl, rfl, rfl⟩

end

section
/-! PROOF. The failures of a packed memory field in the order in which `RES_MEM` meets them (60_exceptions.md R206): the base
index, the policy code, the capacity; and the width of the base index in the formats `MRI` and `MRIX` (30_encoding.md R64,
R65). -/

namespace Sys2Proof.Machine

/-- In a field that is `b` bits longer than its displacement the base index has `b` bits. -/
theorem base_lt_of_width {dw b w n : Nat} (hwidth : w = b + dw) (h : n < 2 ^ w) : n / 2 ^ dw < 2 ^ b :=
  Nat.div_lt_of_lt_mul (by rwa [← Nat.pow_add, Nat.add_comm, ← hwidth])

/-! ### The base and the policy -/

/-- The index is checked before anything else. -/
theorem resMem_beyond {dw sc : Nat} {e : Env} {raw : U64} {rec : Record}
    (h : (bankTable e.roms.bank .gprz).length ≤ raw.toNat / 2 ^ dw) :
    resMem dw sc e raw rec = violation e.cfg.check .index .indexRange := by
  rw [← memBase_eq_div] at h
  rw [resMem, resolve_out_of_range h, Res.bind_violation]

theorem resMem_reservedCode {dw sc : Nat} {e : Env} {raw : U64} {rec : Record} {r : RegId}
    (hr : (bankTable e.roms.bank .gprz)[raw.toNat / 2 ^ dw]? = some r)
    (hcode : policyCode e.roms.policy rec.opcode = 3#2) :
    resMem dw sc e raw rec = violation e.cfg.check .field .reservedCode := by
  rw [← memBase_eq_div] at hr
  rw [resMem, resolve_eq_ok.mpr hr, Res.bind_ok, policyOf_reserved hcode, Res.bind_violation]

/-! ### The capacity -/

section
variable {q : Params} {m : CheckMode}

theorem opsAppend_twice_full (a b : Operand) {rec : Record} (hfull : ¬rec.n + 2 ≤ q.maxOps) :
    (opsAppend q m a rec).bind (opsAppend q m b) = violation m .capacity .listFull := by
  obtain hroom | hnone := Nat.lt_or_ge rec.n q.maxOps
  · have hsecond : q.maxOps ≤ ({ rec with ops := rec.ops ++ [a] } : Record).n := by
      simp only [Record.n, List.length_append, List.length_singleton] at hfull ⊢
      omega
    rw [opsAppend_ok a hroom, Res.bind_ok, opsAppend_full b hsecond]
  · rw [opsAppend_full a hnone, Res.bind_violation]

/-- Where an insertion and two appends do not all fit, one of them finds the list full. -/
theorem opsInsert_opsAppend_twice_full (o a b : Operand) {p : Nat} {rec : Record} (hp : p ≤ rec.n)
    (hfull : ¬rec.n + 3 ≤ q.maxOps) :
    ((opsInsert q m p o rec).bind fun rec1 => (opsAppend q m a rec1).bind (opsAppend q m b)) =
      violation m .capacity .listFull := by
  obtain hroom | hnone := Nat.lt_or_ge rec.n q.maxOps
  · have hinsert := opsInsert_ok (m := m) o hroom hp
    rw [hinsert, Res.bind_ok]
    exact opsAppend_twice_full a b (by rw [opsInsert_n hinsert]; exact hfull)
  · rw [opsInsert_full o hnone, Res.bind_violation]

end

/-- At its position the tied operand of a store is inserted as that of a load is. -/
theorem insertTied_tiedStore_eq {e : Env} {r : RegId} {rec : Record} (hpos : rec.n = e.roms.params.tiedStorePos) :
    insertTied e .tiedStore r rec = opsInsert e.roms.params e.cfg.check rec.n (.reg r) rec := by
  rw [insertTied, if_neg (not_not_intro hpos), hpos]

section
variable {dw sc : Nat} {e : Env} {raw : U64} {rec : Record} {r : RegId}
  (hr : (bankTable e.roms.bank .gprz)[raw.toNat / 2 ^ dw]? = some r)
include hr

theorem resMem_none_full (hcode : policyCode e.roms.policy rec.opcode = 0#2)
    (hfull : ¬rec.n + 2 ≤ e.roms.params.maxOps) :
    resMem dw sc e raw rec = violation e.cfg.check .capacity .listFull := by
  rw [resMem_of_accepted hr (policyOf_none hcode) fun h => h.1 rfl]
  exact opsAppend_twice_full _ _ hfull

section
variable (hbase : ¬(e.cfg.chkBase0 = true ∧ raw.toNat / 2 ^ dw = 0)) (hfull : ¬rec.n + 3 ≤ e.roms.params.maxOps)
include hbase hfull

theorem resMem_tiedOut_full (hcode : policyCode e.roms.policy rec.opcode = 1#2) :
    resMem dw sc e raw rec = violation e.cfg.check .capacity .listFull := by
  rw [resMem_of_accepted hr (policyOf_tiedOut hcode) fun h => hbase h.2]
  exact opsInsert_opsAppend_twice_full _ _ _ (Nat.zero_le _) hfull

theorem resMem_tiedStore_full (hcode : policyCode e.roms.policy rec.opcode = 2#2)
    (hpos : rec.n = e.roms.params.tiedStorePos) :
    resMem dw sc e raw rec = violation e.cfg.check .capacity .listFull := by
  rw [resMem_of_accepted hr (policyOf_tiedStore hcode) fun h => hbase h.2, insertTied_tiedStore_eq hpos]
  exact opsInsert_opsAppend_twice_full _ _ _ le_rfl hfull

end

end

/-- A memory field at the cursor meets the violation that `RES_MEM` meets on its raw field. -/
theorem violates_memory {c : OperandClass} {dw sc : Nat} (hc : (c, dw, sc) ∈ memoryClasses) {hi lo : BitVec 5}
    {s : State} {raw : U64} (hle : lo ≤ hi) (hraw : raw = extract s.work.word hi.toNat lo.toNat) (fid : BitVec 8)
    {cause : Cause} {r : Refusal} (hres : resMem dw sc s.env raw s.work.record = violation s.cfg.check cause r) :
    Violates (Instr.ofField c hi lo fid) s (s.withRaw raw) cause r :=
  violates_ofField hle hraw fid ((resolveClass_memory hc ..).trans hres)

end Sys2Proof.Machine

open Sys2Proof Sys2Proof.Machine

/-- Settles O17: a base index of the format's width has `N_BASE` bits; the base is looked up first, then the policy, and the
operands of the field are put in one after the other until the list is full. -/
theorem memoryOperandFailures : Obligations.MemoryOperandFailures := by
  unfold Obligations.MemoryOperandFailures
  intro hi lo fid s hle m hm raw hraw
  change m ∈ memoryClasses.map fun c => (Instr.ofField c.1 hi lo fid, c.2.1) at hm
  obtain ⟨⟨c, dw, sc⟩, hc, rfl⟩ := List.mem_map.mp hm
  have hlt : raw.toNat < 2 ^ (hi.toNat - lo.toNat + 1) := hraw ▸ extract_lt s.work.word (Nat.le_of_lt_succ hi.isLt)
  refine ⟨fun hwidth => base_lt_of_width hwidth hlt,
    fun hbeyond => violates_memory hc hle hraw fid (resMem_beyond (e := s.env) hbeyond), fun hin => ?_⟩
  have hr := List.getElem?_eq_getElem hin
  refine ⟨fun hcode => ?reserved, fun hcode hfull => ?none, fun hcode hfull hbase => ?tiedOut,
    fun hcode hpos hfull hbase => ?tiedStore⟩
  case reserved => exact violates_memory hc hle hraw fid (resMem_reservedCode (e := s.env) hr hcode)
  case none => exact violates_memory hc hle hraw fid (resMem_none_full (e := s.env) hr hcode hfull)
  case tiedOut => exact violates_memory hc hle hraw fid (resMem_tiedOut_full (e := s.env) hr hbase hfull hcode)
  case tiedStore => exact violates_memory hc hle hraw fid (resMem_tiedStore_full (e := s.env) hr hbase hfull hcode hpos)

end

section
/-! PROOF. The settings `FAIL_CLOSED` and `TRUST` side by side (60_exceptions.md R205; 43_composite_resolvers.md R151): each
operation of an attempt ends in the same value under both, or in none, but for a mask that is not one-hot. -/

namespace Sys2Proof.Machine

/-! ### The ends that agree -/

/-- The ends `x` of an operation under `FAIL_CLOSED` and `y` under `TRUST`: a value of either is a value of the other, save
that `FAIL_CLOSED` may have failed with `F_ONEHOT`. -/
structure Res.Agree {α : Type} (x y : Res α) : Prop where
  trusts : ∀ a, x = .ok a → y = .ok a
  checks : ∀ a, y = .ok a → x = .ok a ∨ x = .fail .onehot

theorem Res.Agree.refl {α : Type} (x : Res α) : x.Agree x := ⟨fun _ => id, fun _ => .inl⟩

theorem Res.Agree.violation {α : Type} (c : Cause) (r : Refusal) :
    (violation .failClosed c r : Res α).Agree (violation .trust c r) :=
  ⟨fun a h => absurd h (violation_ne_ok _ c r a), fun a h => absurd h (violation_ne_ok _ c r a)⟩

theorem Res.Agree.onehot {α : Type} (y : Res α) : (Res.fail .onehot : Res α).Agree y where
  trusts _ h := nomatch h
  checks _ _ := .inr rfl

theorem Res.Agree.ite {α : Type} {x y x' y' : Res α} {p : Prop} [Decidable p] (h : x.Agree y) (h' : x'.Agree y') :
    (if p then x else x').Agree (if p then y else y') := by
  split
  · exact h
  · exact h'

theorem Res.Agree.bind {α β : Type} {x y : Res α} {f g : α → Res β} (h : x.Agree y) (hfg : ∀ a, (f a).Agree (g a)) :
    (x.bind f).Agree (y.bind g) := by
  constructor
  · intro b hb
    obtain ⟨a, hx, hf⟩ := Res.bind_eq_ok.mp hb
    exact Res.bind_eq_ok.mpr ⟨a, h.trusts a hx, (hfg a).trusts b hf⟩
  · intro b hb
    obtain ⟨a, hy, hg⟩ := Res.bind_eq_ok.mp hb
    obtain rfl | rfl := h.checks a hy
    · exact (hfg a).checks b hg
    · exact .inr rfl

theorem Res.Agree.map {α β : Type} {x y : Res α} (h : x.Agree y) (f : α → β) : (x.map f).Agree (y.map f) := by
  constructor
  · intro b hb
    obtain ⟨a, hx, hf⟩ := Res.map_eq_ok.mp hb
    exact Res.map_eq_ok.mpr ⟨a, h.trusts a hx, hf⟩
  · intro b hb
    obtain ⟨a, hy, rfl⟩ := Res.map_eq_ok.mp hb
    obtain rfl | rfl := h.checks a hy
    · exact .inl rfl
    · exact .inr rfl

/-! ### The shared operations -/

theorem resolve_agree (rom : BankRom) (b i : Nat) : (resolve .failClosed rom b i).Agree (resolve .trust rom b i) := by
  unfold resolve
  split
  · exact .refl _
  · exact .violation ..

theorem policyOf_agree (rom : List (OpcId × BitVec 2)) (opc : OpcId) :
    (policyOf .failClosed rom opc).Agree (policyOf .trust rom opc) := by
  unfold policyOf
  split
  · exact .refl _
  · exact .refl _
  · exact .refl _
  · exact .violation ..

theorem opsAppend_agree (q : Params) (o : Operand) (rec : Record) :
    (opsAppend q .failClosed o rec).Agree (opsAppend q .trust o rec) :=
  .ite (.violation ..) (.refl _)

theorem opsInsert_agree (q : Params) (p : Nat) (o : Operand) (rec : Record) :
    (opsInsert q .failClosed p o rec).Agree (opsInsert q .trust p o rec) :=
  .ite (.violation ..) (.ite (.violation ..) (.refl _))

/-- The one place where a value of `TRUST` is none of `FAIL_CLOSED`: a mask that is not one-hot (R151). -/
theorem crGroup_agree (mask : U64) : (crGroup .failClosed mask).Agree (crGroup .trust mask) := by
  unfold crGroup
  refine .ite (.violation ..) ?_
  rw [if_neg (fun h => nomatch h.1 : ¬(CheckMode.trust = .failClosed ∧ onehot8 mask = false))]
  cases onehot8 mask with
  | false => exact .onehot _
  | true =>
    rw [if_neg fun h => nomatch h.2]
    cases ctz mask with
    | none => exact .violation ..
    | some p => exact .ite (.refl _) (.violation ..)

/-! ### The operations of an attempt -/

/-- What an attempt reads, under the setting `m` of `CHECK`. -/
def Env.withCheck (e : Env) (m : CheckMode) : Env := { e with cfg := { e.cfg with check := m } }

section
variable (e : Env)

theorem insertTied_agree (pol : Policy) (r : RegId) (rec : Record) :
    (insertTied (e.withCheck .failClosed) pol r rec).Agree (insertTied (e.withCheck .trust) pol r rec) := by
  cases pol with
  | none => exact .refl _
  | tiedOut => exact opsInsert_agree ..
  | tiedStore => exact .ite (.violation ..) (opsInsert_agree ..)

/-- The check of R147 fails the attempt under both settings. -/
theorem resMem_agree (dw sc : Nat) (raw : U64) (rec : Record) :
    (resMem dw sc (e.withCheck .failClosed) raw rec).Agree (resMem dw sc (e.withCheck .trust) raw rec) :=
  (resolve_agree ..).bind fun _ => (policyOf_agree ..).bind fun _ => .ite (.refl _) <|
    (insertTied_agree ..).bind fun _ => (opsAppend_agree ..).bind fun _ => opsAppend_agree ..

theorem resolveClass_agree (c : OperandClass) (hi lo : BitVec 5) (raw : U64) (rec : Record) :
    (resolveClass (e.withCheck .failClosed) c hi lo raw rec).Agree
      (resolveClass (e.withCheck .trust) c hi lo raw rec) := by
  cases c with
  | reg b => exact (resolve_agree ..).bind fun _ => opsAppend_agree ..
  | uimm => exact opsAppend_agree ..
  | simm => exact .ite (.violation ..) (opsAppend_agree ..)
  | memri => exact resMem_agree ..
  | memrix => exact resMem_agree ..
  | crbitm => exact (crGroup_agree _).bind fun _ => (resolve_agree ..).bind fun _ => opsAppend_agree ..

theorem descriptorStep_agree (word fd : Word) (rec : Record) :
    (descriptorStep (e.withCheck .failClosed) word fd rec).Agree
      (descriptorStep (e.withCheck .trust) word fd rec) := by
  unfold descriptorStep
  cases OperandClass.ofCode (fdClass fd) with
  | none => exact .violation ..
  | some c => exact .ite (.violation ..) ((resolveClass_agree ..).map _)

theorem runFields_agree (word : Word) (fds : List Word) (raw : U64) (rec : Record) :
    (runFields (e.withCheck .failClosed) word fds raw rec).Agree
      (runFields (e.withCheck .trust) word fds raw rec) := by
  induction fds generalizing raw rec with
  | nil => exact .refl _
  | cons fd rest ih => exact (descriptorStep_agree ..).bind fun p => ih p.1 p.2

theorem lookupLeaf_agree (word : Word) (t : Nat) :
    (lookupLeaf (e.withCheck .failClosed) word t).Agree (lookupLeaf (e.withCheck .trust) word t) := by
  unfold lookupLeaf Env.withCheck
  cases e.roms.tables[t]? with
  | none => exact .violation ..
  | some rows => exact .refl _

theorem attemptTable_agree (word : Word) (raw : U64) (t : Nat) :
    (attemptTable (e.withCheck .failClosed) word raw t).Agree (attemptTable (e.withCheck .trust) word raw t) :=
  (lookupLeaf_agree ..).bind fun _ => .ite (.violation ..) ((runFields_agree ..).map _)

end

theorem attemptSucceeds_of_attemptTable {t : Nat} {s : State} {a : AttemptEnd}
    (h : attemptTable s.env s.work.word s.work.raw t = .ok a) : AttemptSucceeds t s a.record :=
  ⟨_, exec_attempt_of_ok h, rfl⟩

end Sys2Proof.Machine

open Sys2Proof Sys2Proof.Machine

/-- Settles O48: the two settings run the same attempt on what the state gives it, and its ends agree. -/
theorem checkSettingsAgree : Obligations.CheckSettingsAgree := by
  unfold Obligations.CheckSettingsAgree
  intro t s
  have hagree := attemptTable_agree s.env s.work.word s.work.raw t
  constructor
  · intro rec h
    obtain ⟨a, ha, rfl⟩ := attemptTable_of_attemptSucceeds h
    exact attemptSucceeds_of_attemptTable (hagree.trusts a ha)
  · intro rec h
    obtain ⟨a, ha, rfl⟩ := attemptTable_of_attemptSucceeds h
    obtain hok | hfail := hagree.checks a ha
    · exact .inl (attemptSucceeds_of_attemptTable hok)
    · exact .inr ⟨_, exec_attempt_of_fail hfail, rfl, rfl⟩

end
